-- ==== Sys2Proof/Word.lean ====
section
/-! DEFINITION. The word types of pid_ctrl (00_scope.md R9, R10; 10_state.md R20, R22, R30). -/

namespace Sys2Proof

/-- One byte of a command line or of the block image (30_encoding.md R90, 20_memory.md R63). -/
abbrev Byte := BitVec 8

/-- A 16-bit register: duty registers, counts, `cmdMultiplier`, `ticksPerServoCycle`, `checksum` (R9 `u16`, `i16`). -/
abbrev Half := BitVec 16

/-- A 32-bit integer: the jerk integer, a 32-bit field of the image (R9 `i32`, `u32`). -/
abbrev Word := BitVec 32

/-- The bits of a value of the type `Num` (R10), four bytes of the image (20_memory.md R63): a binary32 pattern, unless
the parameter `Num` says otherwise. The binary32 operations stand in Machine/Num32.lean. -/
abbrev Num32 := BitVec 32

/-- The two's-complement value of a register of `ACC_W` bits: the accumulators, the errors, the previous command (R7,
10_state.md R30). The width is a parameter of the model, so the value is an integer that every write wraps to the
width (Machine/Width.lean). -/
abbrev Accum := Int

/-- The value of a raw position counter, of `CNT_W` bits (R7, 10_state.md R20, R40), or of an unsigned register of
`ACC_W` bits (R35). -/
abbrev Count := Nat

end Sys2Proof
end

