-- ==== Sys2Proof/Config.lean ====
section
/-! DEFINITION. The parameters and options of the model (00_scope.md R7, R8), the record of parameter
registers (10_state.md R21, R22), and the free values of the spec (93_implementation_defined.md I15, I16, I25). -/

namespace Sys2Proof

/-- Registers 0 to 12 of the parameter file `P`, in layout order (10_state.md R22). -/
@[ext]
structure ParamVals where
  pgain : Num32
  igain : Num32
  dgain : Num32
  ff0gain : Num32
  ff1gain : Num32
  deadband : Num32
  maxOutput : Num32
  maxError : Num32
  maxIntegralError : Num32
  maxDerivError : Num32
  maxCmdDeriv : Num32
  cmdMultiplier : Half
  ticksPerServoCycle : Half
  deriving DecidableEq, Repr

/-- The whole parameter register file: registers 0 to 12 and register 13, `checksum` (R22). -/
@[ext]
structure Params extends ParamVals where
  checksum : Half
  deriving DecidableEq, Repr

/-- The eleven `Num` registers of `P`, numbers 0 to 10 in layout order (R22). -/
inductive FloatReg where
  | pgain | igain | dgain | ff0gain | ff1gain | deadband | maxOutput | maxError
  | maxIntegralError | maxDerivError | maxCmdDeriv
  deriving DecidableEq, Repr

/-- The values of `OPT_FAULT_LIMIT` (R8). -/
inductive FaultLimit where
  | maxOutput
  | maxError
  deriving DecidableEq, Repr

/-- The real-number arithmetic `Num` as a record of its operations (R10, R11): everything any rule does with a
`Num`. Zero is the pattern 0 (log 21). -/
structure NumOps where
  add : Num32 → Num32 → Num32
  sub : Num32 → Num32 → Num32
  mul : Num32 → Num32 → Num32
  div : Num32 → Num32 → Num32
  neg : Num32 → Num32
  abs : Num32 → Num32
  /-- `Num.lt`. -/
  lt : Num32 → Num32 → Bool
  isNaN : Num32 → Bool
  /-- +0.0 or -0.0. -/
  isZero : Num32 → Bool
  /-- The quotient of two naturals, with a sign, rounded (42_pid.md R141). -/
  ofRatio : Bool → Nat → Nat → Num32
  /-- `toNum`. -/
  ofInt : Int → Num32
  /-- `decToNum` of a sign, a mantissa and a decimal exponent. -/
  ofDecimal : Bool → Nat → Int → Num32
  truncInt : Num32 → Int
  satTrunc32 : Num32 → Word
  /-- `%f` (46_commands.md R272). -/
  render : Num32 → List Byte
  deriving Inhabited

/-- The values of the parameter `Num` (R7, R10): binary32, the default, or some other arithmetic. -/
inductive NumKind where
  | binary32
  | other (k : Nat)
  deriving DecidableEq, Repr

/-- The fifteen command letters (30_encoding.md R95), in the order of the map. -/
def commandLetters : List Byte :=
  [0x70, 0x69, 0x64, 0x30, 0x31, 0x62, 0x6D, 0x66, 0x78, 0x74, 0x6A, 0x65, 0x6C, 0x73, 0x72]

/-- The parameters (R7) and the ten options (R8) the model takes as arguments. They stand in `State.cfg`,
which no step writes, so that a statement about every state is about every choice of them (log 1). -/
structure Config where
  /-- `ACC_W`, the width of the accumulators, the errors and the previous command; at least 32. -/
  accW : Nat
  /-- `CNT_W`, the width of the raw position counters. -/
  cntW : Nat
  /-- `Num`, the real-number arithmetic. -/
  num : NumKind
  /-- `T_SUB_NS`, a positive integer. -/
  tSubNs : Nat
  /-- `T2_NS`: no rule reads it (the model is untimed). -/
  t2Ns : Nat
  /-- `DUTY_SCALE`, a positive integer. -/
  dutyScale : Nat
  /-- `DUTY_CAP`, positive and at most 65535. -/
  dutyCap : Half
  /-- `DUTY_GAP`: only an order of two port writes in the untimed model (R177). -/
  dutyGap : Nat
  /-- `SETTLE_T2`, the argument of a `DELAY` (47_supervisor.md R289). -/
  settleT2 : Half
  /-- `JERK_T2` (R286). -/
  jerkT2 : Half
  /-- `BLINK_T2` (R282). -/
  blinkT2 : Half
  /-- `LINE_MAX` (30_encoding.md R90). -/
  lineMax : Nat
  /-- `DEFAULTS` (45_param_store.md R227). -/
  defaults : ParamVals
  /-- `HELP_TEXT` (46_commands.md R271). -/
  helpText : List Byte
  optDeadband : Bool
  optIntClamp : Bool
  optDerivClamp : Bool
  optOutClamp : Bool
  optFaultLimit : FaultLimit
  optFaultZero : Bool
  optFaultClearOnEnable : Bool
  optDisableZero : Bool
  optCmdMult : Bool
  optAtomicCmd : Bool
  deriving DecidableEq, Repr

/-- R23: 1 ≤ cmdMultiplier ≤ 22 and 1 ≤ ticksPerServoCycle ≤ 100. -/
def ParamVals.inRange (v : ParamVals) : Bool :=
  decide (1 ≤ v.cmdMultiplier.toInt) && decide (v.cmdMultiplier.toInt ≤ 22) &&
    decide (1 ≤ v.ticksPerServoCycle.toInt) && decide (v.ticksPerServoCycle.toInt ≤ 100)

/-- `HELP_TEXT` lists every letter of R95 (46_commands.md R271). -/
def Config.helpListsLetters (c : Config) : Bool := commandLetters.all fun b => c.helpText.contains b

/-- What R7, R227 and R271 ask of the parameters. A counter's delta must fit an accumulator, so `CNT_W` is at most
`ACC_W` (log 24). -/
def Config.wf (c : Config) : Bool :=
  decide (32 ≤ c.accW) && decide (1 ≤ c.cntW) && decide (c.cntW ≤ c.accW) &&
    decide (0 < c.tSubNs) && decide (0 < c.dutyScale) && decide (c.dutyCap ≠ 0) && c.defaults.inRange &&
    c.helpListsLetters

/-- The test-instance `DEFAULTS` (R228): 1.0, zeros, 1000.0, 100.0, zeros, 1, 4. -/
def ParamVals.testInst : ParamVals where
  pgain := 0x3F800000
  igain := 0
  dgain := 0
  ff0gain := 0
  ff1gain := 0
  deadband := 0
  maxOutput := 0x447A0000
  maxError := 0x42C80000
  maxIntegralError := 0
  maxDerivError := 0
  maxCmdDeriv := 0
  cmdMultiplier := 1
  ticksPerServoCycle := 4

/-- The test instance of R7 and 92_eei_decisions.md. DESIGN CHOICE (log 2): `T2_NS`, `DUTY_GAP`, `BLINK_T2` and
`HELP_TEXT` have no test-instance value in the spec. -/
def Config.testInst : Config where
  accW := 32
  cntW := 16
  num := .binary32
  tSubNs := 250000
  t2Ns := 1000000
  dutyScale := 1000
  dutyCap := 1000
  dutyGap := 0
  settleT2 := 0
  jerkT2 := 0
  blinkT2 := 0
  lineMax := 32
  defaults := .testInst
  helpText := commandLetters
  optDeadband := false
  optIntClamp := false
  optDerivClamp := false
  optOutClamp := false
  optFaultLimit := .maxOutput
  optFaultZero := false
  optFaultClearOnEnable := false
  optDisableZero := false
  optCmdMult := false
  optAtomicCmd := false

/-- The arithmetic operations of `Num` (R10). -/
inductive NumOp where
  | add | sub | mul | div
  deriving DecidableEq, Repr

/-- FREE VALUE (93 I16, log 3): the bits of the NaN that an operation makes from its operands. Nothing
constrains it; `Num32.nanOf` turns it into some NaN pattern. -/
opaque Config.freeNan : NumOp → Num32 → Num32 → BitVec 32

/-- FREE VALUE (93 I15, 20_memory.md R61, log 4): the byte at an offset of the image of a device that was
never saved. -/
opaque Config.freshNvmByte : Nat → Byte

/-- FREE VALUE (93 I25, log 21): the operations of an arithmetic other than binary32. Nothing constrains them. -/
opaque Config.otherNum : Nat → NumOps

end Sys2Proof
end

