-- ==== Sys2Proof/Syntax.lean ====
section
/-! DEFINITION. The sixteen commands (30_encoding.md R95) and their operand. -/

namespace Sys2Proof

/-- The exact value `q = s × M × 10^E` of a numeric argument (30_encoding.md R100): the sign, the decimal value
`M` of all mantissa digits, and the exponent `E`, in which the fraction point is counted. -/
structure Decimal where
  neg : Bool
  mant : Nat
  exp : Int
  deriving DecidableEq, Repr

/-- One constructor per row of the opcode map (R95). Formats F and I carry the argument when it is present
(R93, R100); format N ignores it (R103). `help` carries the first byte of the line, none for the empty line,
which is the `info` of MALFORMED_CMD (60_exceptions.md R300). -/
inductive Instr where
  | setp (q : Option Decimal)
  | seti (q : Option Decimal)
  | setd (q : Option Decimal)
  | setff0 (q : Option Decimal)
  | setff1 (q : Option Decimal)
  | setb (q : Option Decimal)
  | setm (q : Option Decimal)
  | setf (q : Option Decimal)
  | setx (q : Option Decimal)
  | sett (q : Option Decimal)
  | setj (q : Option Decimal)
  | rdfb
  | list
  | stat
  | zero
  | help (first : Option Byte)
  deriving DecidableEq, Repr

/-- The opcode byte of a command (R95); `help` has none of its own. -/
def Instr.opcode : Instr → Option Byte
  | .setp _ => some 0x70
  | .seti _ => some 0x69
  | .setd _ => some 0x64
  | .setff0 _ => some 0x30
  | .setff1 _ => some 0x31
  | .setb _ => some 0x62
  | .setm _ => some 0x6D
  | .setf _ => some 0x66
  | .setx _ => some 0x78
  | .sett _ => some 0x74
  | .setj _ => some 0x6A
  | .rdfb => some 0x65
  | .list => some 0x6C
  | .stat => some 0x73
  | .zero => some 0x72
  | .help _ => none

end Sys2Proof
end

