-- ==== Sys2Proof/WellFormed.lean ====
section
/-! DEFINITION. The well-formed commands: those that some line decodes to. -/

namespace Sys2Proof

/-- The one check: the byte of a `help` is none of the fifteen opcodes (R97). Every argument of formats F and I
is some literal's value, so nothing is asked of it (R99, R100). -/
def Instr.wellFormed : Instr → Bool
  | .setp _ | .seti _ | .setd _ | .setff0 _ | .setff1 _ | .setb _ | .setm _ | .setf _ => true
  | .setx _ | .sett _ => true
  | .setj _ => true
  | .rdfb | .list | .stat | .zero => true
  | .help none => true
  | .help (some b) => !commandLetters.contains b

end Sys2Proof
end

