-- ==== Sys2Proof/Decode.lean ====
section
/-! DEFINITION. The line decoder (30_encoding.md R90 to R105) and, after it, an encoder written from the same
map and grammar. Decoding is total and refuses no line (R98). -/

namespace Sys2Proof

/-- `digit` of R99. -/
def isDigit (b : Byte) : Bool := decide (0x30 ≤ b.toNat) && decide (b.toNat ≤ 0x39)

/-- The value of a digit byte. -/
def digitVal (b : Byte) : Nat := b.toNat - 0x30

/-- `ws*` of R99: spaces and tabs. -/
def skipWs : List Byte → List Byte
  | [] => []
  | b :: t => if b = 0x20 ∨ b = 0x09 then skipWs t else b :: t

/-- The longest run of digits, and what follows it. -/
def takeDigits : List Byte → List Nat × List Byte
  | [] => ([], [])
  | b :: t => if isDigit b then (digitVal b :: (takeDigits t).1, (takeDigits t).2) else ([], b :: t)

/-- `sign?` of R99: whether it is `-`, and what follows it. -/
def takeSign : List Byte → Bool × List Byte
  | [] => (false, [])
  | b :: t => if b = 0x2D then (true, t) else if b = 0x2B then (false, t) else (false, b :: t)

/-- The number a run of decimal digits stands for, most significant first. -/
def digitsVal (ds : List Nat) : Nat := ds.foldl (fun a d => 10 * a + d) 0

/-- `mant` of R99: the digits before and after the point, and what follows; none where there is no digit. -/
def parseMant (l : List Byte) : Option (List Nat × List Nat × List Byte) :=
  match takeDigits l with
  | (i, []) => if i = [] then none else some (i, [], [])
  | (i, b :: r) =>
    if b = 0x2E then
      if i = [] ∧ (takeDigits r).1 = [] then none else some (i, (takeDigits r).1, (takeDigits r).2)
    else if i = [] then none else some (i, [], b :: r)

/-- `exp?` of R99: taken only if at least one digit follows; 0 where there is none (R100). -/
def parseExp (l : List Byte) : Int :=
  match l with
  | [] => 0
  | b :: r =>
    if b = 0x65 ∨ b = 0x45 then
      if (takeSign r).1 then -(digitsVal (takeDigits (takeSign r).2).1 : Int)
      else (digitsVal (takeDigits (takeSign r).2).1 : Int)
    else 0

/-- The argument field (R99, R100, R104): the value of the longest numeric prefix after `ws*`, none where the
value is absent. -/
def parseArg (l : List Byte) : Option Decimal :=
  match parseMant (takeSign (skipWs l)).2 with
  | none => none
  | some (i, f, r) => some ⟨(takeSign (skipWs l)).1, digitsVal (i ++ f), parseExp r - (f.length : Int)⟩

/-- The opcode map (R95): each opcode byte with the command it makes of its argument field. -/
def opcodeTable : List (Byte × (List Byte → Instr)) :=
  [ (0x70, fun a => .setp (parseArg a)), (0x69, fun a => .seti (parseArg a)),
    (0x64, fun a => .setd (parseArg a)), (0x30, fun a => .setff0 (parseArg a)),
    (0x31, fun a => .setff1 (parseArg a)), (0x62, fun a => .setb (parseArg a)),
    (0x6D, fun a => .setm (parseArg a)), (0x66, fun a => .setf (parseArg a)),
    (0x78, fun a => .setx (parseArg a)), (0x74, fun a => .sett (parseArg a)),
    (0x6A, fun a => .setj (parseArg a)), (0x65, fun _ => .rdfb), (0x6C, fun _ => .list),
    (0x73, fun _ => .stat), (0x72, fun _ => .zero) ]

/-- The command a line decodes to (R92 to R98): byte 0 is the opcode, compared with all its bits and by case;
every other line, the empty one included, is `help`. -/
def decodeLine : List Byte → Instr
  | [] => .help none
  | b :: arg =>
    match opcodeTable.lookup b with
    | some mk => mk arg
    | none => .help (some b)

/-- The bytes of a number of `n` bytes, least significant first: `b[0]` is bits 7..0. -/
def tableBytes : Nat → Nat → List Byte
  | 0, _ => []
  | n + 1, w => BitVec.ofNat 8 w :: tableBytes n (w / 256)

/-- The command the decoder reads from the line of `nbits / 8` bytes whose bits are `w`. A command has no length
beyond its line (R91), so no byte follows. -/
def decodeTableWord (nbits w : Nat) : Option Instr := some (decodeLine (tableBytes (nbits / 8) w))

/-- The decimal digits of `n` put before `acc`, with `fuel` at least their number. -/
def digitsOnto : Nat → Nat → List Nat → List Nat
  | 0, _, acc => acc
  | fuel + 1, n, acc => if n < 10 then n :: acc else digitsOnto fuel (n / 10) (n % 10 :: acc)

/-- The decimal digits of `n`, most significant first, without leading zeros. -/
def natDigits (n : Nat) : List Nat := digitsOnto (n.log2 + 1) n []

/-- The byte of a decimal digit. -/
def digitByte (d : Nat) : Byte := BitVec.ofNat 8 (0x30 + d)

/-- The bytes of the decimal digits of `n`. -/
def natBytes (n : Nat) : List Byte := (natDigits n).map digitByte

/-- A literal of R99 for an exact value: sign, mantissa digits, and an exponent where it is not 0. -/
def encodeDecimal (d : Decimal) : List Byte :=
  (if d.neg then [0x2D] else []) ++ natBytes d.mant ++
    (if d.exp = 0 then []
     else 0x65 :: ((if d.exp < 0 then [0x2D] else []) ++ natBytes d.exp.natAbs))

/-- The argument field of formats F and I. -/
def encodeArg : Option Decimal → List Byte
  | none => []
  | some d => encodeDecimal d

/-- A line for each command (R106): the opcode character and the literal. -/
def encode : Instr → List Byte
  | .setp q => 0x70 :: encodeArg q
  | .seti q => 0x69 :: encodeArg q
  | .setd q => 0x64 :: encodeArg q
  | .setff0 q => 0x30 :: encodeArg q
  | .setff1 q => 0x31 :: encodeArg q
  | .setb q => 0x62 :: encodeArg q
  | .setm q => 0x6D :: encodeArg q
  | .setf q => 0x66 :: encodeArg q
  | .setx q => 0x78 :: encodeArg q
  | .sett q => 0x74 :: encodeArg q
  | .setj q => 0x6A :: encodeArg q
  | .rdfb => [0x65]
  | .list => [0x6C]
  | .stat => [0x73]
  | .zero => [0x72]
  | .help none => []
  | .help (some b) => [b]

end Sys2Proof
end

