-- ==== Sys2Proof/Machine/Num32.lean ====
section
/-! DEFINITION. Binary32 arithmetic, the default `Num`: correctly rounded, with its conversions (00_scope.md R10, R11).
Every operation converts to exact integers, computes, and rounds once at the end. -/

namespace Sys2Proof

/-- The magnitude bits of infinity. -/
def infBits : Nat := 0x7F800000

/-- The sign bit. -/
def Num32.sign (a : Num32) : Bool := a.msb

/-- The biased exponent field, bits 30..23. -/
def Num32.expo (a : Num32) : Nat := a.toNat / 2 ^ 23 % 256

/-- The fraction field, bits 22..0. -/
def Num32.frac (a : Num32) : Nat := a.toNat % 2 ^ 23

def Num32.isNaN (a : Num32) : Bool := decide (a.expo = 255) && decide (a.frac ≠ 0)

def Num32.isInf (a : Num32) : Bool := decide (a.expo = 255) && decide (a.frac = 0)

/-- +0.0 or -0.0. -/
def Num32.isZero (a : Num32) : Bool := decide (a.toNat % 2 ^ 31 = 0)

/-- The integer significand: a finite `a` is `±mant × 2^qexp`. -/
def Num32.mant (a : Num32) : Nat := if a.expo = 0 then a.frac else a.frac + 2 ^ 23

/-- The exponent of the significand's unit. -/
def Num32.qexp (a : Num32) : Int := (max a.expo 1 : Nat) - 150

/-- The signed significand of a finite value. -/
def Num32.smant (a : Num32) : Int := if a.sign then -(a.mant : Int) else a.mant

/-- A pattern from its sign and its 31 magnitude bits. -/
def Num32.pack (neg : Bool) (mag : Nat) : Num32 := BitVec.ofNat 32 (mag + if neg then 2 ^ 31 else 0)

/-- The exponent `e` with `2^e ≤ num / den < 2^(e+1)`, for positive `num` and `den`. -/
def binExp (num den : Nat) : Int :=
  let g : Int := num.log2 - den.log2
  if den * 2 ^ g.toNat ≤ num * 2 ^ (-g).toNat then g else g - 1

/-- Quotient rounded to nearest, ties to even. -/
def roundDiv (num den : Nat) : Nat :=
  if den < 2 * (num % den) ∨ (den = 2 * (num % den) ∧ num / den % 2 = 1) then num / den + 1 else num / den

/-- The magnitude bits of `num / den` rounded to binary32, nearest even, with subnormals and with overflow to
infinity (R10). The unit of the last place is `2^q`; a carry out of the significand raises the exponent field. -/
def roundRatio (num den : Nat) : Nat :=
  if num = 0 then 0
  else
    let q : Int := max (binExp num den - 23) (-149)
    min infBits ((q + 149).toNat * 2 ^ 23 + roundDiv (num * 2 ^ (-q).toNat) (den * 2 ^ q.toNat))

/-- `num / den` rounded to binary32, with a sign. A zero `den` gives infinity (no rule divides by it, log 15). -/
def Num32.ofRatio (neg : Bool) (num den : Nat) : Num32 :=
  if den = 0 then Num32.pack neg infBits else Num32.pack neg (roundRatio num den)

/-- `±m × 2^q` rounded to binary32. -/
def Num32.ofDyadic (neg : Bool) (m : Nat) (q : Int) : Num32 :=
  Num32.ofRatio neg (m * 2 ^ q.toNat) (2 ^ (-q).toNat)

/-- The NaN an operation makes: some NaN pattern, its sign and payload a FREE VALUE (93 I16, log 3). -/
def Num32.nanOf (op : NumOp) (a b : Num32) : Num32 :=
  if Num32.isNaN (Config.freeNan op a b) then Config.freeNan op a b else 0x7FC00000

/-- `Num.neg`: flips the sign bit (R10). -/
def Num32.neg (a : Num32) : Num32 := a ^^^ 0x80000000#32

/-- `Num.abs`: clears the sign bit (R10). -/
def Num32.abs (a : Num32) : Num32 := a &&& 0x7FFFFFFF#32

/-- `Num.add` (R10). An exact zero sum is +0.0, but for two zeros of negative sign. -/
def Num32.add (a b : Num32) : Num32 :=
  if a.isNaN || b.isNaN then Num32.nanOf .add a b
  else if a.isInf then (if b.isInf && (a.sign != b.sign) then Num32.nanOf .add a b else a)
  else if b.isInf then b
  else
    let q := min a.qexp b.qexp
    let x : Int := a.smant * 2 ^ (a.qexp - q).toNat + b.smant * 2 ^ (b.qexp - q).toNat
    if x = 0 then Num32.pack (a.sign && b.sign) 0 else Num32.ofDyadic (decide (x < 0)) x.natAbs q

/-- `Num.sub` (R10). -/
def Num32.sub (a b : Num32) : Num32 :=
  if a.isNaN || b.isNaN || (a.isInf && b.isInf && (a.sign == b.sign)) then Num32.nanOf .sub a b
  else Num32.add a (Num32.neg b)

/-- `Num.mul` (R10). -/
def Num32.mul (a b : Num32) : Num32 :=
  if a.isNaN || b.isNaN || (a.isInf && b.isZero) || (a.isZero && b.isInf) then Num32.nanOf .mul a b
  else if a.isInf || b.isInf then Num32.pack (a.sign != b.sign) infBits
  else Num32.ofDyadic (a.sign != b.sign) (a.mant * b.mant) (a.qexp + b.qexp)

/-- `Num.div` (R10). -/
def Num32.div (a b : Num32) : Num32 :=
  if a.isNaN || b.isNaN || (a.isInf && b.isInf) || (a.isZero && b.isZero) then Num32.nanOf .div a b
  else if a.isInf || b.isZero then Num32.pack (a.sign != b.sign) infBits
  else if b.isInf then Num32.pack (a.sign != b.sign) 0
  else
    Num32.ofRatio (a.sign != b.sign) (a.mant * 2 ^ (a.qexp - b.qexp).toNat)
      (b.mant * 2 ^ (b.qexp - a.qexp).toNat)

/-- The place of a number that is not NaN in the order of the numbers; both zeros have place 0. -/
def Num32.orderKey (a : Num32) : Int :=
  if a.sign then -((a.toNat % 2 ^ 31 : Nat) : Int) else ((a.toNat % 2 ^ 31 : Nat) : Int)

/-- `Num.lt`: the ordered less-than, false where an operand is NaN (R10). -/
def Num32.lt (a b : Num32) : Bool := !a.isNaN && !b.isNaN && decide (a.orderKey < b.orderKey)

/-- `toNum` (R11): an integer rounded to binary32. -/
def Num32.ofInt (x : Int) : Num32 := Num32.pack (decide (x < 0)) (roundRatio x.natAbs 1)

/-- `truncInt` (R11): the integer part of a finite number, toward zero. -/
def Num32.truncInt (r : Num32) : Int :=
  let m : Nat := r.mant * 2 ^ r.qexp.toNat / 2 ^ (-r.qexp).toNat
  if r.sign then -(m : Int) else m

/-- `clamp(x, lo, hi)` on integers (R9). -/
def clampInt (x lo hi : Int) : Int := min (max x lo) hi

/-- `satTrunc32` (R11). -/
def Num32.satTrunc32 (r : Num32) : Word :=
  if r.isNaN then 0
  else if r.isInf then (if r.sign then BitVec.ofInt 32 (-2 ^ 31) else BitVec.ofInt 32 (2 ^ 31 - 1))
  else BitVec.ofInt 32 (clampInt r.truncInt (-2 ^ 31) (2 ^ 31 - 1))

/-- `decToNum(q)` (R11, 30_encoding.md R101) of `±mant × 10^exp`: the exact decimal rounded once. The two outer cases
are values beyond the range of binary32, told by their exponents so that no huge power is formed (log 16). -/
def Num32.ofDecimal (neg : Bool) (mant : Nat) (exp : Int) : Num32 :=
  if mant = 0 then Num32.pack neg 0
  else if 40 < exp then Num32.pack neg infBits
  else if exp + (mant.log2 + 1 : Nat) < -60 then Num32.pack neg 0
  else Num32.ofRatio neg (mant * 10 ^ exp.toNat) (10 ^ (-exp).toNat)

end Sys2Proof
end

