-- ==== Sys2Proof/Machine/Format.lean ====
section
/-! DEFINITION. The conversions of numbers to text: `%u`, `%d`, `%04X`, and `%f` of a binary32 value
(46_commands.md R271, R272). -/

namespace Sys2Proof

/-- The bytes of a string of ASCII characters. -/
def asc (s : String) : List Byte := s.toList.map fun c => BitVec.ofNat 8 c.toNat

/-- `%u`. -/
def fmtNat (n : Nat) : List Byte := natBytes n

/-- `%d`. -/
def fmtInt (x : Int) : List Byte := (if x < 0 then asc "-" else []) ++ natBytes x.natAbs

/-- An upper-case hex digit. -/
def hexByte (d : Nat) : Byte := BitVec.ofNat 8 (if d < 10 then 0x30 + d else 0x37 + d)

/-- `%04X` of a 16-bit value. -/
def fmtHex (w : Half) : List Byte :=
  [w.toNat / 4096 % 16, w.toNat / 256 % 16, w.toNat / 16 % 16, w.toNat % 16].map hexByte

/-- A finite number in millionths, rounded to nearest with ties to even (R272). -/
def millionths (r : Num32) : Nat :=
  roundDiv (r.mant * 2 ^ r.qexp.toNat * 10 ^ 6) (2 ^ (-r.qexp).toNat)

/-- Six decimal digits. -/
def sixDigits (n : Nat) : List Byte :=
  [n / 100000 % 10, n / 10000 % 10, n / 1000 % 10, n / 100 % 10, n / 10 % 10, n % 10].map digitByte

/-- `%f` (R272). -/
def fmtFloat (r : Num32) : List Byte :=
  (if r.sign then asc "-" else []) ++
    (if r.isNaN then asc "nan"
     else if r.isInf then asc "inf"
     else natBytes (millionths r / 10 ^ 6) ++ asc "." ++ sixDigits (millionths r % 10 ^ 6))

/-- A Boolean as 0 or 1. -/
def fmtBool (b : Bool) : List Byte := fmtNat (if b then 1 else 0)

end Sys2Proof
end

