-- ==== Sys2Proof/Machine/Num.lean ====
section
/-! DEFINITION. `Num`, the arithmetic that the parameter of that name selects (00_scope.md R7, R10), and the operations
the rules make of its own. -/

namespace Sys2Proof

/-- Binary32 as a record (R10, R11; `%f` by 46_commands.md R272). -/
def Num32.ops : NumOps where
  add := Num32.add
  sub := Num32.sub
  mul := Num32.mul
  div := Num32.div
  neg := Num32.neg
  abs := Num32.abs
  lt := Num32.lt
  isNaN := Num32.isNaN
  isZero := Num32.isZero
  ofRatio := Num32.ofRatio
  ofInt := Num32.ofInt
  ofDecimal := Num32.ofDecimal
  truncInt := Num32.truncInt
  satTrunc32 := Num32.satTrunc32
  render := fmtFloat

/-- The arithmetic of the parameter `Num` (R7, log 21). -/
def Config.arith (c : Config) : NumOps :=
  match c.num with
  | .binary32 => Num32.ops
  | .other k => Config.otherNum k

/-- `Num.gt(a, b) = Num.lt(b, a)` (R10). -/
def NumOps.gt (n : NumOps) (a b : Num32) : Bool := n.lt b a

/-- `decToNum(q)` (R11, 30_encoding.md R101). -/
def NumOps.decToNum (n : NumOps) (d : Decimal) : Num32 := n.ofDecimal d.neg d.mant d.exp

/-- `clampNum(v, lim)` (42_pid.md R146, R147): clamps to `[-lim, lim]`; a NaN limit clamps nothing. -/
def NumOps.clampNum (n : NumOps) (v lim : Num32) : Num32 :=
  let w := if n.gt v lim then lim else v
  if n.lt w (n.neg lim) then n.neg lim else w

end Sys2Proof
end

