-- ==== Sys2Proof/Machine/Image.lean ====
section
/-! DEFINITION. The persisted block image: fields, byte order, `image`, `parse`, the checksum
(20_memory.md R62 to R67, 45_param_store.md R221, R222). -/

namespace Sys2Proof

/-- The size of the block image (20_memory.md R60). -/
def imageSize : Nat := 50

/-- A 16-bit field in memory order: bits 7..0 at the lower offset (R64). -/
def le16 (w : Half) : List Byte := [w.extractLsb' 0 8, w.extractLsb' 8 8]

/-- A 32-bit field in memory order (R64). -/
def le32 (w : Word) : List Byte :=
  [w.extractLsb' 0 8, w.extractLsb' 8 8, w.extractLsb' 16 8, w.extractLsb' 24 8]

/-- The byte at an offset of an image. -/
def byteAt (img : List Byte) (o : Nat) : Byte := img.getD o 0

/-- The 16-bit field at an offset (R64). -/
def word16 (img : List Byte) (o : Nat) : Half := byteAt img (o + 1) ++ byteAt img o

/-- The 32-bit field at an offset (R64). -/
def word32 (img : List Byte) (o : Nat) : Word := word16 img (o + 2) ++ word16 img o

/-- Where `MemRead` and `MemWrite` are defined (R62). -/
def memDefined (addr n : Nat) : Bool :=
  (decide (n = 2) || decide (n = 4)) && decide (addr % n = 0) && decide (addr + n ≤ imageSize)

/-- `MemRead(addr, n)` (R62): none outside its domain, where no rule calls it. -/
def memRead (img : List Byte) (addr n : Nat) : Option Word :=
  if memDefined addr n then
    if n = 2 then some ((word16 img addr).setWidth 32) else some (word32 img addr)
  else none

/-- The bytes of `img` with those from `addr` on replaced by `bs`. -/
def replaceBytes (img : List Byte) (addr : Nat) : List Byte → List Byte
  | [] => img
  | b :: bs => replaceBytes (img.set addr b) (addr + 1) bs

/-- `MemWrite(addr, n, v)` (R62): none outside its domain, where no rule calls it. -/
def memWrite (img : List Byte) (addr n : Nat) (v : Word) : Option (List Byte) :=
  if memDefined addr n then
    if n = 2 then some (replaceBytes img addr (le16 (v.setWidth 16))) else some (replaceBytes img addr (le32 v))
  else none

/-- Bytes 0 to 47: registers 0 to 12 in layout order (R63). -/
def imageVals (v : ParamVals) : List Byte :=
  le32 v.pgain ++ le32 v.igain ++ le32 v.dgain ++ le32 v.ff0gain ++ le32 v.ff1gain ++ le32 v.deadband ++
    le32 v.maxOutput ++ le32 v.maxError ++ le32 v.maxIntegralError ++ le32 v.maxDerivError ++
    le32 v.maxCmdDeriv ++ le16 v.cmdMultiplier ++ le16 v.ticksPerServoCycle

/-- `image(P)` (R65). -/
def image (p : Params) : List Byte := imageVals p.toParamVals ++ le16 p.checksum

/-- `parse(img)` (R65): each register read back from its offset. -/
def parse (img : List Byte) : Params where
  pgain := word32 img 0
  igain := word32 img 4
  dgain := word32 img 8
  ff0gain := word32 img 12
  ff1gain := word32 img 16
  deadband := word32 img 20
  maxOutput := word32 img 24
  maxError := word32 img 28
  maxIntegralError := word32 img 32
  maxDerivError := word32 img 36
  maxCmdDeriv := word32 img 40
  cmdMultiplier := word16 img 44
  ticksPerServoCycle := word16 img 46
  checksum := word16 img 48

/-- `w_0 + … + w_(n-1)`, modulo 2^16 (R66, R221). -/
def wordSum (img : List Byte) : Nat → Half
  | 0 => 0
  | n + 1 => wordSum img n + word16 img (2 * n)

/-- `checksum(P)`: the negated sum of words 0 to 23 (R221). -/
def checksumOf (v : ParamVals) : Half := -wordSum (imageVals v) 24

/-- `checksumOK(img)` (R222). -/
def checksumOK (img : List Byte) : Bool := wordSum img 25 == 0

/-- A `Num` register of `P`. -/
def Params.getFloat (p : Params) : FloatReg → Num32
  | .pgain => p.pgain
  | .igain => p.igain
  | .dgain => p.dgain
  | .ff0gain => p.ff0gain
  | .ff1gain => p.ff1gain
  | .deadband => p.deadband
  | .maxOutput => p.maxOutput
  | .maxError => p.maxError
  | .maxIntegralError => p.maxIntegralError
  | .maxDerivError => p.maxDerivError
  | .maxCmdDeriv => p.maxCmdDeriv

/-- `P` with one `Num` register written. -/
def Params.setFloat (p : Params) (r : FloatReg) (v : Num32) : Params :=
  match r with
  | .pgain => { p with pgain := v }
  | .igain => { p with igain := v }
  | .dgain => { p with dgain := v }
  | .ff0gain => { p with ff0gain := v }
  | .ff1gain => { p with ff1gain := v }
  | .deadband => { p with deadband := v }
  | .maxOutput => { p with maxOutput := v }
  | .maxError => { p with maxError := v }
  | .maxIntegralError => { p with maxIntegralError := v }
  | .maxDerivError => { p with maxDerivError := v }
  | .maxCmdDeriv => { p with maxCmdDeriv := v }

/-- `P` with registers 0 to 12 at `DEFAULTS` and the checksum of them (70_reset_and_hazards.md R330). -/
def Params.ofDefaults (c : Config) : Params := ⟨c.defaults, checksumOf c.defaults⟩

end Sys2Proof
end

