-- ==== Sys2Proof/Machine/Width.lean ====
section
/-! DEFINITION. Integers of a width that is a parameter (00_scope.md R7 `ACC_W`, `CNT_W`, R9 `wrap_N`). -/

namespace Sys2Proof

/-- The two's-complement value, of `w` bits, congruent to `x` modulo `2^w` (R9 `wrap_N`, `s16`, `s32`). -/
def wrapS (w : Nat) (x : Int) : Accum := x.bmod (2 ^ w)

/-- The unsigned value of `w` bits congruent to `x`. -/
def wrapU (w : Nat) (x : Nat) : Count := x % 2 ^ w

/-- A value of a two's-complement register of `w` bits. -/
def fitsS (w : Nat) (x : Accum) : Bool := decide (-(2 : Int) ^ w ≤ 2 * x) && decide (2 * x < (2 : Int) ^ w)

/-- A value of an unsigned register of `w` bits. -/
def fitsU (w : Nat) (x : Count) : Bool := decide (x < 2 ^ w)

/-- A sum or difference in an `ACC_W`-bit register, wrapped (R9, 92_eei_decisions.md D4). -/
def Config.wrapAcc (c : Config) (x : Int) : Accum := wrapS c.accW x

end Sys2Proof
end

