-- ==== Sys2Proof/Machine/State.lean ====
section
/-! DEFINITION. The state of pid_ctrl (10_state.md), its events, and the state after reset
(70_reset_and_hazards.md R330, R331). -/

namespace Sys2Proof.Machine

/-- Which `DELAY` FG is in: each call has its argument and its place to return to (47_supervisor.md R291). -/
inductive DelaySite where
  /-- `DELAY(BLINK_T2)` in CFG_HOLD (R282). -/
  | blink
  /-- `DELAY(JERK_T2)` after the add (R286). -/
  | jerkAdded
  /-- `DELAY(JERK_T2)` after the subtract (R286). -/
  | jerkSubtracted
  /-- `DELAY(SETTLE_T2)` in ENABLE_RISE (R289). -/
  | settle
  deriving DecidableEq, Repr

/-- `FG.phase` (10_state.md R41): the label of the micro-step FG takes next. -/
inductive Phase where
  /-- `BOOT0` (47_supervisor.md R280). -/
  | boot0
  | boot1
  | boot2
  /-- `BOOT3`, `⟨img <- NvmLoad()⟩` (45_param_store.md R224). -/
  | loadImage
  /-- `BOOT3`, the write of one `Num` register. -/
  | loadFloat (r : FloatReg)
  | loadMultiplier
  | loadTicks
  | loadChecksum
  /-- `BOOT3`, `⟨FG.cfgMissing <- true⟩` and the raise. -/
  | loadMissing
  /-- `CFG_HOLD`, `⟨r <- L.ready⟩` (R282). -/
  | holdTest
  /-- `CFG_HOLD`, `⟨ind <- not ind⟩`. -/
  | holdToggle
  /-- `CFG_HOLD`, `⟨ind <- false⟩`. -/
  | holdIndOff
  /-- `CFG_HOLD`, `⟨FG.cfgMissing <- false⟩`. -/
  | holdDone
  /-- `DELAY`, `⟨D.delayCnt <- N⟩` (R291). -/
  | delayLoad (site : DelaySite)
  /-- `DELAY`, `⟨z <- (D.delayCnt = 0)⟩`. -/
  | delayTest (site : DelaySite)
  /-- `LOOP`, `⟨r <- L.ready⟩` (R284). -/
  | loop
  /-- `DISPATCH` (46_commands.md R240): the decoder reads `L.buf` and the command's first micro-step runs. -/
  | dispatch
  /-- Micro-step `k` of the command in progress, counted from 0. -/
  | command (k : Nat)
  /-- `LOOP`, `⟨jz <- (J is not ±0.0)⟩`. -/
  | jerkTest
  /-- `JERK`, `⟨go <- …⟩` (R286). -/
  | jerkGo
  /-- `JERK`, `⟨t <- S.cmdAcc⟩`, of the subtract or of the add. -/
  | jerkRead (subtract : Bool)
  /-- `JERK`, `⟨S.cmdAcc <- …⟩`. -/
  | jerkWrite (subtract : Bool)
  /-- `ENABLE_MIRROR`, `⟨lvl <- PortRead(en_i)⟩` (R288). -/
  | mirror
  /-- `ENABLE_RISE`, `⟨S.enabled <- true⟩` (R289). -/
  | riseSet
  | riseEmit
  /-- `ENABLE_FALL`, `⟨S.enabled <- false⟩` (R290). -/
  | fallSet
  | fallEmit
  deriving DecidableEq, Repr

/-- The foreground context: its phase, its local values (10_state.md R41) and `FG.cfgMissing` (R44). -/
@[ext]
structure Foreground where
  phase : Phase
  /-- The decoded line. -/
  instr : Instr
  /-- The jerk integer of 47_supervisor.md R286. -/
  jI : Word
  /-- The value read for a read-modify-write (R287). -/
  t : Accum
  /-- The sampled enable level (R288). -/
  lvl : Bool
  /-- The image `NvmLoad` gave (45_param_store.md R224). -/
  img : List Byte
  /-- `v` of the command `e` (46_commands.md R257). -/
  fbSample : Count
  /-- `e`, `I`, `D`, `o`, `lim`, `flt`, `mx` of the command `s` (R260). -/
  statError : Accum
  statIntegral : Num32
  statDerivative : Num32
  statOutput : Num32
  statLimit : Bool
  statFault : Bool
  statMax : Count
  cfgMissing : Bool
  deriving DecidableEq, Repr

/-- The controller-state registers `S` (10_state.md R30). Those of `ACC_W` bits are held by their value (log 24). -/
@[ext]
structure Control where
  cmdAcc : Accum
  fbAcc : Accum
  prevCommand : Accum
  error : Accum
  errorIntegral : Num32
  prevError : Accum
  errorDerivative : Num32
  commandDerivative : Num32
  output : Num32
  enabled : Bool
  inLimit : Bool
  maxObservedError : Count
  fault : Bool
  deriving DecidableEq, Repr

/-- The tracker and scheduler state `T` (10_state.md R40). The last samples have `CNT_W` bits (log 24). -/
@[ext]
structure Tracker where
  lastCmdRaw : Count
  lastFbRaw : Count
  cycleCount : Half
  prevEnabled : Bool
  deriving DecidableEq, Repr

/-- A text output event (46_commands.md R270). -/
inductive TxEvent where
  | dump (p : Params)
  | help
  | feedback (v : Count)
  | stat (e : Accum) (iterm dterm out : Num32) (lim flt : Bool) (mx : Count)
  | prompt
  | enabled
  | disabled
  deriving DecidableEq, Repr

/-- An entry of the exception log: the exception and its `info` (60_exceptions.md R300). -/
inductive Exc where
  | cfgIntegrity (img : List Byte)
  | positionFault (e : Accum)
  /-- The first byte of the line, none for `EMPTY`. -/
  | malformedCmd (first : Option Byte)
  | fatalEnv
  deriving DecidableEq, Repr

/-- A write to a duty port, in the order the writes are made (43_scheduler.md R177). -/
inductive DutyWrite where
  | pos (v : Half)
  | neg (v : Half)
  deriving DecidableEq, Repr

/-- An event the environment presents (10_state.md R20, 60_exceptions.md R310, R312), or the turn of FG. -/
inductive Event where
  /-- `rst_i`. -/
  | reset
  /-- `env_fault_i`. -/
  | envFault
  /-- `tick_i`. -/
  | tick
  /-- `tick2_i`. -/
  | tick2
  /-- `line_i` with its bytes. -/
  | line (bytes : List Byte)
  /-- The level of `cmd_cnt_i` changes, to `v` modulo its width. -/
  | cmdCnt (v : Count)
  /-- The level of `fb_cnt_i` changes, to `v` modulo its width. -/
  | fbCnt (v : Count)
  /-- The level of `en_i` changes. -/
  | en (v : Bool)
  /-- The next FG micro-step. -/
  | fg
  deriving DecidableEq, Repr

/-- The persisted image's store: (offset, byte) pairs, offsets strictly rising; an offset that is not listed
was never saved (20_memory.md R61, log 4). -/
abbrev Memory := List Host.Cell

/-- Everything 10_state.md gives the block, with the input levels, the persisted image and the outputs; and the
model's own `cfg` (log 1) and `script` (log 5). -/
@[ext]
structure State where
  /-- Parameters and options (00_scope.md R7, R8). -/
  cfg : Config
  /-- The parameter register file `P` (R22). -/
  par : Params
  /-- The jerk register `J` (R28). -/
  jerk : Num32
  /-- The registers `S` (R30). -/
  ctl : Control
  /-- The registers `T` (R40). -/
  trk : Tracker
  fg : Foreground
  /-- `D.delayCnt` (R42). -/
  delayCnt : Half
  /-- `L.ready` (R43). -/
  lineReady : Bool
  /-- `L.buf` (R43). -/
  lineBuf : List Byte
  /-- R45. -/
  ind : Bool
  /-- R46. -/
  isrOn : Bool
  /-- `H.halted` (R48). -/
  halted : Bool
  /-- `pwm_pos` (R36). -/
  pwmPos : Half
  /-- `pwm_neg` (R36). -/
  pwmNeg : Half
  /-- The duty port events, oldest first (43_scheduler.md R177). -/
  dutyTrace : List DutyWrite
  /-- `tx_o` (R47), oldest first. -/
  tx : List TxEvent
  /-- `XLOG` (60_exceptions.md R300), oldest first. -/
  xlog : List Exc
  /-- The persisted image (20_memory.md R61). -/
  nvm : Memory
  /-- The level of `cmd_cnt_i` (R20). -/
  cmdCnt : Count
  /-- The level of `fb_cnt_i`. -/
  fbCnt : Count
  /-- The level of `en_i`. -/
  enIn : Bool
  /-- What the environment presents: the head is the group of events of the present instant. -/
  script : List (List Event)
  deriving DecidableEq, Repr

/-- No rule of the block stops it (60_exceptions.md R305, R307): the model has no fault. -/
inductive Fault where
  deriving DecidableEq, Repr

/-- Why a step is refused. -/
inductive Refusal where
  /-- An instruction without a meaning; no arm of `exec` raises it. Safe. -/
  | notModelled (mnemonic : String)
  /-- Raised by the step on a `line_i` event while a line is pending: 10_state.md R43 gives such a delivery no
  move, and 93_implementation_defined.md I18 treats it as `refuse` (log 7). Safe. -/
  | lineWhilePending
  /-- Raised by the step on a `line_i` event with more than LINE_MAX bytes: not delivered (30_encoding.md R90,
  93 I19, log 7). Safe. -/
  | lineTooLong
  deriving DecidableEq, Repr

/-- The outcome of a step of this machine. -/
abbrev Outcome := Host.Outcome State Fault Refusal

/-- FG at `BOOT0`. DESIGN CHOICE (log 14): the spec gives the local values no reset value; they are zero. -/
def Foreground.atBoot : Foreground where
  phase := .boot0
  instr := .help none
  jI := 0
  t := 0
  lvl := false
  img := []
  fbSample := 0
  statError := 0
  statIntegral := 0
  statDerivative := 0
  statOutput := 0
  statLimit := false
  statFault := false
  statMax := 0
  cfgMissing := false

/-- The reset values of `S` (10_state.md R30). -/
def Control.atReset : Control where
  cmdAcc := 0
  fbAcc := 0
  prevCommand := 0
  error := 0
  errorIntegral := 0
  prevError := 0
  errorDerivative := 0
  commandDerivative := 0
  output := 0
  enabled := false
  inLimit := false
  maxObservedError := 0
  fault := false

/-- The reset values of `T` (10_state.md R40). -/
def Tracker.atReset : Tracker where
  lastCmdRaw := 0
  lastFbRaw := 0
  cycleCount := 0
  prevEnabled := false

/-- The machine right after reset (R330, R331) of a device that was never saved. DESIGN CHOICE: the test instance
of the open parameters (log 1, log 2), the input levels 0, 0 and false (log 8), an empty script (log 5) and an
empty port trace (log 13). -/
def State.reset : State where
  cfg := Config.testInst
  par := Params.ofDefaults Config.testInst
  jerk := 0
  ctl := Control.atReset
  trk := Tracker.atReset
  fg := Foreground.atBoot
  delayCnt := 0
  lineReady := false
  lineBuf := []
  ind := false
  isrOn := false
  halted := false
  pwmPos := 0
  pwmNeg := 0
  dutyTrace := []
  tx := []
  xlog := []
  nvm := []
  cmdCnt := 0
  fbCnt := 0
  enIn := false
  script := []

end Sys2Proof.Machine
end

