-- ==== Sys2Proof/Machine/Ops.lean ====
section
/-! DEFINITION. The named operations: the persisted image's store, register and port access, text output, raising
an exception and the halt entry, and the running of a command's micro-steps. -/

namespace Sys2Proof.Machine

/-! ## Parameters -/

/-- The arithmetic `Num` of this machine (00_scope.md R7). -/
def State.num (s : State) : NumOps := s.cfg.arith

/-- Every register of a width of R7 holds a value of that width: the accumulators, the errors, the previous command and
the foreground's copies of them in `ACC_W` bits, the raw counters and their samples in `CNT_W` bits. -/
def State.inWidths (s : State) : Bool :=
  [s.ctl.cmdAcc, s.ctl.fbAcc, s.ctl.prevCommand, s.ctl.error, s.ctl.prevError, s.fg.t, s.fg.statError].all
      (fitsS s.cfg.accW) &&
    [s.ctl.maxObservedError, s.fg.statMax].all (fitsU s.cfg.accW) &&
    [s.trk.lastCmdRaw, s.trk.lastFbRaw, s.cmdCnt, s.fbCnt, s.fg.fbSample].all (fitsU s.cfg.cntW)

/-! ## The persisted image -/

/-- The byte saved at an offset; none where nothing was ever saved. -/
def Memory.read : Memory → Nat → Option Byte
  | [], _ => none
  | c :: m, a => if c.1 = a then some c.2 else Memory.read m a

/-- A byte saved at an offset; the offsets stay strictly rising. -/
def Memory.write : Memory → Nat → Byte → Memory
  | [], a, b => [(a, b)]
  | c :: m, a, b =>
    if a < c.1 then (a, b) :: c :: m
    else if c.1 = a then (a, b) :: m
    else c :: Memory.write m a b

/-- Bytes saved at rising offsets from `a` on. (Irreducible, so that a proof reads a saved image through its lemmas
only.) -/
@[irreducible] def Memory.writeBytes : Memory → Nat → List Byte → Memory
  | m, _, [] => m
  | m, a, b :: bs => Memory.writeBytes (Memory.write m a b) (a + 1) bs

/-- The offsets are strictly rising, from `lo` on, and below the image's size. -/
def Memory.risesFrom : Nat → Memory → Bool
  | _, [] => true
  | lo, c :: m => decide (lo ≤ c.1) && decide (c.1 < imageSize) && Memory.risesFrom (c.1 + 1) m

/-- The canonical form of the store. An offset that is not listed holds no value, so no entry can equal it. -/
def Memory.wf (m : Memory) : Bool := Memory.risesFrom 0 m

/-- What the service answers for one offset: the byte saved last, or the free byte of a device that was never
saved (20_memory.md R61, 93 I15). -/
def State.nvmByte (s : State) (a : Nat) : Byte := (Memory.read s.nvm a).getD (Config.freshNvmByte a)

/-- `NvmLoad()`: the whole image of the last save (20_memory.md R70). -/
def State.nvmLoad (s : State) : List Byte := (List.range imageSize).map s.nvmByte

/-- `NvmSave(img)`: one micro-step that always completes (20_memory.md R70). -/
def State.nvmSave (img : List Byte) (s : State) : State := { s with nvm := Memory.writeBytes s.nvm 0 img }

/-! ## Registers -/

/-- `P.<r> <- v` for a `Num` register. -/
def State.writeFloat (r : FloatReg) (v : Num32) (s : State) : State := { s with par := s.par.setFloat r v }

/-- `P.cmdMultiplier <- v`. -/
def State.writeMultiplier (v : Half) (s : State) : State := { s with par := { s.par with cmdMultiplier := v } }

/-- `P.ticksPerServoCycle <- v`. -/
def State.writeTicks (v : Half) (s : State) : State := { s with par := { s.par with ticksPerServoCycle := v } }

/-- `P.checksum <- checksum(P)` (45_param_store.md R225). -/
def State.writeChecksum (s : State) : State :=
  { s with par := { s.par with checksum := checksumOf s.par.toParamVals } }

/-- `NvmSave(image(P))` (R225). -/
def State.saveImage (s : State) : State := s.nvmSave (image s.par)

/-- `pc <- target`: FG's next micro-step (00_scope.md R12). -/
def State.goto (p : Phase) (s : State) : State := { s with fg := { s.fg with phase := p } }

/-! ## Ports -/

/-- The output ports, each showing its register at all times (10_state.md R20). -/
structure Outputs where
  pwmPosO : Half
  pwmNegO : Half
  faultO : Bool
  indO : Bool
  txO : List TxEvent
  deriving DecidableEq, Repr

/-- What the output ports show. -/
def State.outputs (s : State) : Outputs where
  pwmPosO := s.pwmPos
  pwmNegO := s.pwmNeg
  faultO := s.ctl.fault
  indO := s.ind
  txO := s.tx

/-- `pwm_pos <- v`, with its port event (43_scheduler.md R177, log 13). -/
def State.drivePos (v : Half) (s : State) : State :=
  { s with pwmPos := v, dutyTrace := s.dutyTrace ++ [.pos v] }

/-- `pwm_neg <- v`, with its port event. -/
def State.driveNeg (v : Half) (s : State) : State :=
  { s with pwmNeg := v, dutyTrace := s.dutyTrace ++ [.neg v] }

/-- `Emit(ev)` (46_commands.md R270). -/
def State.emit (ev : TxEvent) (s : State) : State := { s with tx := s.tx ++ [ev] }

/-! ## Exceptions -/

/-- The code of an exception (60_exceptions.md R300). -/
def Exc.code : Exc → Nat
  | .cfgIntegrity _ => 1
  | .positionFault _ => 2
  | .malformedCmd _ => 3
  | .fatalEnv => 4

/-- `raise E(info)`: appends to XLOG and transfers no control (60_exceptions.md R300). Nothing is saved, so there
is no return from it (R315, R316). -/
def State.raise (e : Exc) (s : State) : State := { s with xlog := s.xlog ++ [e] }

/-- The halt entry (60_exceptions.md R306). It is left by reset alone (R48). -/
def State.haltEntry (s : State) : State :=
  let s := s.raise .fatalEnv
  let s := ({ s with halted := true }).drivePos 0
  let s := s.driveNeg 0
  { s with isrOn := false }

/-! ## Running a command -/

/-- A command's body: the micro-steps from its first register access to its last register write, which
OPT_ATOMIC_CMD makes one, and the micro-steps after them (46_commands.md R243). -/
structure Body where
  span : List (State → State)
  rest : List (State → State)

/-- Micro-steps made one atomic micro-step. -/
def fuse : List (State → State) → List (State → State)
  | [] => []
  | fs => [fun s => fs.foldl (fun t f => f t) s]

/-- The micro-steps of a body under the option (R243). -/
def Body.microSteps (c : Config) (b : Body) : List (State → State) :=
  (if c.optAtomicCmd then fuse b.span else b.span) ++ b.rest

/-- `Emit(Dump(P))`: `P` is read in that micro-step (R270). -/
def State.emitDump (s : State) : State := s.emit (.dump s.par)

/-- `⟨L.ready <- false⟩` (R269). -/
def State.lineReset (s : State) : State := { s with lineReady := false }

/-- Which commands end with the dump of R241: every recognized one but SETJ, and LIST, which emits its own. -/
def epilogueDumps : Instr → Bool
  | .setp _ | .seti _ | .setd _ | .setff0 _ | .setff1 _ | .setb _ | .setm _ | .setf _ | .setx _ | .sett _ => true
  | .setj _ => false
  | .rdfb => true
  | .list => false
  | .stat => true
  | .zero => true
  | .help _ => false

/-- `EPILOGUE(mn)` (R241). -/
def epilogue (i : Instr) : List (State → State) :=
  (if epilogueDumps i then [State.emitDump] else []) ++ [State.lineReset, State.emit .prompt]

/-- Which micro-step of its command FG takes next; the first where no command is in progress. -/
def State.microIndex (s : State) : Nat :=
  match s.fg.phase with
  | .command k => k
  | _ => 0

/-- FG's phase after micro-step `k` of `n` of the command `i`, which stays in FG's locals; after the last one LOOP
goes on with the jerk test (47_supervisor.md R284). -/
def State.afterMicro (i : Instr) (n k : Nat) (s : State) : State :=
  { s with fg := { s.fg with phase := if k + 1 < n then .command (k + 1) else .jerkTest, instr := i } }

/-- The micro-step of the command `i` that FG takes next: of its body, then of its epilogue (46_commands.md R240).
One call is one micro-step (log 11). -/
def runCommand (i : Instr) (b : Body) (s : State) : Outcome :=
  let steps := b.microSteps s.cfg ++ epilogue i
  match steps[s.microIndex]? with
  | some f => .next ((f s).afterMicro i steps.length s.microIndex)
  | none => .next (s.goto .jerkTest)

end Sys2Proof.Machine
end

