-- ==== Sys2Proof/Machine/DiagCommands.lean ====
section
/-! DEFINITION. The diagnostic and action commands (46_commands.md R257 to R262). -/

namespace Sys2Proof.Machine

/-- `⟨v <- PortRead(fb_cnt_i)⟩` (R257): the port itself. -/
def State.sampleFeedback (s : State) : State := { s with fg := { s.fg with fbSample := s.fbCnt } }

/-- `Emit(Feedback(v))`. -/
def State.emitFeedback (s : State) : State := s.emit (.feedback s.fg.fbSample)

/-- `RDFB` (R257). -/
def execRdfb (s : State) : Outcome := runCommand .rdfb ⟨[State.sampleFeedback], [State.emitFeedback]⟩ s

/-- `LIST` (R258): its own dump; the epilogue makes no second one. -/
def execList (s : State) : Outcome := runCommand .list ⟨[], [State.emitDump]⟩ s

/-- The seven reads of `STAT` and its reset of the maximum, in the order of R260. -/
def statSpan : List (State → State) :=
  [ fun s => { s with fg := { s.fg with statError := s.ctl.error } },
    fun s => { s with fg := { s.fg with statIntegral := s.ctl.errorIntegral } },
    fun s => { s with fg := { s.fg with statDerivative := s.ctl.errorDerivative } },
    fun s => { s with fg := { s.fg with statOutput := s.ctl.output } },
    fun s => { s with fg := { s.fg with statLimit := s.ctl.inLimit } },
    fun s => { s with fg := { s.fg with statFault := s.ctl.fault } },
    fun s => { s with fg := { s.fg with statMax := s.ctl.maxObservedError } },
    fun s => { s with ctl := { s.ctl with maxObservedError := 0 } } ]

/-- `Emit(Stat(e, P.igain * I, P.dgain * D, o, lim, flt, mx))` (R260). -/
def State.emitStat (s : State) : State :=
  s.emit (.stat s.fg.statError (s.num.mul s.par.igain s.fg.statIntegral)
    (s.num.mul s.par.dgain s.fg.statDerivative) s.fg.statOutput s.fg.statLimit s.fg.statFault s.fg.statMax)

/-- `STAT` (R260). -/
def execStat (s : State) : Outcome := runCommand .stat ⟨statSpan, [State.emitStat]⟩ s

/-- The three writes of `ZERO`, in the order of R261. -/
def zeroSpan : List (State → State) :=
  [ fun s => { s with ctl := { s.ctl with cmdAcc := 0 } },
    fun s => { s with ctl := { s.ctl with fbAcc := 0 } },
    fun s => { s with ctl := { s.ctl with error := 0 } } ]

/-- `ZERO` (R261). -/
def execZero (s : State) : Outcome := runCommand .zero ⟨zeroSpan, []⟩ s

/-- `Emit(Help)` with the record of MALFORMED_CMD (R262, 60_exceptions.md R303, log 10). -/
def State.emitHelp (first : Option Byte) (s : State) : State := (s.raise (.malformedCmd first)).emit .help

/-- `HELP` (R262). -/
def execHelp (first : Option Byte) (s : State) : Outcome :=
  runCommand (.help first) ⟨[], [State.emitHelp first]⟩ s

end Sys2Proof.Machine
end

