-- ==== Sys2Proof/Machine/Operands.lean ====
section
/-! DEFINITION. The operands of the commands: an exact decimal as a `Num` (30_encoding.md R101) and as an integer
(R102), register addressing by letter (R96), and the shared bodies SETREG and SETINT (46_commands.md R242, R253). -/

namespace Sys2Proof.Machine

/-- `truncInt_exact(q)` (30_encoding.md R102): the integer part of `s × M × 10^E`, toward zero. -/
def truncIntExact (d : Decimal) : Int :=
  let m : Nat := d.mant * 10 ^ d.exp.toNat / 10 ^ (-d.exp).toNat
  if d.neg then -(m : Int) else m

/-- The same decimal with its exponent kept within bounds beyond which the clamps of `x` and `t` do not see it: at
most 9, and at least so low that the integer part is 0 (log 16). -/
def limitExp (d : Decimal) : Decimal :=
  { d with exp := max (min d.exp 9) (-(d.mant.log2 + 1 : Nat)) }

/-- `clamp(k, lo, hi)` of the operand `k` (46_commands.md R253). -/
def clampOperand (d : Decimal) (lo hi : Int) : Half :=
  BitVec.ofInt 16 (clampInt (truncIntExact (limitExp d)) lo hi)

/-- A register that a command letter addresses (30_encoding.md R96). -/
inductive LetterReg where
  | float (r : FloatReg)
  | multiplier
  | ticks
  | jerk
  deriving DecidableEq, Repr

/-- The register of a letter (R96). -/
def letterReg (b : Byte) : Option LetterReg :=
  [ ((0x70 : Byte), LetterReg.float .pgain), (0x69, .float .igain), (0x64, .float .dgain),
    (0x30, .float .ff0gain), (0x31, .float .ff1gain), (0x62, .float .deadband), (0x6D, .float .maxOutput),
    (0x66, .float .maxError), (0x78, .multiplier), (0x74, .ticks), (0x6A, .jerk) ].lookup b

/-- `SETREG(c, v)` (46_commands.md R242): where the value is present, write, then SAVE (45_param_store.md R225); an
absent value writes nothing (R244). -/
def setReg (n : NumOps) (r : FloatReg) : Option Decimal → Body
  | none => ⟨[], []⟩
  | some d => ⟨[State.writeFloat r (n.decToNum d), State.writeChecksum], [State.saveImage]⟩

/-- `SETINT(c, k, lo, hi)` (R253) with the write of its register. -/
def setInt (write : Half → State → State) (lo hi : Int) : Option Decimal → Body
  | none => ⟨[], []⟩
  | some d => ⟨[write (clampOperand d lo hi), State.writeChecksum], [State.saveImage]⟩

end Sys2Proof.Machine
end

