-- ==== Sys2Proof/Machine/ParamCommands.lean ====
section
/-! DEFINITION. The parameter commands (46_commands.md R245 to R256). -/

namespace Sys2Proof.Machine

/-- `SETP` (R245): `SETREG('p', v)`. -/
def execSetp (q : Option Decimal) (s : State) : Outcome := runCommand (.setp q) (setReg s.num .pgain q) s

/-- `⟨S.errorIntegral <- +0.0⟩`, the first micro-step of `SETI` (R246). -/
def State.zeroIntegral (s : State) : State := { s with ctl := { s.ctl with errorIntegral := 0 } }

/-- The body of `SETI` (R246): the integral is zeroed before the gain is written. -/
def setiBody (n : NumOps) : Option Decimal → Body
  | none => ⟨[], []⟩
  | some d =>
    ⟨[State.zeroIntegral, State.writeFloat .igain (n.decToNum d), State.writeChecksum], [State.saveImage]⟩

/-- `SETI` (R246). -/
def execSeti (q : Option Decimal) (s : State) : Outcome := runCommand (.seti q) (setiBody s.num q) s

/-- `SETD` (R247): `SETREG('d', v)`. -/
def execSetd (q : Option Decimal) (s : State) : Outcome := runCommand (.setd q) (setReg s.num .dgain q) s

/-- `SETFF0` (R248): `SETREG('0', v)`. -/
def execSetff0 (q : Option Decimal) (s : State) : Outcome := runCommand (.setff0 q) (setReg s.num .ff0gain q) s

/-- `SETFF1` (R249): `SETREG('1', v)`. -/
def execSetff1 (q : Option Decimal) (s : State) : Outcome := runCommand (.setff1 q) (setReg s.num .ff1gain q) s

/-- `SETB` (R250): `SETREG('b', v)`. -/
def execSetb (q : Option Decimal) (s : State) : Outcome := runCommand (.setb q) (setReg s.num .deadband q) s

/-- `SETM` (R251): `SETREG('m', v)`. -/
def execSetm (q : Option Decimal) (s : State) : Outcome := runCommand (.setm q) (setReg s.num .maxOutput q) s

/-- `SETF` (R252): `SETREG('f', v)`, the duty-scale divisor. -/
def execSetf (q : Option Decimal) (s : State) : Outcome := runCommand (.setf q) (setReg s.num .maxError q) s

/-- `SETX` (R254): `SETINT('x', k, 1, 22)`. -/
def execSetx (q : Option Decimal) (s : State) : Outcome :=
  runCommand (.setx q) (setInt State.writeMultiplier 1 22 q) s

/-- `SETT` (R255): `SETINT('t', k, 1, 100)`; `T.cycleCount` is not reset. -/
def execSett (q : Option Decimal) (s : State) : Outcome :=
  runCommand (.sett q) (setInt State.writeTicks 1 100 q) s

/-- `⟨J <- v⟩`. -/
def State.writeJerk (v : Num32) (s : State) : State := { s with jerk := v }

/-- The body of `SETJ` (R256): not persisted. -/
def setjBody (n : NumOps) : Option Decimal → Body
  | none => ⟨[], []⟩
  | some d => ⟨[State.writeJerk (n.decToNum d)], []⟩

/-- `SETJ` (R256). -/
def execSetj (q : Option Decimal) (s : State) : Outcome := runCommand (.setj q) (setjBody s.num q) s

end Sys2Proof.Machine
end

