-- ==== Sys2Proof/Machine/Dispatch.lean ====
section
/-! DEFINITION. One arm per command: the micro-step of it that FG takes next (46_commands.md R240). -/

namespace Sys2Proof.Machine

/-- The meaning of a command at a state. -/
def exec (i : Instr) (s : State) : Host.Outcome State Fault Refusal :=
  match i with
  | .setp q => Sys2Proof.Machine.execSetp q s
  | .seti q => Sys2Proof.Machine.execSeti q s
  | .setd q => Sys2Proof.Machine.execSetd q s
  | .setff0 q => Sys2Proof.Machine.execSetff0 q s
  | .setff1 q => Sys2Proof.Machine.execSetff1 q s
  | .setb q => Sys2Proof.Machine.execSetb q s
  | .setm q => Sys2Proof.Machine.execSetm q s
  | .setf q => Sys2Proof.Machine.execSetf q s
  | .setx q => Sys2Proof.Machine.execSetx q s
  | .sett q => Sys2Proof.Machine.execSett q s
  | .setj q => Sys2Proof.Machine.execSetj q s
  | .rdfb => Sys2Proof.Machine.execRdfb s
  | .list => Sys2Proof.Machine.execList s
  | .stat => Sys2Proof.Machine.execStat s
  | .zero => Sys2Proof.Machine.execZero s
  | .help first => Sys2Proof.Machine.execHelp first s

end Sys2Proof.Machine
end

