-- ==== Sys2Proof/Machine/Flags.lean ====
section
/-! DEFINITION. The conditions behind the block's flags: `S.fault` (42_pid.md R151), `S.inLimit` with the duty
magnitude and direction (43_scheduler.md R176), and the test of the jerk register (47_supervisor.md R285). -/

namespace Sys2Proof.Machine

/-- `abs_int(x)` (00_scope.md R9). -/
def absInt (x : Accum) : Nat := x.natAbs

/-- `thr` of 42_pid.md R151. -/
def State.faultThreshold (s : State) : Num32 :=
  match s.cfg.optFaultLimit with
  | .maxOutput => s.par.maxOutput
  | .maxError => s.par.maxError

/-- The condition of POSITION_FAULT (42_pid.md R151, 60_exceptions.md R302), on the raw error. -/
def State.positionFault (s : State) : Bool :=
  s.num.gt (s.num.ofInt (absInt s.ctl.error)) s.faultThreshold

/-- `a` of 43_scheduler.md R176: the magnitude of the output scaled by `DUTY_SCALE / maxError`. -/
def State.dutyScaled (s : State) : Num32 :=
  s.num.abs (s.num.mul s.ctl.output (s.num.div (s.num.ofInt s.cfg.dutyScale) s.par.maxError))

/-- `toNum(DUTY_CAP)`. -/
def State.dutyCapNum (s : State) : Num32 := s.num.ofInt s.cfg.dutyCap.toNat

/-- The value `MAP` writes to `S.inLimit` (R176): strictly above the cap; a NaN is not (10_state.md R34). -/
def State.dutyInLimit (s : State) : Bool :=
  if s.num.isNaN s.dutyScaled then false else s.num.gt s.dutyScaled s.dutyCapNum

/-- `mag` of R176. -/
def State.dutyMag (s : State) : Half :=
  if s.num.isNaN s.dutyScaled then 0
  else if s.num.gt s.dutyScaled s.dutyCapNum then s.cfg.dutyCap
  else BitVec.ofInt 16 (s.num.truncInt s.dutyScaled)

/-- `dir` of R176. -/
inductive Direction where
  | pos
  | neg
  | none
  deriving DecidableEq, Repr

/-- The direction follows the unscaled output; both zeros and NaN have none (R176). -/
def State.dutyDir (s : State) : Direction :=
  if s.num.gt s.ctl.output 0 then .pos
  else if s.num.lt s.ctl.output 0 then .neg
  else .none

/-- `J` is not ±0.0 (47_supervisor.md R284, R285). -/
def State.jerkIsSet (s : State) : Bool := !s.num.isZero s.jerk

end Sys2Proof.Machine
end

