-- ==== Sys2Proof/Machine/Pid.lean ====
section
/-! DEFINITION. The PID engine (42_pid.md R140 to R154): one definition per step of the source's order. -/

namespace Sys2Proof.Machine

/-- `periodNs` (R141). `P.ticksPerServoCycle` is read unsigned, as the gate reads it (log 15). -/
def State.periodNs (s : State) : Nat := s.par.ticksPerServoCycle.toNat * s.cfg.tSubNs

/-- `periodS`: the exact rational rounded once (R141). -/
def State.periodS (s : State) : Num32 := s.num.ofRatio false s.periodNs (10 ^ 9)

/-- `invPeriodS`: the exact rational rounded once (R141). -/
def State.invPeriodS (s : State) : Num32 := s.num.ofRatio false (10 ^ 9) s.periodNs

/-- Step 2 (R142). -/
def State.pidError (s : State) : State :=
  { s with ctl := { s.ctl with error := s.cfg.wrapAcc (s.ctl.cmdAcc - s.ctl.fbAcc) } }

/-- `eUse`: the error that steps 4 to 7 use (R142), with the optional deadband (R143). -/
def State.errorUsed (s : State) : Accum :=
  if s.cfg.optDeadband && s.num.lt (s.num.ofInt (absInt s.ctl.error)) s.par.deadband then 0 else s.ctl.error

/-- Step 3 (R144), unsigned: both values fit the register (10_state.md R35). -/
def State.pidMaxError (s : State) : State :=
  { s with ctl := { s.ctl with
      maxObservedError := max s.ctl.maxObservedError (absInt s.ctl.error) } }

/-- Step 4 (R145): the product is rounded, then the sum; with the optional clamp (R146). -/
def State.pidIntegral (s : State) : State :=
  let i := s.num.add s.ctl.errorIntegral (s.num.mul (s.num.ofInt s.errorUsed) s.periodS)
  { s with ctl := { s.ctl with
      errorIntegral := if s.cfg.optIntClamp then s.num.clampNum i (s.num.abs s.par.maxIntegralError) else i } }

/-- Step 5 (R147): the difference is taken with wrap before conversion. -/
def State.pidErrorDerivative (s : State) : State :=
  let d := s.num.mul (s.num.ofInt (s.cfg.wrapAcc (s.errorUsed - s.ctl.prevError))) s.invPeriodS
  { s with ctl := { s.ctl with
      errorDerivative := if s.cfg.optDerivClamp then s.num.clampNum d (s.num.abs s.par.maxDerivError) else d
      prevError := s.errorUsed } }

/-- Step 6 (R148, R149). -/
def State.pidCommandDerivative (s : State) : State :=
  let d := s.num.mul (s.num.ofInt (s.cfg.wrapAcc (s.ctl.cmdAcc - s.ctl.prevCommand))) s.invPeriodS
  { s with ctl := { s.ctl with
      commandDerivative := if s.cfg.optDerivClamp then s.num.clampNum d (s.num.abs s.par.maxCmdDeriv) else d
      prevCommand := s.ctl.cmdAcc } }

/-- The sum of step 7 (R150): each product rounded, the sums rounded left to right. -/
def State.pidSum (s : State) : Num32 :=
  let o := s.num.mul s.par.pgain (s.num.ofInt s.errorUsed)
  let o := s.num.add o (s.num.mul s.par.igain s.ctl.errorIntegral)
  let o := s.num.add o (s.num.mul s.par.dgain s.ctl.errorDerivative)
  let o := s.num.add o (s.num.mul s.par.ff0gain (s.num.ofInt s.ctl.cmdAcc))
  s.num.add o (s.num.mul s.par.ff1gain s.ctl.commandDerivative)

/-- Step 7 (R150), with the optional clamp. -/
def State.pidOutput (s : State) : State :=
  { s with ctl := { s.ctl with
      output := if s.cfg.optOutClamp then s.num.clampNum s.pidSum (s.num.abs s.par.maxOutput) else s.pidSum } }

/-- Step 8 (R151): latches the fault and records it; it never clears the latch. -/
def State.pidFault (s : State) : State :=
  if s.positionFault then
    ({ s with ctl := { s.ctl with fault := true } }).raise (.positionFault s.ctl.error)
  else s

/-- `PID` (R152): the steps in order, each reading what the earlier ones wrote. -/
def State.pid (s : State) : State :=
  s.pidError.pidMaxError.pidIntegral.pidErrorDerivative.pidCommandDerivative.pidOutput.pidFault

end Sys2Proof.Machine
end

