-- ==== Sys2Proof/Machine/Tracker.lean ====
section
/-! DEFINITION. The position tracker: TRACK and ARM (41_tracker.md R120 to R128). -/

namespace Sys2Proof.Machine

/-- `s16(new - last)`, of `CNT_W` bits: the wraparound-correct delta (R121). -/
def rawDelta (c : Config) (new last : Count) : Int := wrapS c.cntW ((new : Int) - last)

/-- What TRACK adds to the command accumulator: the delta, times the multiplier under OPT_CMD_MULT (R123). -/
def State.cmdDelta (c : Count) (s : State) : Int :=
  if s.cfg.optCmdMult then s.par.cmdMultiplier.toInt * rawDelta s.cfg c s.trk.lastCmdRaw
  else rawDelta s.cfg c s.trk.lastCmdRaw

/-- `TRACK(c, f)` (R121). -/
def State.track (c f : Count) (s : State) : State :=
  { s with
    ctl := { s.ctl with
      cmdAcc := s.cfg.wrapAcc (s.ctl.cmdAcc + s.cmdDelta c)
      fbAcc := s.cfg.wrapAcc (s.ctl.fbAcc + rawDelta s.cfg f s.trk.lastFbRaw) }
    trk := { s.trk with lastCmdRaw := c, lastFbRaw := f } }

/-- `ARM(c, f)` (R122). -/
def State.arm (c f : Count) (s : State) : State :=
  { s with
    ctl := { s.ctl with cmdAcc := 0, fbAcc := 0 }
    trk := { s.trk with lastCmdRaw := c, lastFbRaw := f } }

end Sys2Proof.Machine
end

