-- ==== Sys2Proof/Machine/Scheduler.lean ====
section
/-! DEFINITION. The two interrupt contexts: the servo scheduler with the duty mapper (43_scheduler.md R170 to R180),
the enable edge (44_enable_fsm.md R202, R203), and the secondary tick (60_exceptions.md R311). -/

namespace Sys2Proof.Machine

/-- `WRITE_DUTY(dir, mag)` (R177): the other register is cleared first. -/
def State.writeDuty (dir : Direction) (mag : Half) (s : State) : State :=
  match dir with
  | .pos => (s.driveNeg 0).drivePos mag
  | .neg => (s.drivePos 0).driveNeg mag
  | .none => (s.drivePos 0).driveNeg 0

/-- The write gating of `MAP` (R178), with the magnitude and direction of step 1. -/
def State.gateDuty (en : Bool) (s : State) : State :=
  if s.cfg.optFaultZero && s.ctl.fault then (s.drivePos 0).driveNeg 0
  else if en then s.writeDuty s.dutyDir s.dutyMag
  else if s.cfg.optDisableZero then (s.drivePos 0).driveNeg 0
  else s

/-- `MAP(en)` (R175 to R178): `S.inLimit` is written on every control cycle, enabled or not. -/
def State.map (en : Bool) (s : State) : State :=
  ({ s with ctl := { s.ctl with inLimit := s.dutyInLimit } }).gateDuty en

/-- `ENABLE_EDGE(c, f)` (44_enable_fsm.md R202), with the optional fault clear (R203). -/
def State.enableEdge (c f : Count) (s : State) : State :=
  let s := s.arm c f
  { s with ctl := { s.ctl with
      prevCommand := 0
      error := 0
      errorIntegral := 0
      prevError := 0
      errorDerivative := 0
      commandDerivative := 0
      output := 0
      inLimit := false
      maxObservedError := 0
      fault := if s.cfg.optFaultClearOnEnable then false else s.ctl.fault } }

/-- The first part of a control cycle: the edge check on the flag as read once, and its record in `T` (R172). -/
def State.edgeCheck (s : State) : State :=
  let t := if s.ctl.enabled && !s.trk.prevEnabled then s.enableEdge s.cmdCnt s.fbCnt else s
  { t with trk := { t.trk with prevEnabled := s.ctl.enabled } }

/-- `CONTROL_CYCLE` (R172): one sample of each counter and of `S.enabled`. -/
def State.controlCycle (s : State) : State :=
  ((s.edgeCheck.track s.cmdCnt s.fbCnt).pid).map s.ctl.enabled

/-- `T.cycleCount` written. -/
def State.setCycleCount (n : Half) (s : State) : State := { s with trk := { s.trk with cycleCount := n } }

/-- The ISR1 step of a `tick_i` that is taken (R170): count, then compare unsigned. -/
def State.isr1 (s : State) : State :=
  if s.par.ticksPerServoCycle ≤ s.trk.cycleCount + 1 then (s.setCycleCount 0).controlCycle
  else s.setCycleCount (s.trk.cycleCount + 1)

/-- `TICK` (R170, 10_state.md R46, R48): ignored while halted or while interrupts are not delivered. -/
def State.tick (s : State) : State := if s.halted || !s.isrOn then s else s.isr1

/-- `TICK2` (60_exceptions.md R311): the delay counter stops at 0. -/
def State.tick2 (s : State) : State :=
  if s.halted || !s.isrOn then s
  else if 0 < s.delayCnt then { s with delayCnt := s.delayCnt - 1 }
  else s

end Sys2Proof.Machine
end

