-- ==== Sys2Proof/Machine/Environment.lean ====
section
/-! DEFINITION. What the environment does: reset (70_reset_and_hazards.md R330), the line input (10_state.md R43),
the levels, and the order of simultaneous events (60_exceptions.md R313). -/

namespace Sys2Proof.Machine

/-- `RESET` (R330): every register of the block; the persisted image, the input levels and the environment's own
script stay. The port trace is emptied with the outputs (log 13). -/
def State.doReset (s : State) : State :=
  { State.reset with
    cfg := s.cfg
    par := Params.ofDefaults s.cfg
    nvm := s.nvm
    cmdCnt := s.cmdCnt
    fbCnt := s.fbCnt
    enIn := s.enIn
    script := s.script }

/-- The delivery of a line (10_state.md R43, 30_encoding.md R90): ignored while halted (R48); refused where the
spec gives it no move (log 7). -/
def State.deliverLine (bytes : List Byte) (s : State) : Outcome :=
  if s.halted then .next s
  else if s.lineReady then .refused .lineWhilePending
  else if s.cfg.lineMax < bytes.length then .refused .lineTooLong
  else .next { s with lineBuf := bytes, lineReady := true }

/-- An event other than FG's turn, taken (R306, R310, R312, R313). The levels belong to the environment and follow
it while the block is halted too (log 9). -/
def State.take (e : Event) (s : State) : Outcome :=
  match e with
  | .reset => .next s.doReset
  | .envFault => .next (if s.halted then s else s.haltEntry)
  | .tick => .next s.tick
  | .tick2 => .next s.tick2
  | .line bytes => s.deliverLine bytes
  | .cmdCnt v => .next { s with cmdCnt := wrapU s.cfg.cntW v }
  | .fbCnt v => .next { s with fbCnt := wrapU s.cfg.cntW v }
  | .en v => .next { s with enIn := v }
  | .fg => .next s

/-- The place of an event in the order of R313, the highest priority first. -/
def Event.rank : Event → Nat
  | .reset => 0
  | .envFault => 1
  | .tick => 2
  | .tick2 => 3
  | .line _ => 4
  | .cmdCnt _ => 5
  | .fbCnt _ => 5
  | .en _ => 5
  | .fg => 6

/-- The event of a group that is taken first, with the others in their order: the least rank, the earliest listed
where ranks are equal (R313, log 6). -/
def firstOf : List Event → Option (Event × List Event)
  | [] => none
  | e :: es =>
    match firstOf es with
    | none => some (e, [])
    | some (f, rest) => if f.rank < e.rank then some (f, e :: rest) else some (e, es)

/-- The script with the present group replaced by what is left of it. -/
def leave (rest : List Event) (later : List (List Event)) : List (List Event) :=
  if rest = [] then later else rest :: later

end Sys2Proof.Machine
end

