-- ==== Sys2Proof/Machine/Fetch.lean ====
section
/-! DEFINITION. Which command FG runs next (46_commands.md R240, 20_memory.md R77). -/

namespace Sys2Proof.Machine

/-- The command whose micro-step FG takes next: at `dispatch` the one the decoder reads from `L.buf`, once; while a
command is in progress the decoded line in FG's locals (10_state.md R41); none elsewhere in the program. -/
def State.fetch (s : State) : Option Instr :=
  match s.fg.phase with
  | .dispatch => some (decodeLine s.lineBuf)
  | .command _ => some s.fg.instr
  | _ => none

end Sys2Proof.Machine
end

