-- ==== Sys2Proof/Machine/Supervisor.lean ====
section
/-! DEFINITION. The foreground program outside the commands: BOOT with LOAD, CFG_HOLD, LOOP, JERK, ENABLE_MIRROR,
DELAY (47_supervisor.md R280 to R292, 45_param_store.md R224). One call is one micro-step; a branch that the
program text writes after a micro-step is decided in it (log 10). -/

namespace Sys2Proof.Machine

/-- The argument of each `DELAY` (R282, R286, R289). -/
def DelaySite.ticks (c : Config) : DelaySite → Half
  | .blink => c.blinkT2
  | .jerkAdded => c.jerkT2
  | .jerkSubtracted => c.jerkT2
  | .settle => c.settleT2

/-- Where each `DELAY` returns to. -/
def DelaySite.ret : DelaySite → Phase
  | .blink => .holdTest
  | .jerkAdded => .jerkRead true
  | .jerkSubtracted => .jerkGo
  | .settle => .loop

/-- The load of the next register after `r`, in layout order (45_param_store.md R224). -/
def loadNext : FloatReg → Phase
  | .pgain => .loadFloat .igain
  | .igain => .loadFloat .dgain
  | .dgain => .loadFloat .ff0gain
  | .ff0gain => .loadFloat .ff1gain
  | .ff1gain => .loadFloat .deadband
  | .deadband => .loadFloat .maxOutput
  | .maxOutput => .loadFloat .maxError
  | .maxError => .loadFloat .maxIntegralError
  | .maxIntegralError => .loadFloat .maxDerivError
  | .maxDerivError => .loadFloat .maxCmdDeriv
  | .maxCmdDeriv => .loadMultiplier

/-- An i16 register's value brought into `[lo, hi]` (R224). -/
def clampHalf (v : Half) (lo hi : Int) : Half := BitVec.ofInt 16 (clampInt v.toInt lo hi)

/-- `⟨img <- NvmLoad()⟩` and the branch on `checksumOK(img)` (R224). -/
def State.loadImage (s : State) : State :=
  ({ s with fg := { s.fg with img := s.nvmLoad } }).goto
    (if checksumOK s.nvmLoad then .loadFloat .pgain else .loadMissing)

/-- `⟨FG.cfgMissing <- true⟩` with the record of CFG_INTEGRITY; FG enters CFG_HOLD (R224, 60_exceptions.md R301). -/
def State.loadMissing (s : State) : State :=
  (({ s with fg := { s.fg with cfgMissing := true } }).raise (.cfgIntegrity s.fg.img)).goto .holdTest

/-- `⟨jz⟩`: where the jerk test starts, `jI` is computed from `J` (R284, R286). -/
def State.jerkTest (s : State) : State :=
  if s.jerkIsSet then
    ({ s with fg := { s.fg with jI := s.num.satTrunc32 s.jerk } }).goto .jerkGo
  else s.goto .mirror

/-- `⟨lvl <- PortRead(en_i)⟩` and the branch of ENABLE_MIRROR (R288). -/
def State.mirror (s : State) : State :=
  let s := { s with fg := { s.fg with lvl := s.enIn } }
  s.goto (if s.fg.lvl && !s.ctl.enabled then .riseSet
    else if !s.fg.lvl && s.ctl.enabled then .fallSet
    else .loop)

/-- `S.enabled <- b`. -/
def State.setEnabled (b : Bool) (s : State) : State := { s with ctl := { s.ctl with enabled := b } }

/-- One micro-step of the foreground program at a phase outside the commands. At `dispatch` and `command` the
step runs a command instead, so there this is the identity. -/
def State.supervise (s : State) : State :=
  match s.fg.phase with
  | .boot0 => ({ s with par := Params.ofDefaults s.cfg }).goto .boot1
  | .boot1 => (s.setEnabled false).goto .boot2
  | .boot2 => ({ s with isrOn := true }).goto .loadImage
  | .loadImage => s.loadImage
  | .loadFloat r => (s.writeFloat r ((parse s.fg.img).getFloat r)).goto (loadNext r)
  | .loadMultiplier => (s.writeMultiplier (clampHalf (parse s.fg.img).cmdMultiplier 1 22)).goto .loadTicks
  | .loadTicks => (s.writeTicks (clampHalf (parse s.fg.img).ticksPerServoCycle 1 100)).goto .loadChecksum
  | .loadChecksum => s.writeChecksum.goto .loop
  | .loadMissing => s.loadMissing
  | .holdTest => s.goto (if s.lineReady then .holdIndOff else .holdToggle)
  | .holdToggle => ({ s with ind := !s.ind }).goto (.delayLoad .blink)
  | .holdIndOff => ({ s with ind := false }).goto .holdDone
  | .holdDone => ({ s with fg := { s.fg with cfgMissing := false } }).goto .loop
  | .delayLoad d => ({ s with delayCnt := d.ticks s.cfg }).goto (.delayTest d)
  | .delayTest d => if s.delayCnt = 0 then s.goto d.ret else s
  | .loop => s.goto (if s.lineReady then .dispatch else .jerkTest)
  | .dispatch => s
  | .command _ => s
  | .jerkTest => s.jerkTest
  | .jerkGo => s.goto (if !s.lineReady && s.enIn then .jerkRead false else .mirror)
  | .jerkRead sub => ({ s with fg := { s.fg with t := s.ctl.cmdAcc } }).goto (.jerkWrite sub)
  | .jerkWrite false => ({ s with ctl := { s.ctl with cmdAcc := s.cfg.wrapAcc (s.fg.t + s.fg.jI.toInt) } }).goto (.delayLoad .jerkAdded)
  | .jerkWrite true =>
    ({ s with ctl := { s.ctl with cmdAcc := s.cfg.wrapAcc (s.fg.t - s.fg.jI.toInt) } }).goto (.delayLoad .jerkSubtracted)
  | .mirror => s.mirror
  | .riseSet => (s.setEnabled true).goto .riseEmit
  | .riseEmit => (s.emit .enabled).goto (.delayLoad .settle)
  | .fallSet => (s.setEnabled false).goto .fallEmit
  | .fallEmit => (s.emit .disabled).goto .loop

end Sys2Proof.Machine
end

