-- ==== Sys2Proof/Machine/Turn.lean ====
section
/-! DEFINITION. The turn of one agent: an event with the interrupt step it starts, or one FG micro-step. -/

namespace Sys2Proof.Machine

/-- FG's micro-step: of the command in progress, or of the program outside the commands. -/
def fgStep (s : State) : Outcome :=
  match s.fetch with
  | some i => exec i s
  | none => .next s.supervise

/-- An event taken; at FG's turn its micro-step, which a halted block does not take (10_state.md R48, log 17). -/
def State.turn (e : Event) (s : State) : Outcome :=
  if e = .fg then (if s.halted then .next s else fgStep s) else s.take e

end Sys2Proof.Machine
end

