-- ==== Sys2Proof/Machine/Step.lean ====
section
/-! DEFINITION. One step of one agent (00_scope.md R5, R6): an event of the environment with the interrupt step it
starts, or one FG micro-step. -/

namespace Sys2Proof.Machine

/-- The next step of the total order (20_memory.md R73): the first event of the present group by the order of
60_exceptions.md R313; FG's micro-step where the environment presents nothing more (log 5). -/
def step (s : State) : Host.Outcome State Fault Refusal :=
  match s.script with
  | [] => s.turn .fg
  | group :: later =>
    match firstOf group with
    | none => .next { s with script := later }
    | some (e, rest) => ({ s with script := leave rest later }).turn e

/-- `s` with the line of `nbits / 8` bytes whose bits are `w` pending, FG at `dispatch`, the block not halted and
nothing presented before FG's micro-step (log 12). -/
def State.withFetchWord (s : State) (nbits w : Nat) : State :=
  { s with
    lineReady := true
    lineBuf := tableBytes (nbits / 8) w
    fg := { s.fg with phase := .dispatch }
    halted := false
    script := [] }

end Sys2Proof.Machine
end

