-- ==== Sys2Proof/Machine/Text.lean ====
section
/-! DEFINITION. The byte rendering of the text output (46_commands.md R271). `tx_o` itself is the sequence of events
(R270); this is what each event shows as bytes. -/

namespace Sys2Proof.Machine

/-- `NL` (R271). -/
def nl : List Byte := [0x0D, 0x0A]

/-- One line `<label> = <value> NL`. -/
def textLine (label : String) (value : List Byte) : List Byte := asc label ++ asc " = " ++ value ++ nl

/-- The bytes of an output event (R271). -/
def renderEvent (c : Config) : TxEvent → List Byte
  | .dump p =>
    textLine "(p)" (c.arith.render p.pgain) ++ textLine "(i)" (c.arith.render p.igain) ++ textLine "(d)" (c.arith.render p.dgain) ++
      textLine "(0)" (c.arith.render p.ff0gain) ++ textLine "(1)" (c.arith.render p.ff1gain) ++
      textLine "(b)" (c.arith.render p.deadband) ++ textLine "(m)" (c.arith.render p.maxOutput) ++
      textLine "(f)" (c.arith.render p.maxError) ++ textLine "(mi)" (c.arith.render p.maxIntegralError) ++
      textLine "(md)" (c.arith.render p.maxDerivError) ++ textLine "(mc)" (c.arith.render p.maxCmdDeriv) ++
      textLine "(x)" (fmtInt p.cmdMultiplier.toInt) ++ textLine "(t)" (fmtInt p.ticksPerServoCycle.toInt) ++
      textLine "(cs)" (asc "0x" ++ fmtHex p.checksum)
  | .help => c.helpText ++ nl
  | .feedback v => textLine "fb" (fmtNat v)
  | .stat e iterm dterm out lim flt mx =>
    textLine "err" (fmtInt e) ++ textLine "iterm" (c.arith.render iterm) ++ textLine "dterm" (c.arith.render dterm) ++
      textLine "out" (c.arith.render out) ++ textLine "limit" (fmtBool lim) ++ textLine "fault" (fmtBool flt) ++
      textLine "maxerr" (fmtNat mx)
  | .prompt => [0x3E]
  | .enabled => asc "enabled" ++ nl
  | .disabled => asc "disabled" ++ nl

/-- The bytes of the whole text output. -/
def State.txBytes (s : State) : List Byte := s.tx.flatMap (renderEvent s.cfg)

end Sys2Proof.Machine
end

