-- ==== Sys2Proof/Safety.lean ====
section
/-! DEFINITION. The terms claims are stated in: runs of a command and of a sequence of turns, the invariants of the
machine, and the exact values behind the tracker and the rounding. -/

namespace Sys2Proof.Machine

/-! ## Runs -/

/-- `n` micro-steps of the command `i` with no step of another agent between them. -/
def execRun (i : Instr) : Nat → State → Outcome
  | 0, s => .next s
  | n + 1, s =>
    match exec i s with
    | .next t => execRun i n t
    | .fault r => .fault r
    | .refused r => .refused r

/-- `n` steps of the machine, stopping at the first refusal: `Host.Core.run` of it. -/
def stepRun : Nat → State → Outcome
  | 0, s => .next s
  | n + 1, s =>
    match step s with
    | .next t => stepRun n t
    | .fault r => .fault r
    | .refused r => .refused r

/-- The given turns taken one after another (20_memory.md R73: one total order). -/
def runTurns : List Event → State → Outcome
  | [], s => .next s
  | e :: es, s =>
    match s.turn e with
    | .next t => runTurns es t
    | .fault r => .fault r
    | .refused r => .refused r

/-- Nothing is presented and the block is not halted: the next steps are FG's micro-steps. -/
def State.alone (s : State) : Prop := s.script = [] ∧ s.halted = false

/-- A turn that a command in progress may find between its micro-steps: an interrupt or a level, or FG's own. -/
def Event.interleaves : Event → Bool
  | .fg | .tick | .tick2 | .cmdCnt _ | .fbCnt _ | .en _ => true
  | .reset | .envFault | .line _ => false

/-- Half a pair of the jerk test (47_supervisor.md R286) from its top, with `n` secondary ticks while it waits: the test,
the read, the write, the delay's load, the ticks, the delay's last test. Its tail is the other half. -/
def jerkHalf (n : Nat) : List Event := [.fg, .fg, .fg, .fg] ++ List.replicate n .tick2 ++ [.fg]

/-- FG stands at the start of a command: no micro-step of one is behind it. -/
def State.atCommandStart (s : State) : Prop := s.microIndex = 0

/-- The end of every command (46_commands.md R241, R269): the line is reset, the prompt is out, and LOOP goes on
with the jerk test; `i` stays as the decoded line in FG's locals. -/
def State.commandDone (i : Instr) (s : State) : State :=
  { s with
    lineReady := false
    tx := s.tx ++ [.prompt]
    fg := { s.fg with phase := .jerkTest, instr := i } }

/-- `SAVE` completed (45_param_store.md R225): the checksum rewritten and the image saved. -/
def State.saved (s : State) : State := s.writeChecksum.saveImage

/-- The reads of `STAT` with its reset of the maximum, all at once (46_commands.md R260). -/
def State.statSampled (s : State) : State :=
  { s with
    fg := { s.fg with
      statError := s.ctl.error
      statIntegral := s.ctl.errorIntegral
      statDerivative := s.ctl.errorDerivative
      statOutput := s.ctl.output
      statLimit := s.ctl.inLimit
      statFault := s.ctl.fault
      statMax := s.ctl.maxObservedError }
    ctl := { s.ctl with maxObservedError := 0 } }

/-- The three writes of `ZERO`, all at once (46_commands.md R261). -/
def State.zeroed (s : State) : State := { s with ctl := { s.ctl with cmdAcc := 0, fbAcc := 0, error := 0 } }

/-- A command's whole effect with nothing between its micro-steps, up to its line reset and prompt
(46_commands.md R242 to R262). -/
def commandEffect (i : Instr) (s : State) : State :=
  match i with
  | .setp (some d) => (s.writeFloat .pgain (s.num.decToNum d)).saved.emitDump
  | .seti (some d) => (s.zeroIntegral.writeFloat .igain (s.num.decToNum d)).saved.emitDump
  | .setd (some d) => (s.writeFloat .dgain (s.num.decToNum d)).saved.emitDump
  | .setff0 (some d) => (s.writeFloat .ff0gain (s.num.decToNum d)).saved.emitDump
  | .setff1 (some d) => (s.writeFloat .ff1gain (s.num.decToNum d)).saved.emitDump
  | .setb (some d) => (s.writeFloat .deadband (s.num.decToNum d)).saved.emitDump
  | .setm (some d) => (s.writeFloat .maxOutput (s.num.decToNum d)).saved.emitDump
  | .setf (some d) => (s.writeFloat .maxError (s.num.decToNum d)).saved.emitDump
  | .setx (some d) => (s.writeMultiplier (clampOperand d 1 22)).saved.emitDump
  | .sett (some d) => (s.writeTicks (clampOperand d 1 100)).saved.emitDump
  | .setp none | .seti none | .setd none | .setff0 none | .setff1 none | .setb none | .setm none | .setf none
  | .setx none | .sett none => s.emitDump
  | .setj (some d) => s.writeJerk (s.num.decToNum d)
  | .setj none => s
  | .rdfb => s.sampleFeedback.emitFeedback.emitDump
  | .list => s.emitDump
  | .stat => s.statSampled.emitStat.emitDump
  | .zero => s.zeroed.emitDump
  | .help first => s.emitHelp first

/-- How many micro-steps a command has, its epilogue counted, without and with OPT_ATOMIC_CMD (46_commands.md R241
to R262). -/
def microCount (atomic : Bool) : Instr → Nat
  | .setp (some _) | .setd (some _) | .setff0 (some _) | .setff1 (some _) | .setb (some _) | .setm (some _)
  | .setf (some _) | .setx (some _) | .sett (some _) => if atomic then 5 else 6
  | .seti (some _) => if atomic then 5 else 7
  | .setp none | .seti none | .setd none | .setff0 none | .setff1 none | .setb none | .setm none | .setf none
  | .setx none | .sett none => 3
  | .setj (some _) => 3
  | .setj none => 2
  | .rdfb => 5
  | .list => 3
  | .stat => if atomic then 5 else 12
  | .zero => if atomic then 4 else 6
  | .help _ => 3

/-- The kinds of text events (46_commands.md R270). -/
inductive TxKind where
  | dump | help | feedback | stat | prompt | enabled | disabled
  deriving DecidableEq, Repr

/-- The kind of a text event. -/
def TxEvent.kind : TxEvent → TxKind
  | .dump _ => .dump
  | .help => .help
  | .feedback _ => .feedback
  | .stat _ _ _ _ _ _ _ => .stat
  | .prompt => .prompt
  | .enabled => .enabled
  | .disabled => .disabled

/-- The text events each command produces, in order (46_commands.md R263). -/
def response : Instr → List TxKind
  | .setp _ | .seti _ | .setd _ | .setff0 _ | .setff1 _ | .setb _ | .setm _ | .setf _ | .setx _ | .sett _ =>
    [.dump, .prompt]
  | .setj _ => [.prompt]
  | .rdfb => [.feedback, .dump, .prompt]
  | .list => [.dump, .prompt]
  | .stat => [.stat, .dump, .prompt]
  | .zero => [.dump, .prompt]
  | .help _ => [.help, .prompt]

/-- What no command touches: everything but `P`, `J`, `S`, FG's phase, decoded line and diagnostic locals, the line's
ready flag, the text, the log and the saved image; and of `S`, only the registers that 10_state.md R31 lists. -/
structure CommandFrame (s t : State) : Prop where
  cfg : t.cfg = s.cfg
  trk : t.trk = s.trk
  jI : t.fg.jI = s.fg.jI
  readValue : t.fg.t = s.fg.t
  lvl : t.fg.lvl = s.fg.lvl
  img : t.fg.img = s.fg.img
  cfgMissing : t.fg.cfgMissing = s.fg.cfgMissing
  delayCnt : t.delayCnt = s.delayCnt
  lineBuf : t.lineBuf = s.lineBuf
  ind : t.ind = s.ind
  isrOn : t.isrOn = s.isrOn
  halted : t.halted = s.halted
  pwmPos : t.pwmPos = s.pwmPos
  pwmNeg : t.pwmNeg = s.pwmNeg
  dutyTrace : t.dutyTrace = s.dutyTrace
  cmdCnt : t.cmdCnt = s.cmdCnt
  fbCnt : t.fbCnt = s.fbCnt
  enIn : t.enIn = s.enIn
  script : t.script = s.script
  prevCommand : t.ctl.prevCommand = s.ctl.prevCommand
  prevError : t.ctl.prevError = s.ctl.prevError
  errorDerivative : t.ctl.errorDerivative = s.ctl.errorDerivative
  commandDerivative : t.ctl.commandDerivative = s.ctl.commandDerivative
  output : t.ctl.output = s.ctl.output
  enabled : t.ctl.enabled = s.ctl.enabled
  inLimit : t.ctl.inLimit = s.ctl.inLimit
  fault : t.ctl.fault = s.ctl.fault

/-- A micro-step that stores nothing but, where it is the save of the register file, the whole image: the bytes stored
to are offsets 0 to 49 (45_param_store.md R225, 20_memory.md R63). -/
def storesImageOnly (s t : State) : Prop :=
  (∀ a, imageSize ≤ a → Memory.read t.nvm a = Memory.read s.nvm a) ∧
    ((∀ a, Memory.read t.nvm a = Memory.read s.nvm a) ∨
      ∀ a, a < imageSize → Memory.read t.nvm a = some (byteAt (image s.par) a))

/-- A micro-step that stores nothing. -/
def storesNothing (s t : State) : Prop := ∀ a, Memory.read t.nvm a = Memory.read s.nvm a

/-- The options that leave the reference behaviour of a control cycle (00_scope.md R8) are off. -/
def Config.referenceCycle (c : Sys2Proof.Config) : Prop :=
  c.optDeadband = false ∧ c.optIntClamp = false ∧ c.optDerivClamp = false ∧ c.optOutClamp = false ∧
    c.optFaultLimit = .maxOutput ∧ c.optFaultZero = false ∧ c.optFaultClearOnEnable = false ∧
    c.optDisableZero = false ∧ c.optCmdMult = false

/-! ## Phases -/

/-- `BOOT0` to `BOOT3` with LOAD (47_supervisor.md R280). -/
def Phase.inBoot : Phase → Bool
  | .boot0 | .boot1 | .boot2 | .loadImage | .loadFloat _ | .loadMultiplier | .loadTicks | .loadChecksum
  | .loadMissing => true
  | _ => false

/-- The part of CFG_HOLD in which the indicator may show (R282). -/
def Phase.inBlink : Phase → Bool
  | .holdTest | .holdToggle | .delayLoad .blink | .delayTest .blink | .holdIndOff => true
  | _ => false

/-- CFG_HOLD (R282). -/
def Phase.inHold (p : Phase) : Bool := p.inBlink || p == .holdDone

/-- The phases before interrupts are delivered (R280, 10_state.md R46). -/
def Phase.beforeIsr : Phase → Bool
  | .boot0 | .boot1 | .boot2 => true
  | _ => false

/-! ## Invariants -/

/-- What holds of the block in every reachable state, but for the duty registers. -/
structure Inv (s : State) : Prop where
  /-- The parameters are as 00_scope.md R7 and 45_param_store.md R227 ask. -/
  cfgWf : s.cfg.wf = true
  /-- 10_state.md R23. -/
  paramsInRange : s.par.toParamVals.inRange = true
  /-- 43_scheduler.md R171: the count cannot pass 100. -/
  cycleBelow : s.trk.cycleCount.toNat < 100
  /-- The persisted image's store keeps its canonical form. -/
  nvmCanonical : Memory.wf s.nvm = true
  /-- 10_state.md R43: `L.buf` is at most LINE_MAX long. -/
  lineFits : s.lineBuf.length ≤ s.cfg.lineMax
  /-- Registers and ports hold values of their widths (00_scope.md R7, 10_state.md R20, R30, R40). -/
  inWidths : s.inWidths = true
  /-- 47_supervisor.md R285: `J` cannot be NaN, under binary32. -/
  jerkNotNaN : s.cfg.num = .binary32 → s.jerk.isNaN = false
  /-- 44_enable_fsm.md R207, 70_reset_and_hazards.md R333: disabled through boot and hold. -/
  disabledInBoot : s.fg.phase.inBoot = true ∨ s.fg.phase.inHold = true → s.ctl.enabled = false
  /-- 10_state.md R45. -/
  indOnlyInHold : s.ind = true → s.fg.phase.inBlink = true
  /-- 10_state.md R44. -/
  missingOnlyInHold : s.fg.cfgMissing = true → s.fg.phase.inHold = true
  /-- 10_state.md R46: interrupts are off only before BOOT2 has run, or in the halt. -/
  isrOffOnlyInBoot : s.isrOn = false → s.halted = true ∨ s.fg.phase.beforeIsr = true
  /-- 46_commands.md R240: FG dispatches only a pending line. -/
  dispatchPending : s.fg.phase = .dispatch → s.lineReady = true
  /-- 10_state.md R48, 60_exceptions.md R306. -/
  haltMasksIsr : s.halted = true → s.isrOn = false

/-- 43_scheduler.md R179, 10_state.md R48: the duty registers never drive both ways, stay within `DUTY_CAP` under
binary32, and are 0 in the halt. -/
structure DutyInv (s : State) : Prop where
  oneSide : s.pwmPos = 0 ∨ s.pwmNeg = 0
  posCapped : s.cfg.num = .binary32 → s.pwmPos ≤ s.cfg.dutyCap
  negCapped : s.cfg.num = .binary32 → s.pwmNeg ≤ s.cfg.dutyCap
  haltedZero : s.halted = true → s.pwmPos = 0 ∧ s.pwmNeg = 0

/-! ## Exact values -/

/-- The raw counter of `w` bits at a true position. -/
def rawAt (w : Nat) (x : Int) : Count := (x % 2 ^ w).toNat

/-- TRACK at each of a sequence of true positions of the two counters (41_tracker.md R124). -/
def trackAll : List (Int × Int) → State → State
  | [], s => s
  | p :: ps, s => trackAll ps (s.track (rawAt s.cfg.cntW p.1) (rawAt s.cfg.cntW p.2))

/-- A movement less than half the range of a `w`-bit counter: -32768 to 32767 for 16 bits (R124). -/
def smallMove (w : Nat) (m : Int) : Prop := -(2 : Int) ^ w ≤ 2 * m ∧ 2 * m < (2 : Int) ^ w

/-- Each position is within half the counters' range of the one before it, on both axes (R124). -/
def smallMoves (w : Nat) : Int × Int → List (Int × Int) → Prop
  | _, [] => True
  | p, q :: qs => smallMove w (q.1 - p.1) ∧ smallMove w (q.2 - p.2) ∧ smallMoves w q qs

/-- Not an infinity and not a NaN. -/
def isFinite (a : Num32) : Bool := decide (a.expo ≠ 255)

/-- The exact value of a finite binary32 number. -/
def numValue (a : Num32) : ℚ := (Num32.smant a : ℚ) * (2 : ℚ) ^ Num32.qexp a

/-- A sign's bytes (30_encoding.md R99): none, `-` or `+`. -/
def signBytes : Option Bool → List Byte
  | none => []
  | some true => [0x2D]
  | some false => [0x2B]

/-- Whether a sign is `-`. -/
def isMinus (sign : Option Bool) : Bool := sign == some true

/-- A mantissa with a point (R99): sign, integer digits, point, fraction digits. -/
def pointedMantissa (sign : Option Bool) (i f : List Nat) : List Byte :=
  signBytes sign ++ i.map digitByte ++ 0x2E :: f.map digitByte

/-- A mantissa without a point (R99). -/
def wholeMantissa (sign : Option Bool) (i : List Nat) : List Byte := signBytes sign ++ i.map digitByte

/-- An exponent's bytes (R99): `E` or `e`, sign, digits. -/
def exponentBytes (upper : Bool) (sign : Option Bool) (e : List Nat) : List Byte :=
  (if upper then 0x45 else 0x65) :: (signBytes sign ++ e.map digitByte)

/-- An exponent's value. -/
def exponentValue (sign : Option Bool) (e : List Nat) : Int := if isMinus sign then -(digitsVal e : Int) else digitsVal e

/-- Whether an exponent begins a byte string (R99): `e` or `E`, with a digit after it or after its sign. -/
def startsExponent : List Byte → Bool
  | b :: c :: d :: _ =>
    (b == 0x65 || b == 0x45) && (isDigit c || ((c == 0x2D || c == 0x2B) && isDigit d))
  | [b, c] => (b == 0x65 || b == 0x45) && isDigit c
  | _ => false

/-- Whether a mantissa begins a byte string (R99): a digit, or a point with a digit after it. -/
def startsMantissa : List Byte → Bool
  | [] => false
  | [b] => isDigit b
  | b :: c :: _ => isDigit b || (b == 0x2E && isDigit c)

/-- Whether a number begins a byte string, after an optional sign (R99). -/
def startsNumber : List Byte → Bool
  | [] => false
  | b :: l => if b = 0x2D ∨ b = 0x2B then startsMantissa l else startsMantissa (b :: l)

/-- The exact value of the magnitude bits of a finite binary32 number. -/
def magValue (mag : Nat) : ℚ :=
  (if mag / 2 ^ 23 = 0 then (mag : ℚ) else ((mag % 2 ^ 23 + 2 ^ 23 : Nat) : ℚ)) *
    (2 : ℚ) ^ ((max (mag / 2 ^ 23) 1 : Nat) - 150 : Int)

end Sys2Proof.Machine
end

