-- ==== Sys2Proof/Certificates/Slice0/Obligations.lean ====
section
/-! DEFINITION. The statements for the provers. Each docstring names the rules of spec/ it formalises, and the log
entries it rests on. -/

section

open Sys2Proof Sys2Proof.Machine

/-! ## Encoding -/

/-- Every well-formed command's line decodes to that command (30_encoding.md R92, R95, R99, R100). -/
def Obligations.DecodeOfEncodeIsTheCommand : Prop :=
  ∀ i : Instr, i.wellFormed = true → decodeLine (encode i) = i

/-- Lines written out byte by byte from R95 and R99 decode to what the spec says they mean (R101 to R106): `p2.5`,
`00.5`, `1.25`, `d0.01`, `x30`, `t500`, `j0`, `e5`, `lfoo`, `s`, `r`, `z`, the empty line, `pabc`, `m-5`, `b3`, `f0`,
`i0.5`. -/
def Obligations.WrittenWordsDecodeToTheirCommands : Prop :=
  decodeLine [0x70, 0x32, 0x2E, 0x35] = .setp (some ⟨false, 25, -1⟩) ∧
  decodeLine [0x30, 0x30, 0x2E, 0x35] = .setff0 (some ⟨false, 5, -1⟩) ∧
  decodeLine [0x31, 0x2E, 0x32, 0x35] = .setff1 (some ⟨false, 25, -2⟩) ∧
  decodeLine [0x64, 0x30, 0x2E, 0x30, 0x31] = .setd (some ⟨false, 1, -2⟩) ∧
  decodeLine [0x78, 0x33, 0x30] = .setx (some ⟨false, 30, 0⟩) ∧
  decodeLine [0x74, 0x35, 0x30, 0x30] = .sett (some ⟨false, 500, 0⟩) ∧
  decodeLine [0x6A, 0x30] = .setj (some ⟨false, 0, 0⟩) ∧
  decodeLine [0x65, 0x35] = .rdfb ∧
  decodeLine [0x6C, 0x66, 0x6F, 0x6F] = .list ∧
  decodeLine [0x73] = .stat ∧
  decodeLine [0x72] = .zero ∧
  decodeLine [0x7A] = .help (some 0x7A) ∧
  decodeLine [] = .help none ∧
  decodeLine [0x70, 0x61, 0x62, 0x63] = .setp none ∧
  decodeLine [0x6D, 0x2D, 0x35] = .setm (some ⟨true, 5, 0⟩) ∧
  decodeLine [0x62, 0x33] = .setb (some ⟨false, 3, 0⟩) ∧
  decodeLine [0x66, 0x30] = .setf (some ⟨false, 0, 0⟩) ∧
  decodeLine [0x69, 0x30, 0x2E, 0x35] = .seti (some ⟨false, 5, -1⟩)

/-- R95 and R103: byte 0 alone selects the command, format N ignores its argument, and formats F and I parse it. R97:
a line is `help` exactly when it is empty or begins with none of the fifteen bytes, and `help` changes no register
of `P`, `S`, `J`, `T`. -/
def Obligations.OpcodeByteSelectsTheCommand : Prop :=
  (∀ arg : List Byte,
    decodeLine (0x70 :: arg) = .setp (parseArg arg) ∧ decodeLine (0x69 :: arg) = .seti (parseArg arg) ∧
    decodeLine (0x64 :: arg) = .setd (parseArg arg) ∧ decodeLine (0x30 :: arg) = .setff0 (parseArg arg) ∧
    decodeLine (0x31 :: arg) = .setff1 (parseArg arg) ∧ decodeLine (0x62 :: arg) = .setb (parseArg arg) ∧
    decodeLine (0x6D :: arg) = .setm (parseArg arg) ∧ decodeLine (0x66 :: arg) = .setf (parseArg arg) ∧
    decodeLine (0x78 :: arg) = .setx (parseArg arg) ∧ decodeLine (0x74 :: arg) = .sett (parseArg arg) ∧
    decodeLine (0x6A :: arg) = .setj (parseArg arg) ∧ decodeLine (0x65 :: arg) = .rdfb ∧
    decodeLine (0x6C :: arg) = .list ∧ decodeLine (0x73 :: arg) = .stat ∧ decodeLine (0x72 :: arg) = .zero) ∧
  (∀ l : List Byte, (∃ first, decodeLine l = .help first) ↔
    l = [] ∨ ∃ b arg, l = b :: arg ∧
      b ∉ ([0x70, 0x69, 0x64, 0x30, 0x31, 0x62, 0x6D, 0x66, 0x78, 0x74, 0x6A, 0x65, 0x6C, 0x73, 0x72] : List Byte)) ∧
  (∀ first s t, exec (.help first) s = .next t →
    t.par = s.par ∧ t.ctl = s.ctl ∧ t.jerk = s.jerk ∧ t.trk = s.trk)

/-- R96: a line of a letter of `P`'s `Num` registers, or of `x`, `t`, `j`, with a number writes exactly the register
of that letter. -/
def Obligations.LetterLineWritesItsRegister : Prop :=
  ∀ (b : Byte) (arg : List Byte) (d : Decimal) (s : State),
    parseArg arg = some d → s.atCommandStart →
    (∀ r, letterReg b = some (.float r) →
      ∃ n t, execRun (decodeLine (b :: arg)) n s = .next t ∧ t.fg.phase = .jerkTest ∧
        t.par.getFloat r = s.num.decToNum d ∧ (∀ q, q ≠ r → t.par.getFloat q = s.par.getFloat q) ∧
        t.par.cmdMultiplier = s.par.cmdMultiplier ∧ t.par.ticksPerServoCycle = s.par.ticksPerServoCycle ∧
        t.jerk = s.jerk) ∧
    (letterReg b = some .multiplier →
      ∃ n t, execRun (decodeLine (b :: arg)) n s = .next t ∧ t.fg.phase = .jerkTest ∧
        t.par.cmdMultiplier = clampOperand d 1 22 ∧ (∀ q, t.par.getFloat q = s.par.getFloat q) ∧
        t.par.ticksPerServoCycle = s.par.ticksPerServoCycle ∧ t.jerk = s.jerk) ∧
    (letterReg b = some .ticks →
      ∃ n t, execRun (decodeLine (b :: arg)) n s = .next t ∧ t.fg.phase = .jerkTest ∧
        t.par.ticksPerServoCycle = clampOperand d 1 100 ∧ (∀ q, t.par.getFloat q = s.par.getFloat q) ∧
        t.par.cmdMultiplier = s.par.cmdMultiplier ∧ t.jerk = s.jerk) ∧
    (letterReg b = some .jerk →
      ∃ n t, execRun (decodeLine (b :: arg)) n s = .next t ∧ t.fg.phase = .jerkTest ∧
        t.jerk = s.num.decToNum d ∧ t.par = s.par)

/-- R99, R100, R104: after blanks, a literal of the grammar (each sign absent, `+` or `-`; digits with a point, or
digits without one; no exponent, or `e` or `E` with its digits) has its exact value, whatever follows it that cannot go
on the literal; an `e` or `E` that no digit follows, after its sign if it has one, is not part of it. -/
def Obligations.LiteralParsesToItsExactValue : Prop :=
  ∀ (blanks rest : List Byte) (sign esign : Option Bool) (upper : Bool) (i f e : List Nat),
    (∀ b ∈ blanks, b = 0x20 ∨ b = 0x09) → (∀ k ∈ i ++ f ++ e, k < 10) → e ≠ [] →
    (∀ b ∈ rest.head?, isDigit b = false) →
    (i ++ f ≠ [] →
      parseArg (blanks ++ pointedMantissa sign i f ++ exponentBytes upper esign e ++ rest) =
        some ⟨isMinus sign, digitsVal (i ++ f), exponentValue esign e - f.length⟩ ∧
      (startsExponent rest = false →
        parseArg (blanks ++ pointedMantissa sign i f ++ rest) =
          some ⟨isMinus sign, digitsVal (i ++ f), -(f.length : Int)⟩)) ∧
    (i ≠ [] →
      parseArg (blanks ++ wholeMantissa sign i ++ exponentBytes upper esign e ++ rest) =
        some ⟨isMinus sign, digitsVal i, exponentValue esign e⟩ ∧
      (startsExponent rest = false → (∀ b ∈ rest.head?, b ≠ 0x2E) →
        parseArg (blanks ++ wholeMantissa sign i ++ rest) = some ⟨isMinus sign, digitsVal i, 0⟩))

/-- R100: a value is present exactly when, after blanks and an optional sign, a digit stands or a point with a digit
after it. -/
def Obligations.ArgumentIsPresentExactlyOnANumber : Prop :=
  ∀ l : List Byte, (parseArg l).isSome = startsNumber (skipWs l)

/-! ## Operands and numbers -/

/-- R102, 46_commands.md R253: the clamp of `x` and `t` acts on the integer part of the exact decimal, however large
its exponent (the model's guard on the exponent, log 16, is not seen). -/
def Obligations.IntegerOperandClampIsExact : Prop :=
  ∀ (d : Decimal) (lo hi : Int), -(10 ^ 9) ≤ lo → lo ≤ hi → hi ≤ 10 ^ 9 →
    clampOperand d lo hi = BitVec.ofInt 16 (clampInt (truncIntExact d) lo hi)

/-- R101, 00_scope.md R11, under binary32: the exact decimal is rounded once, whatever its exponent (the model's guards
on the exponent, log 16, are not seen). -/
def Obligations.FloatOperandIsRoundedOnce : Prop :=
  ∀ (s : State) (d : Decimal), s.cfg.num = .binary32 → s.num.decToNum d =
    Num32.pack d.neg (roundRatio (d.mant * 10 ^ d.exp.toNat) (10 ^ (-d.exp).toNat))

/-- 00_scope.md R10: the rounding of a quotient is to the nearest binary32 magnitude, ties to even, with overflow to
infinity from the midpoint above the largest finite magnitude on. -/
def Obligations.RoundRatioIsNearestEven : Prop :=
  ∀ num den : Nat, 0 < den →
    (roundRatio num den < infBits → ∀ m, m < infBits →
      |magValue (roundRatio num den) - (num : ℚ) / den| ≤ |magValue m - (num : ℚ) / den| ∧
      (m ≠ roundRatio num den → |magValue (roundRatio num den) - (num : ℚ) / den| = |magValue m - (num : ℚ) / den| →
        roundRatio num den % 2 = 0)) ∧
    (roundRatio num den = infBits ↔ ((2 ^ 25 - 1) * 2 ^ 103 : ℚ) ≤ (num : ℚ) / den)

/-- R10: the four operations on finite operands round the exact result once; an exact zero sum is +0.0 but for two
negative zeros; division by a zero and the operations on infinities follow IEEE 754; an invalid operation and an
operation on a NaN give a NaN (whichever one: log 3). -/
def Obligations.ArithmeticRoundsOnce : Prop :=
  (∀ a b : Num32, isFinite a = true → isFinite b = true →
    (numValue a + numValue b ≠ 0 → ∃ num den : Nat, 0 < den ∧ (num : ℚ) / den = |numValue a + numValue b| ∧
      Num32.add a b = Num32.pack (decide (numValue a + numValue b < 0)) (roundRatio num den)) ∧
    (numValue a + numValue b = 0 → Num32.add a b = Num32.pack (a.sign && b.sign) 0) ∧
    Num32.sub a b = Num32.add a (Num32.neg b) ∧ numValue (Num32.neg b) = -numValue b ∧
    (∃ num den : Nat, 0 < den ∧ (num : ℚ) / den = |numValue a * numValue b| ∧
      Num32.mul a b = Num32.pack (a.sign != b.sign) (roundRatio num den)) ∧
    (numValue b ≠ 0 → ∃ num den : Nat, 0 < den ∧ (num : ℚ) / den = |numValue a / numValue b| ∧
      Num32.div a b = Num32.pack (a.sign != b.sign) (roundRatio num den)) ∧
    (numValue b = 0 → numValue a ≠ 0 → Num32.div a b = Num32.pack (a.sign != b.sign) infBits) ∧
    (numValue b = 0 → numValue a = 0 → (Num32.div a b).isNaN = true)) ∧
  (∀ a b : Num32, a.isInf = true → isFinite b = true →
    Num32.add a b = a ∧ Num32.add b a = a ∧ Num32.sub a b = a ∧ Num32.sub b a = Num32.neg a ∧
    Num32.div a b = Num32.pack (a.sign != b.sign) infBits ∧ Num32.div b a = Num32.pack (b.sign != a.sign) 0 ∧
    (numValue b ≠ 0 → Num32.mul a b = Num32.pack (a.sign != b.sign) infBits ∧
      Num32.mul b a = Num32.pack (b.sign != a.sign) infBits) ∧
    (numValue b = 0 → (Num32.mul a b).isNaN = true ∧ (Num32.mul b a).isNaN = true)) ∧
  (∀ a b : Num32, a.isInf = true → b.isInf = true →
    (a.sign = b.sign → Num32.add a b = a ∧ (Num32.sub a b).isNaN = true) ∧
    (a.sign ≠ b.sign → (Num32.add a b).isNaN = true ∧ Num32.sub a b = a) ∧
    Num32.mul a b = Num32.pack (a.sign != b.sign) infBits ∧ (Num32.div a b).isNaN = true) ∧
  (∀ a b : Num32, a.isNaN = true ∨ b.isNaN = true →
    (Num32.add a b).isNaN = true ∧ (Num32.sub a b).isNaN = true ∧ (Num32.mul a b).isNaN = true ∧
    (Num32.div a b).isNaN = true)

/-- R10: `lt` compares the exact values, with the infinities outermost, and is false on a NaN and on equal infinities.
R11: `toNum` rounds every integer once (to the nearest, ties to even, as RoundRatioIsNearestEven says), is exact up to
2^24, and gives an infinity of its sign from the midpoint above the largest finite number on; `truncInt` is toward
zero; `satTrunc32` saturates. -/
def Obligations.ComparisonAndConversionsAreExact : Prop :=
  (∀ a b : Num32, isFinite a = true → isFinite b = true →
    (Num32.lt a b = true ↔ numValue a < numValue b)) ∧
  (∀ a : Num32, a.isNaN = false →
    (Num32.lt a (Num32.pack false infBits) = true ↔ a ≠ Num32.pack false infBits) ∧
    (Num32.lt (Num32.pack true infBits) a = true ↔ a ≠ Num32.pack true infBits) ∧
    Num32.lt (Num32.pack false infBits) a = false ∧ Num32.lt a (Num32.pack true infBits) = false) ∧
  (∀ a b : Num32, a.isNaN = true ∨ b.isNaN = true → Num32.lt a b = false) ∧
  (∀ x : Int, ∃ mag, Num32.ofInt x = Num32.pack (decide (x < 0)) mag ∧ mag = roundRatio x.natAbs 1 ∧
    (|x| ≤ 2 ^ 24 → isFinite (Num32.ofInt x) = true ∧ numValue (Num32.ofInt x) = x) ∧
    ((2 ^ 25 - 1) * 2 ^ 103 ≤ |x| ↔ (Num32.ofInt x).isInf = true)) ∧
  (∀ r : Num32, isFinite r = true →
    (0 ≤ numValue r → Num32.truncInt r = ⌊numValue r⌋) ∧ (numValue r ≤ 0 → Num32.truncInt r = ⌈numValue r⌉) ∧
    (Num32.satTrunc32 r).toInt = clampInt (Num32.truncInt r) (-2 ^ 31) (2 ^ 31 - 1)) ∧
  (∀ r : Num32, r.isNaN = true → Num32.satTrunc32 r = 0) ∧
  Num32.satTrunc32 (Num32.pack false infBits) = 0x7FFFFFFF ∧ Num32.satTrunc32 (Num32.pack true infBits) = 0x80000000

/-- 00_scope.md R10: `neg` and `abs` flip and clear the sign and keep the magnitude, of a NaN too, and `gt` is `lt` turned
round. 42_pid.md R146: under binary32 a value is clamped to `[-lim, lim]`, with `lim` the magnitude of a register: above
it becomes `lim`, below it becomes `-lim`, within it stays as it is; an infinite or NaN limit clamps nothing, and a NaN
value stays. -/
def Obligations.ClampAndMagnitude : Prop :=
  (∀ a : Num32, (Num32.abs a).toNat = a.toNat % 2 ^ 31 ∧ (Num32.neg a).toNat % 2 ^ 31 = a.toNat % 2 ^ 31 ∧
    (Num32.neg a).sign = !a.sign ∧ (isFinite a = true → numValue (Num32.abs a) = |numValue a|)) ∧
  (∀ (s : State) (v m : Num32), s.cfg.num = .binary32 →
    (s.num.gt v m = s.num.lt m v) ∧
    (isFinite m = true → isFinite v = true →
      numValue (s.num.clampNum v (s.num.abs m)) = max (-|numValue m|) (min (numValue v) |numValue m|) ∧
      (|numValue v| ≤ |numValue m| → s.num.clampNum v (s.num.abs m) = v)) ∧
    (isFinite m = true → v.isInf = true →
      s.num.clampNum v (s.num.abs m) = if v.sign then Num32.neg (Num32.abs m) else Num32.abs m) ∧
    (m.isNaN = true ∨ m.isInf = true ∨ v.isNaN = true → s.num.clampNum v (s.num.abs m) = v))

/-! ## The tracker -/

/-- 41_tracker.md R121, R123: TRACK adds to each accumulator the delta of its counter, which is the one number of the
half range of `CNT_W` bits congruent to new less last (for 16 bits, `s16` of it), the command's times the multiplier
under OPT_CMD_MULT, wrapped to `ACC_W` bits (for 32, `wrap_32`); it records the samples, and writes nothing else. That
the rules' 16 and 32 bits are `CNT_W` and `ACC_W` of 00_scope.md R7 is the model's reading (log 24). -/
def Obligations.TrackAddsTheSignedDeltas : Prop :=
  ∀ (c f : Count) (s : State), s.cfg.wf = true → ∃ dc df : Int,
    (smallMove s.cfg.cntW dc ∧ (2 : Int) ^ s.cfg.cntW ∣ (c : Int) - s.trk.lastCmdRaw - dc) ∧
    (smallMove s.cfg.cntW df ∧ (2 : Int) ^ s.cfg.cntW ∣ (f : Int) - s.trk.lastFbRaw - df) ∧
    fitsS s.cfg.accW (s.track c f).ctl.cmdAcc = true ∧ fitsS s.cfg.accW (s.track c f).ctl.fbAcc = true ∧
    (2 : Int) ^ s.cfg.accW ∣ s.ctl.fbAcc + df - (s.track c f).ctl.fbAcc ∧
    (s.cfg.optCmdMult = false → (2 : Int) ^ s.cfg.accW ∣ s.ctl.cmdAcc + dc - (s.track c f).ctl.cmdAcc) ∧
    (s.cfg.optCmdMult = true →
      (2 : Int) ^ s.cfg.accW ∣ s.ctl.cmdAcc + s.par.cmdMultiplier.toInt * dc - (s.track c f).ctl.cmdAcc) ∧
    (s.track c f).trk.lastCmdRaw = c ∧ (s.track c f).trk.lastFbRaw = f ∧
    s.track c f = { s with
      ctl := { s.ctl with cmdAcc := (s.track c f).ctl.cmdAcc, fbAcc := (s.track c f).ctl.fbAcc }
      trk := { s.trk with lastCmdRaw := c, lastFbRaw := f } }

/-- 41_tracker.md R124: over any sequence of TRACKs in which neither counter moves by half its range or more between
two of them, each accumulator has moved by the true distance, wrapped to its width; so from an ARM it is the true
distance itself, wrapped. The rule speaks of 16-bit counters and `wrap_32`; that it holds so for every `CNT_W` and
`ACC_W` of 00_scope.md R7 is the model's reading (log 24). -/
def Obligations.TrackingGuarantee : Prop :=
  ∀ (p : Int × Int) (ps : List (Int × Int)) (s : State), s.cfg.wf = true →
    s.cfg.optCmdMult = false → smallMoves s.cfg.cntW p ps →
    (s.trk.lastCmdRaw = rawAt s.cfg.cntW p.1 → s.trk.lastFbRaw = rawAt s.cfg.cntW p.2 → s.inWidths = true →
      (trackAll ps s).ctl.cmdAcc = s.cfg.wrapAcc (s.ctl.cmdAcc + (((p :: ps).getLast (by simp)).1 - p.1)) ∧
      (trackAll ps s).ctl.fbAcc = s.cfg.wrapAcc (s.ctl.fbAcc + (((p :: ps).getLast (by simp)).2 - p.2))) ∧
    (trackAll ps (s.arm (rawAt s.cfg.cntW p.1) (rawAt s.cfg.cntW p.2))).ctl.cmdAcc =
      s.cfg.wrapAcc (((p :: ps).getLast (by simp)).1 - p.1) ∧
    (trackAll ps (s.arm (rawAt s.cfg.cntW p.1) (rawAt s.cfg.cntW p.2))).ctl.fbAcc =
      s.cfg.wrapAcc (((p :: ps).getLast (by simp)).2 - p.2)

/-- 41_tracker.md R125: any movement `m` of a counter is read as the one number of the half range congruent to it (for 16 bits,
`s16(m)`); outside the half range that is not `m` and differs from it by a multiple of 2^CNT_W (for 16 bits, 65536); a
movement of exactly +32768 of a 16-bit counter is read as -32768; no flag and no record tells. The rule speaks of 16
bits; the clauses for every `CNT_W` of 00_scope.md R7 are the model's reading (log 24). -/
def Obligations.LargeMovementsAlias : Prop :=
  (∀ (c : Config) (x m : Int), c.wf = true →
    ∃ d, rawDelta c (rawAt c.cntW (x + m)) (rawAt c.cntW x) = d ∧ smallMove c.cntW d ∧ (2 : Int) ^ c.cntW ∣ m - d ∧
      (smallMove c.cntW m → d = m) ∧ (¬ smallMove c.cntW m → d ≠ m) ∧
      (c.cntW = 16 → (65536 : Int) ∣ m - d ∧ (m = 32768 → d = -32768))) ∧
  (∀ (c f : Count) (s : State), (s.track c f).ctl.fault = s.ctl.fault ∧ (s.track c f).ctl.inLimit = s.ctl.inLimit ∧
    (s.track c f).xlog = s.xlog ∧ (s.track c f).tx = s.tx)

/-- 44_enable_fsm.md R202, R203, 41_tracker.md R122: the rising-edge reset, and nothing but it; TRACK with the same
samples then adds nothing. -/
def Obligations.EnableEdgeResetsTheVolatileState : Prop :=
  ∀ (c f : Count) (s : State),
    s.enableEdge c f = { s with
      ctl := { cmdAcc := 0, fbAcc := 0, prevCommand := 0, error := 0, errorIntegral := 0, prevError := 0,
               errorDerivative := 0, commandDerivative := 0, output := 0, enabled := s.ctl.enabled, inLimit := false,
               maxObservedError := 0, fault := if s.cfg.optFaultClearOnEnable then false else s.ctl.fault }
      trk := { s.trk with lastCmdRaw := c, lastFbRaw := f } } ∧
    ((s.enableEdge c f).track c f).ctl.cmdAcc = 0 ∧ ((s.enableEdge c f).track c f).ctl.fbAcc = 0

/-! ## The PID engine -/

/-- 42_pid.md R142 to R152: each register of the engine, written from the registers as they stood, with every option;
nothing else is written. R141, under binary32: the period and its inverse, each the exact quotient rounded once. The
registers under any `Num` and of every `ACC_W` are the model's reading of 00_scope.md R7 (log 21, log 24). -/
def Obligations.PidWritesItsRegisters : Prop :=
  (∀ s : State, ∃ t, s.pid = t ∧
    t.ctl.error = s.cfg.wrapAcc (s.ctl.cmdAcc - s.ctl.fbAcc) ∧
    t.ctl.maxObservedError = max s.ctl.maxObservedError t.ctl.error.natAbs ∧
    (∃ use, use = (if s.cfg.optDeadband = true ∧ s.num.lt (s.num.ofInt t.ctl.error.natAbs) s.par.deadband = true
        then 0 else t.ctl.error) ∧
      t.ctl.prevError = use ∧
      (∃ sum, sum = s.num.add s.ctl.errorIntegral (s.num.mul (s.num.ofInt use) s.periodS) ∧
        t.ctl.errorIntegral =
          if s.cfg.optIntClamp then s.num.clampNum sum (s.num.abs s.par.maxIntegralError) else sum) ∧
      (∃ der, der = s.num.mul (s.num.ofInt (s.cfg.wrapAcc (use - s.ctl.prevError))) s.invPeriodS ∧
        t.ctl.errorDerivative =
          if s.cfg.optDerivClamp then s.num.clampNum der (s.num.abs s.par.maxDerivError) else der) ∧
      (∃ der, der = s.num.mul (s.num.ofInt (s.cfg.wrapAcc (s.ctl.cmdAcc - s.ctl.prevCommand))) s.invPeriodS ∧
        t.ctl.commandDerivative =
          if s.cfg.optDerivClamp then s.num.clampNum der (s.num.abs s.par.maxCmdDeriv) else der) ∧
      t.ctl.prevCommand = s.ctl.cmdAcc ∧
      (∃ o, o = s.num.add (s.num.add (s.num.add (s.num.add (s.num.mul s.par.pgain (s.num.ofInt use))
          (s.num.mul s.par.igain t.ctl.errorIntegral)) (s.num.mul s.par.dgain t.ctl.errorDerivative))
          (s.num.mul s.par.ff0gain (s.num.ofInt s.ctl.cmdAcc)))
          (s.num.mul s.par.ff1gain t.ctl.commandDerivative) ∧
        t.ctl.output = if s.cfg.optOutClamp then s.num.clampNum o (s.num.abs s.par.maxOutput) else o)) ∧
    (s.num.gt (s.num.ofInt t.ctl.error.natAbs)
        (if s.cfg.optFaultLimit = .maxOutput then s.par.maxOutput else s.par.maxError) = true →
      t.ctl.fault = true ∧ t.xlog = s.xlog ++ ([.positionFault t.ctl.error] : List Exc)) ∧
    (s.num.gt (s.num.ofInt t.ctl.error.natAbs)
        (if s.cfg.optFaultLimit = .maxOutput then s.par.maxOutput else s.par.maxError) = false →
      t.ctl.fault = s.ctl.fault ∧ t.xlog = s.xlog) ∧
    t.ctl.cmdAcc = s.ctl.cmdAcc ∧ t.ctl.fbAcc = s.ctl.fbAcc ∧ t.ctl.enabled = s.ctl.enabled ∧
    t.ctl.inLimit = s.ctl.inLimit ∧ t = { s with ctl := t.ctl, xlog := t.xlog }) ∧
  (∀ s : State, s.cfg.num = .binary32 → 1 ≤ s.par.ticksPerServoCycle.toNat → 1 ≤ s.cfg.tSubNs →
    s.periodS = Num32.pack false (roundRatio (s.par.ticksPerServoCycle.toNat * s.cfg.tSubNs) (10 ^ 9)) ∧
    s.invPeriodS = Num32.pack false (roundRatio (10 ^ 9) (s.par.ticksPerServoCycle.toNat * s.cfg.tSubNs)) ∧
    (s.cfg.tSubNs = 250000 →
      (s.par.ticksPerServoCycle = 1 → s.periodS = 0x3983126F ∧ s.invPeriodS = 0x457A0000) ∧
      (s.par.ticksPerServoCycle = 4 → s.periodS = 0x3A83126F ∧ s.invPeriodS = 0x447A0000) ∧
      (s.par.ticksPerServoCycle = 100 → s.periodS = 0x3CCCCCCD ∧ s.invPeriodS = 0x42200000)))

/-- 10_state.md R32: the latch is set only by the fault check of a control cycle, with its record, and cleared only by
reset, or by a rising enable edge under OPT_FAULT_CLEAR_ON_ENABLE; no command and no other event writes it. -/
def Obligations.FaultLatchIsSticky : Prop :=
  ∀ (s t : State) (e : Event), s.turn e = .next t →
    (s.ctl.fault = true → t.ctl.fault = false →
      e = .reset ∨ (e = .tick ∧ s.cfg.optFaultClearOnEnable = true ∧ s.ctl.enabled = true ∧
        s.trk.prevEnabled = false)) ∧
    (s.ctl.fault = false → t.ctl.fault = true →
      e = .tick ∧ s.halted = false ∧ s.isrOn = true ∧ s.par.ticksPerServoCycle ≤ s.trk.cycleCount + 1 ∧
      t.xlog = s.xlog ++ ([.positionFault t.ctl.error] : List Exc) ∧
      s.num.gt (s.num.ofInt t.ctl.error.natAbs) s.faultThreshold = true)

/-! ## The scheduler and the duty mapper -/

/-- 43_scheduler.md R170, R174: a tick that is not delivered changes nothing; a tick below the gate only counts; a tick
at the gate clears the count and runs the control cycle. R172: that is, on one sample of each counter port and one read
of `S.enabled`, ENABLE_EDGE where the enable is up and was down at the cycle before, and not otherwise (44_enable_fsm.md
R206), the record of the enable, then TRACK of the samples, PID and MAP, whether enabled or not (R173). R171: with a
constant `n`, the count after `k` ticks from count 0 is `k` modulo `n`, so control cycles come every `n` ticks. -/
def Obligations.TickGate : Prop :=
  (∀ s : State,
    (s.halted = true ∨ s.isrOn = false → s.turn .tick = .next s) ∧
    (s.halted = false → s.isrOn = true → (s.trk.cycleCount + 1).toNat < s.par.ticksPerServoCycle.toNat →
      s.turn .tick = .next { s with trk := { s.trk with cycleCount := s.trk.cycleCount + 1 } }) ∧
    (s.halted = false → s.isrOn = true → s.par.ticksPerServoCycle.toNat ≤ (s.trk.cycleCount + 1).toNat →
      ∃ u, s.turn .tick = .next (((u.track s.cmdCnt s.fbCnt).pid).map s.ctl.enabled) ∧
        (s.ctl.enabled = true ∧ s.trk.prevEnabled = false →
          u = { s.enableEdge s.cmdCnt s.fbCnt with trk :=
            { lastCmdRaw := s.cmdCnt, lastFbRaw := s.fbCnt, cycleCount := 0, prevEnabled := true } }) ∧
        (¬ (s.ctl.enabled = true ∧ s.trk.prevEnabled = false) →
          u = { s with trk := { s.trk with cycleCount := 0, prevEnabled := s.ctl.enabled } }))) ∧
  (∀ (k : Nat) (s : State), s.halted = false → s.isrOn = true → s.trk.cycleCount = 0 →
    s.par.toParamVals.inRange = true →
    ∃ t, runTurns (List.replicate k .tick) s = .next t ∧
      t.trk.cycleCount.toNat = k % s.par.ticksPerServoCycle.toNat ∧ t.par = s.par)

/-- 44_enable_fsm.md R204: the control cycle of the rising edge starts from nothing: accumulators, error and previous
values are 0. Under binary32 the derivatives are 0 and both duty registers are written 0, whatever the gains; where the
period is finite the integral is +0.0, and where the gains are finite too the output is a zero. (A `T_SUB_NS` so large
that the period overflows binary32 is not excluded by R7; there the integral is not +0.0.) -/
def Obligations.FirstCycleAfterTheEdge : Prop :=
  ∀ s : State, s.halted = false → s.isrOn = true → s.par.ticksPerServoCycle ≤ s.trk.cycleCount + 1 →
    s.ctl.enabled = true → s.trk.prevEnabled = false → s.cfg.wf = true → s.par.toParamVals.inRange = true →
    ∃ t, s.turn .tick = .next t ∧
      t.ctl.cmdAcc = 0 ∧ t.ctl.fbAcc = 0 ∧ t.ctl.error = 0 ∧ t.ctl.prevError = 0 ∧ t.ctl.prevCommand = 0 ∧
      t.ctl.maxObservedError = 0 ∧
      t.trk.lastCmdRaw = s.cmdCnt ∧ t.trk.lastFbRaw = s.fbCnt ∧ t.trk.prevEnabled = true ∧
      (s.cfg.num = .binary32 → t.ctl.errorDerivative = 0 ∧ t.ctl.commandDerivative = 0 ∧ t.pwmPos = 0 ∧ t.pwmNeg = 0 ∧
        (s.periodS.isInf = false → t.ctl.errorIntegral = 0 ∧
          (isFinite s.par.pgain = true → isFinite s.par.igain = true → isFinite s.par.dgain = true →
            isFinite s.par.ff0gain = true → isFinite s.par.ff1gain = true → t.ctl.output.isZero = true) ∧
          (isFinite s.par.pgain = false ∨ isFinite s.par.igain = false ∨ isFinite s.par.dgain = false ∨
            isFinite s.par.ff0gain = false ∨ isFinite s.par.ff1gain = false → t.ctl.output.isNaN = true)))

/-- 43_scheduler.md R176, R177, R178: the scaled magnitude is the output times `DUTY_SCALE / maxError`, each rounded,
without its sign; what MAP writes, with the port events in their order. -/
def Obligations.MapperWritesTheDutyRegisters : Prop :=
  ∀ (s : State) (en : Bool), ∃ scale a t, s.map en = t ∧
    scale = s.num.div (s.num.ofInt s.cfg.dutyScale) s.par.maxError ∧
    a = s.num.abs (s.num.mul s.ctl.output scale) ∧ s.dutyScaled = a ∧
    t.ctl = { s.ctl with inLimit := !s.num.isNaN a && s.num.gt a (s.num.ofInt s.cfg.dutyCap.toNat) } ∧
    (if s.cfg.optFaultZero = true ∧ s.ctl.fault = true then
        t.pwmPos = 0 ∧ t.pwmNeg = 0 ∧ t.dutyTrace = s.dutyTrace ++ ([.pos 0, .neg 0] : List DutyWrite)
      else if en = true then
        if s.num.gt s.ctl.output 0 = true then
          t.pwmPos = s.dutyMag ∧ t.pwmNeg = 0 ∧ t.dutyTrace = s.dutyTrace ++ ([.neg 0, .pos s.dutyMag] : List DutyWrite)
        else if s.num.lt s.ctl.output 0 = true then
          t.pwmPos = 0 ∧ t.pwmNeg = s.dutyMag ∧ t.dutyTrace = s.dutyTrace ++ ([.pos 0, .neg s.dutyMag] : List DutyWrite)
        else t.pwmPos = 0 ∧ t.pwmNeg = 0 ∧ t.dutyTrace = s.dutyTrace ++ ([.pos 0, .neg 0] : List DutyWrite)
      else if s.cfg.optDisableZero = true then
        t.pwmPos = 0 ∧ t.pwmNeg = 0 ∧ t.dutyTrace = s.dutyTrace ++ ([.pos 0, .neg 0] : List DutyWrite)
      else t.pwmPos = s.pwmPos ∧ t.pwmNeg = s.pwmNeg ∧ t.dutyTrace = s.dutyTrace) ∧
    t = { s with ctl := t.ctl, pwmPos := t.pwmPos, pwmNeg := t.pwmNeg, dutyTrace := t.dutyTrace }

/-- R176: with `a` the magnitude of the output scaled by `DUTY_SCALE / maxError`, the duty magnitude is 0 for a NaN,
`DUTY_CAP` above it, and elsewhere the integer part of `a`; under binary32 nothing is lost in 16 bits and it is at most
`DUTY_CAP`. -/
def Obligations.DutyMagnitudeIsBounded : Prop :=
  ∀ (s : State) (a : Num32),
    a = s.num.abs (s.num.mul s.ctl.output (s.num.div (s.num.ofInt s.cfg.dutyScale) s.par.maxError)) →
    (s.num.isNaN a = true → s.dutyMag = 0) ∧
    (s.num.isNaN a = false → s.num.gt a (s.num.ofInt s.cfg.dutyCap.toNat) = true → s.dutyMag = s.cfg.dutyCap) ∧
    (s.num.isNaN a = false → s.num.gt a (s.num.ofInt s.cfg.dutyCap.toNat) = false →
      s.dutyMag = BitVec.ofInt 16 (s.num.truncInt a) ∧
      (s.cfg.num = .binary32 → (s.dutyMag.toNat : Int) = Num32.truncInt a)) ∧
    (s.cfg.num = .binary32 → s.dutyMag ≤ s.cfg.dutyCap)

/-- R179 and 10_state.md R48: every step of every agent keeps the duty registers one-sided, 0 in the halt and, under
binary32, within `DUTY_CAP`. -/
def Obligations.EveryStepKeepsTheDutyInvariant : Prop :=
  ∀ s t : State, DutyInv s → step s = .next t → DutyInv t

/-- R178, 44_enable_fsm.md R205: with OPT_DISABLE_ZERO and OPT_FAULT_ZERO off, no turn but reset and the halt entry
writes a duty register while the controller is disabled. -/
def Obligations.DisabledControllerHoldsItsDuty : Prop :=
  ∀ (s t : State) (e : Event), s.ctl.enabled = false → s.cfg.optDisableZero = false → s.cfg.optFaultZero = false →
    e ≠ .reset → e ≠ .envFault → s.turn e = .next t →
    t.pwmPos = s.pwmPos ∧ t.pwmNeg = s.pwmNeg ∧ t.dutyTrace = s.dutyTrace

/-- 10_state.md R25, R26, R27: in the reference behaviour no tick reads the deadband, the integral and derivative
limits, the command multiplier or the checksum register. -/
def Obligations.UnusedRegistersDoNotReachTheTick : Prop :=
  ∀ (s : State) (deadband mi md mc : Num32) (mult cs : Half), Config.referenceCycle s.cfg →
    ({ s with par := { s.par with
        deadband := deadband, maxIntegralError := mi, maxDerivError := md, maxCmdDeriv := mc,
        cmdMultiplier := mult, checksum := cs } }).tick =
      { s.tick with par := { s.par with
        deadband := deadband, maxIntegralError := mi, maxDerivError := md, maxCmdDeriv := mc,
        cmdMultiplier := mult, checksum := cs } }

/-! ## The parameter store -/

/-- 20_memory.md R65: `image` is 50 bytes, `parse` inverts it, and it inverts `parse` on every 50-byte string. -/
def Obligations.ImageAndParseAreInverse : Prop :=
  (∀ p : Params, (image p).length = 50 ∧ parse (image p) = p) ∧
  (∀ img : List Byte, img.length = 50 → image (parse img) = img)

/-- 20_memory.md R62, R64: `MemRead` and `MemWrite` are defined exactly on aligned fields of 2 and 4 bytes; a field
written is read back, little-endian, and every other byte is unchanged. -/
def Obligations.ImageFieldAccess : Prop :=
  ∀ (img : List Byte) (addr n : Nat) (v : Word), img.length = 50 →
    (memRead img addr n = none ↔ ¬((n = 2 ∨ n = 4) ∧ addr % n = 0 ∧ addr + n ≤ 50)) ∧
    (memWrite img addr n v = none ↔ ¬((n = 2 ∨ n = 4) ∧ addr % n = 0 ∧ addr + n ≤ 50)) ∧
    (∀ out, memWrite img addr n v = some out →
      out.length = 50 ∧
      memRead out addr n = some (BitVec.ofNat 32 (v.toNat % 2 ^ (8 * n))) ∧
      (∀ k, k < n → (byteAt out (addr + k)).toNat = v.toNat / 2 ^ (8 * k) % 256) ∧
      (∀ o, o < addr ∨ addr + n ≤ o → byteAt out o = byteAt img o))

/-- 45_param_store.md R222: the verification asks that the 25 words sum to 0 modulo 2^16, and that is equivalent to
the stored word being the checksum of the parsed registers. -/
def Obligations.ChecksumVerifiesTheStoredWord : Prop :=
  ∀ img : List Byte, img.length = 50 →
    (checksumOK img = true ↔ (∑ k ∈ Finset.range 25, (word16 img (2 * k)).toNat) % 2 ^ 16 = 0) ∧
    (checksumOK img = true ↔ word16 img 48 = checksumOf (parse img).toParamVals)

/-- R223: changing any one byte of a valid image makes the verification fail; some change of two bytes does not. -/
def Obligations.SingleByteChangeIsDetected : Prop :=
  (∀ (img : List Byte) (o : Nat) (b : Byte), img.length = 50 → checksumOK img = true → o < 50 → b ≠ byteAt img o →
    checksumOK (img.set o b) = false) ∧
  ∃ img : List Byte, img.length = 50 ∧ checksumOK img = true ∧ byteAt img 0 ≠ 1 ∧ byteAt img 2 ≠ 0 ∧
    checksumOK ((img.set 0 1).set 2 0) = true

/-- 20_memory.md R70: a load gives the whole image of the last save, and no turn leaves a mixture: it leaves the saved
image as it was, or saves the whole image of the register file. -/
def Obligations.LoadReturnsTheLastSave : Prop :=
  (∀ (s : State) (img : List Byte), img.length = 50 → (s.nvmSave img).nvmLoad = img) ∧
  (∀ (s t : State) (e : Event), s.turn e = .next t → t.nvm = s.nvm ∨ (e = .fg ∧ t.nvmLoad = image s.par))

/-- R226: a register file in range with its checksum, saved and loaded again, comes back register for register; FG is
then at LOOP. The load is the fifteen micro-steps of R224. -/
def Obligations.SavedParametersLoadUnchanged : Prop :=
  ∀ (s : State) (p : Params), p.toParamVals.inRange = true → p.checksum = checksumOf p.toParamVals →
    s.alone → s.fg.phase = .loadImage →
    ∃ t, stepRun 15 (s.nvmSave (image p)) = .next t ∧ t.par = p ∧ t.fg.phase = .loop ∧
      t.xlog = s.xlog ∧ t.ctl = s.ctl ∧ t.nvmLoad = image p

/-- R228, R230: the image and checksum of the test-instance defaults; the erased image fails; the zero image passes and
its two bounded registers load as 1. -/
def Obligations.ImagesOfNote : Prop :=
  image (Params.ofDefaults Config.testInst) =
    [0x00, 0x00, 0x80, 0x3F] ++ List.replicate 20 0x00 ++ [0x00, 0x00, 0x7A, 0x44, 0x00, 0x00, 0xC8, 0x42] ++
      List.replicate 12 0x00 ++ [0x01, 0x00, 0x04, 0x00, 0x39, 0x39] ∧
  checksumOf ParamVals.testInst = 0x3939 ∧
  wordSum (List.replicate 50 0xFF) 25 = 0xFFE7 ∧ checksumOK (List.replicate 50 0xFF) = false ∧
  checksumOK (List.replicate 50 0x00) = true ∧
  clampHalf (parse (List.replicate 50 0x00)).cmdMultiplier 1 22 = 1 ∧
  clampHalf (parse (List.replicate 50 0x00)).ticksPerServoCycle 1 100 = 1 ∧
  ∀ r, (parse (List.replicate 50 0x00)).getFloat r = 0

/-! ## Commands -/

/-- 46_commands.md R240, 20_memory.md R77: at `dispatch` FG runs the command its decoder reads from `L.buf`, and in a
command the one it decoded, with nothing around it; where the environment presents FG's turn, with that turn taken
from the script (log 5, log 11). -/
def Obligations.StepRunsTheDecodedCommand : Prop :=
  ∀ (s : State) (i : Instr), s.halted = false →
    (s.fg.phase = .dispatch ∧ decodeLine s.lineBuf = i) ∨ ((∃ k, s.fg.phase = .command k) ∧ s.fg.instr = i) →
    (s.script = [] → step s = exec i s) ∧
    (∀ later, s.script = [.fg] :: later → step s = exec i { s with script := later })

/-- R240 to R262, all sixteen commands, every operand, both values of OPT_ATOMIC_CMD: from its start a command runs to
its end in its number of micro-steps with no fault and no refusal, and leaves its whole effect (`commandEffect`), the
line reset and the prompt. -/
def Obligations.EveryCommandCompletesWithItsEffect : Prop :=
  ∀ (i : Instr) (s : State), s.atCommandStart →
    (∃ u, exec i s = .next u) ∧
    execRun i (microCount s.cfg.optAtomicCmd i) s = .next ((commandEffect i s).commandDone i)

/-- R242, R245, R247 to R252, for SETP, SETD, SETFF0, SETFF1, SETB, SETM, SETF with a value: the first micro-step
writes the register; the six of them leave the register, the checksum, the saved image, the dump and the prompt. -/
def Obligations.SetRegCommandsComplete : Prop :=
  ∀ p ∈ ([(Instr.setp, .pgain), (Instr.setd, .dgain), (Instr.setff0, .ff0gain), (Instr.setff1, .ff1gain),
      (Instr.setb, .deadband), (Instr.setm, .maxOutput), (Instr.setf, .maxError)] :
      List ((Option Decimal → Instr) × FloatReg)),
    ∀ (d : Decimal) (s : State), s.atCommandStart → s.cfg.optAtomicCmd = false →
      exec (p.1 (some d)) s = .next { s with
        par := s.par.setFloat p.2 (s.num.decToNum d)
        fg := { s.fg with phase := .command 1, instr := p.1 (some d) } } ∧
      ∃ t, execRun (p.1 (some d)) 6 s = .next t ∧
        t.par.toParamVals = (s.par.setFloat p.2 (s.num.decToNum d)).toParamVals ∧
        t.par.checksum = checksumOf t.par.toParamVals ∧ t.nvmLoad = image t.par ∧
        t.tx = s.tx ++ ([.dump t.par, .prompt] : List TxEvent) ∧ t.lineReady = false ∧ t.fg.phase = .jerkTest ∧
        t = { s with par := t.par, nvm := t.nvm, tx := t.tx, lineReady := false, fg := t.fg }

/-- R246, SETI with a value: the integral is zeroed first, then the gain written, then SAVE. -/
def Obligations.SetIntegralGainCompletes : Prop :=
  ∀ (d : Decimal) (s : State), s.atCommandStart → s.cfg.optAtomicCmd = false →
    exec (.seti (some d)) s = .next { s with
      ctl := { s.ctl with errorIntegral := 0 }
      fg := { s.fg with phase := .command 1, instr := .seti (some d) } } ∧
    (∃ u, execRun (.seti (some d)) 2 s = .next u ∧ u.ctl.errorIntegral = 0 ∧ u.par.igain = s.num.decToNum d ∧
      u.par.checksum = s.par.checksum) ∧
    ∃ t, execRun (.seti (some d)) 7 s = .next t ∧
      t.ctl = { s.ctl with errorIntegral := 0 } ∧
      t.par.toParamVals = { s.par.toParamVals with igain := s.num.decToNum d } ∧
      t.par.checksum = checksumOf t.par.toParamVals ∧ t.nvmLoad = image t.par ∧
      t.tx = s.tx ++ ([.dump t.par, .prompt] : List TxEvent) ∧ t.lineReady = false ∧ t.fg.phase = .jerkTest ∧
      t = { s with ctl := t.ctl, par := t.par, nvm := t.nvm, tx := t.tx, lineReady := false, fg := t.fg }

/-- R253, R254, R255, SETX and SETT with a value: the register holds the operand clamped to 1..22 or 1..100, saved;
`T.cycleCount` is unchanged and nothing is recorded. -/
def Obligations.SetIntCommandsComplete : Prop :=
  ∀ (d : Decimal) (s : State), s.atCommandStart → s.cfg.optAtomicCmd = false →
    exec (.setx (some d)) s = .next { s with
      par := { s.par with cmdMultiplier := clampOperand d 1 22 }
      fg := { s.fg with phase := .command 1, instr := .setx (some d) } } ∧
    exec (.sett (some d)) s = .next { s with
      par := { s.par with ticksPerServoCycle := clampOperand d 1 100 }
      fg := { s.fg with phase := .command 1, instr := .sett (some d) } } ∧
    (∃ t, execRun (.setx (some d)) 6 s = .next t ∧
      t.par.toParamVals = { s.par.toParamVals with cmdMultiplier := clampOperand d 1 22 } ∧
      1 ≤ t.par.cmdMultiplier.toInt ∧ t.par.cmdMultiplier.toInt ≤ 22 ∧
      t.par.checksum = checksumOf t.par.toParamVals ∧ t.nvmLoad = image t.par ∧
      t.tx = s.tx ++ ([.dump t.par, .prompt] : List TxEvent) ∧
      t = { s with par := t.par, nvm := t.nvm, tx := t.tx, lineReady := false, fg := t.fg }) ∧
    (∃ t, execRun (.sett (some d)) 6 s = .next t ∧
      t.par.toParamVals = { s.par.toParamVals with ticksPerServoCycle := clampOperand d 1 100 } ∧
      1 ≤ t.par.ticksPerServoCycle.toInt ∧ t.par.ticksPerServoCycle.toInt ≤ 100 ∧
      t.par.checksum = checksumOf t.par.toParamVals ∧ t.nvmLoad = image t.par ∧
      t.tx = s.tx ++ ([.dump t.par, .prompt] : List TxEvent) ∧
      t = { s with par := t.par, nvm := t.nvm, tx := t.tx, lineReady := false, fg := t.fg })

/-- R256, R257, R258, SETJ, RDFB and LIST: the jerk register without a save or a dump; the feedback port itself; one
dump. -/
def Obligations.JerkFeedbackAndListComplete : Prop :=
  ∀ (d : Decimal) (s : State), s.atCommandStart →
    (∃ t, exec (.setj (some d)) s = .next { s with
        jerk := s.num.decToNum d, fg := { s.fg with phase := .command 1, instr := .setj (some d) } } ∧
      execRun (.setj (some d)) 3 s = .next t ∧ t.jerk = s.num.decToNum d ∧ t.tx = s.tx ++ ([.prompt] : List TxEvent) ∧
      t = { s with jerk := s.num.decToNum d, tx := t.tx, lineReady := false, fg := t.fg } ∧ t.fg.phase = .jerkTest) ∧
    (∃ t, exec .rdfb s = .next { s with
        fg := { s.fg with fbSample := s.fbCnt, phase := .command 1, instr := .rdfb } } ∧
      execRun .rdfb 5 s = .next t ∧ t.tx = s.tx ++ ([.feedback s.fbCnt, .dump s.par, .prompt] : List TxEvent) ∧
      t = { s with tx := t.tx, lineReady := false, fg := t.fg } ∧ t.fg.phase = .jerkTest) ∧
    (∃ t, exec .list s = .next { s with
        tx := s.tx ++ ([.dump s.par] : List TxEvent), fg := { s.fg with phase := .command 1, instr := .list } } ∧
      execRun .list 3 s = .next t ∧ t.tx = s.tx ++ ([.dump s.par, .prompt] : List TxEvent) ∧
      t = { s with tx := t.tx, lineReady := false, fg := t.fg } ∧ t.fg.phase = .jerkTest)

/-- R260, STAT: the seven values as they stood, with the two products, then the maximum reset. -/
def Obligations.StatCompletes : Prop :=
  ∀ s : State, s.atCommandStart → s.cfg.optAtomicCmd = false →
    exec .stat s = .next { s with
      fg := { s.fg with statError := s.ctl.error, phase := .command 1, instr := .stat } } ∧
    ∃ t, execRun .stat 12 s = .next t ∧
      t.tx = s.tx ++ ([.stat s.ctl.error (s.num.mul s.par.igain s.ctl.errorIntegral)
        (s.num.mul s.par.dgain s.ctl.errorDerivative) s.ctl.output s.ctl.inLimit s.ctl.fault s.ctl.maxObservedError,
        .dump s.par, .prompt] : List TxEvent) ∧
      t.ctl = { s.ctl with maxObservedError := 0 } ∧ t.fg.phase = .jerkTest ∧
      t = { s with ctl := t.ctl, tx := t.tx, lineReady := false, fg := t.fg }

/-- R261, ZERO: three registers one after another, nothing else. R262, 60_exceptions.md R303, HELP: the help text and
the record, no register. -/
def Obligations.ZeroAndHelpComplete : Prop :=
  ∀ (first : Option Byte) (s : State), s.atCommandStart →
    (s.cfg.optAtomicCmd = false →
      exec .zero s = .next { s with
        ctl := { s.ctl with cmdAcc := 0 }, fg := { s.fg with phase := .command 1, instr := .zero } } ∧
      (∃ u, execRun .zero 2 s = .next u ∧ u.ctl = { s.ctl with cmdAcc := 0, fbAcc := 0 }) ∧
      ∃ t, execRun .zero 6 s = .next t ∧ t.ctl = { s.ctl with cmdAcc := 0, fbAcc := 0, error := 0 } ∧
        t.tx = s.tx ++ ([.dump s.par, .prompt] : List TxEvent) ∧ t.fg.phase = .jerkTest ∧
        t = { s with ctl := t.ctl, tx := t.tx, lineReady := false, fg := t.fg }) ∧
    exec (.help first) s = .next { s with
      tx := s.tx ++ ([.help] : List TxEvent), xlog := s.xlog ++ ([.malformedCmd first] : List Exc)
      fg := { s.fg with phase := .command 1, instr := .help first } } ∧
    ∃ t, execRun (.help first) 3 s = .next t ∧ t.tx = s.tx ++ ([.help, .prompt] : List TxEvent) ∧
      t.xlog = s.xlog ++ ([.malformedCmd first] : List Exc) ∧ t.fg.phase = .jerkTest ∧
      t = { s with tx := t.tx, xlog := t.xlog, lineReady := false, fg := t.fg }

/-- R244: a command of format F or I without a value writes no register and saves nothing; its dump is emitted, but not
for SETJ. -/
def Obligations.AbsentValueWritesNothing : Prop :=
  (∀ mk ∈ ([.setp, .seti, .setd, .setff0, .setff1, .setb, .setm, .setf, .setx, .sett] :
      List (Option Decimal → Instr)), ∀ s : State, s.atCommandStart →
    (∃ u, exec (mk none) s = .next u ∧ u.tx = s.tx ++ ([.dump s.par] : List TxEvent)) ∧
    ∃ t, execRun (mk none) 3 s = .next t ∧ t.tx = s.tx ++ ([.dump s.par, .prompt] : List TxEvent) ∧
      t.fg.phase = .jerkTest ∧ t = { s with tx := t.tx, lineReady := false, fg := t.fg }) ∧
  (∀ s : State, s.atCommandStart →
    (∃ u, exec (.setj none) s = .next u ∧ u.tx = s.tx) ∧
    ∃ t, execRun (.setj none) 2 s = .next t ∧ t.tx = s.tx ++ ([.prompt] : List TxEvent) ∧ t.fg.phase = .jerkTest ∧
      t = { s with tx := t.tx, lineReady := false, fg := t.fg })

/-- R243: with OPT_ATOMIC_CMD the first micro-step of a command is its whole span, from its first register access to
its last register write, the checksum's included; neither the save nor any output is in it. -/
def Obligations.AtomicSpansAreOneMicroStep : Prop :=
  ∀ (d : Decimal) (s : State), s.atCommandStart → s.cfg.optAtomicCmd = true →
    (∀ p ∈ ([(Instr.setp, .pgain), (Instr.setd, .dgain), (Instr.setff0, .ff0gain), (Instr.setff1, .ff1gain),
        (Instr.setb, .deadband), (Instr.setm, .maxOutput), (Instr.setf, .maxError)] :
        List ((Option Decimal → Instr) × FloatReg)),
      ∃ t, exec (p.1 (some d)) s = .next t ∧ t.par.getFloat p.2 = s.num.decToNum d ∧
        t.par.checksum = checksumOf t.par.toParamVals ∧ t.nvm = s.nvm ∧ t.tx = s.tx) ∧
    (∃ t, exec (.seti (some d)) s = .next t ∧ t.ctl.errorIntegral = 0 ∧ t.par.igain = s.num.decToNum d ∧
      t.par.checksum = checksumOf t.par.toParamVals ∧ t.nvm = s.nvm ∧ t.tx = s.tx) ∧
    (∃ t, exec (.setx (some d)) s = .next t ∧ t.par.cmdMultiplier = clampOperand d 1 22 ∧
      t.par.checksum = checksumOf t.par.toParamVals ∧ t.nvm = s.nvm ∧ t.tx = s.tx) ∧
    (∃ t, exec (.sett (some d)) s = .next t ∧ t.par.ticksPerServoCycle = clampOperand d 1 100 ∧
      t.par.checksum = checksumOf t.par.toParamVals ∧ t.nvm = s.nvm ∧ t.tx = s.tx) ∧
    (∃ t, exec (.setj (some d)) s = .next t ∧ t.jerk = s.num.decToNum d ∧ t.nvm = s.nvm ∧ t.tx = s.tx) ∧
    (∃ t, exec .rdfb s = .next t ∧ t.fg.fbSample = s.fbCnt ∧ t.tx = s.tx) ∧
    (∃ t, exec .stat s = .next t ∧ t.fg.statError = s.ctl.error ∧ t.fg.statIntegral = s.ctl.errorIntegral ∧
      t.fg.statDerivative = s.ctl.errorDerivative ∧ t.fg.statOutput = s.ctl.output ∧
      t.fg.statLimit = s.ctl.inLimit ∧ t.fg.statFault = s.ctl.fault ∧ t.fg.statMax = s.ctl.maxObservedError ∧
      t.ctl = { s.ctl with maxObservedError := 0 } ∧ t.nvm = s.nvm ∧ t.tx = s.tx) ∧
    (∃ t, exec .zero s = .next t ∧ t.ctl = { s.ctl with cmdAcc := 0, fbAcc := 0, error := 0 } ∧ t.nvm = s.nvm ∧
      t.tx = s.tx)

/-- The frame of SETP, SETD, SETFF0, SETFF1, SETB, SETM, SETF, SETI, SETX and SETT, any operand and any micro-step:
only the command's register, the checksum, SETI's integral, the saved image at offsets 0 to 49, the text, the line
flag and FG's phase and decoded line may change (R245 to R255). -/
def Obligations.ParameterCommandFrame : Prop :=
  ∀ (q : Option Decimal) (s t : State),
    (∀ p ∈ ([(Instr.setp, .pgain), (Instr.setd, .dgain), (Instr.setff0, .ff0gain), (Instr.setff1, .ff1gain),
        (Instr.setb, .deadband), (Instr.setm, .maxOutput), (Instr.setf, .maxError), (Instr.seti, .igain)] :
        List ((Option Decimal → Instr) × FloatReg)), exec (p.1 q) s = .next t →
      CommandFrame s t ∧ storesImageOnly s t ∧
      t.fg = { s.fg with phase := t.fg.phase, instr := t.fg.instr } ∧
      t.jerk = s.jerk ∧ t.xlog = s.xlog ∧ t.ctl = { s.ctl with errorIntegral := t.ctl.errorIntegral } ∧
      (p.2 ≠ .igain → t.ctl = s.ctl) ∧
      (∀ r, r ≠ p.2 → t.par.getFloat r = s.par.getFloat r) ∧ t.par.cmdMultiplier = s.par.cmdMultiplier ∧
      t.par.ticksPerServoCycle = s.par.ticksPerServoCycle ∧
      (q = none → t.par = s.par ∧ t.ctl = s.ctl ∧ storesNothing s t)) ∧
    (exec (.setx q) s = .next t →
      CommandFrame s t ∧ storesImageOnly s t ∧
      t.fg = { s.fg with phase := t.fg.phase, instr := t.fg.instr } ∧ t.jerk = s.jerk ∧ t.xlog = s.xlog ∧
      t.ctl = s.ctl ∧ (∀ r, t.par.getFloat r = s.par.getFloat r) ∧
      t.par.ticksPerServoCycle = s.par.ticksPerServoCycle ∧ (q = none → t.par = s.par ∧ storesNothing s t)) ∧
    (exec (.sett q) s = .next t →
      CommandFrame s t ∧ storesImageOnly s t ∧
      t.fg = { s.fg with phase := t.fg.phase, instr := t.fg.instr } ∧ t.jerk = s.jerk ∧ t.xlog = s.xlog ∧
      t.ctl = s.ctl ∧ (∀ r, t.par.getFloat r = s.par.getFloat r) ∧
      t.par.cmdMultiplier = s.par.cmdMultiplier ∧ (q = none → t.par = s.par ∧ storesNothing s t))

/-- The frame of SETJ, RDFB, LIST, STAT, ZERO and HELP, any operand and any micro-step: no register of `P` and no byte
of the saved image changes, and of the other registers only those named here (R256 to R262). -/
def Obligations.DiagnosticCommandFrame : Prop :=
  ∀ (q : Option Decimal) (first : Option Byte) (s t : State),
    (exec (.setj q) s = .next t → CommandFrame s t ∧ storesNothing s t ∧ t.par = s.par ∧ t.ctl = s.ctl ∧
      t.xlog = s.xlog ∧ t.fg = { s.fg with phase := t.fg.phase, instr := t.fg.instr } ∧ (q = none → t.jerk = s.jerk)) ∧
    (exec .rdfb s = .next t → CommandFrame s t ∧ storesNothing s t ∧ t.par = s.par ∧ t.ctl = s.ctl ∧
      t.xlog = s.xlog ∧ t.jerk = s.jerk ∧
      t.fg = { s.fg with phase := t.fg.phase, instr := t.fg.instr, fbSample := t.fg.fbSample }) ∧
    (exec .list s = .next t → CommandFrame s t ∧ storesNothing s t ∧ t.par = s.par ∧ t.ctl = s.ctl ∧
      t.xlog = s.xlog ∧ t.jerk = s.jerk ∧ t.fg = { s.fg with phase := t.fg.phase, instr := t.fg.instr }) ∧
    (exec .stat s = .next t → CommandFrame s t ∧ storesNothing s t ∧ t.par = s.par ∧ t.xlog = s.xlog ∧
      t.jerk = s.jerk ∧ t.fg.fbSample = s.fg.fbSample ∧
      t.ctl = { s.ctl with maxObservedError := t.ctl.maxObservedError }) ∧
    (exec .zero s = .next t → CommandFrame s t ∧ storesNothing s t ∧ t.par = s.par ∧ t.xlog = s.xlog ∧
      t.jerk = s.jerk ∧ t.fg = { s.fg with phase := t.fg.phase, instr := t.fg.instr } ∧
      t.ctl = { s.ctl with cmdAcc := t.ctl.cmdAcc, fbAcc := t.ctl.fbAcc, error := t.ctl.error }) ∧
    (exec (.help first) s = .next t → CommandFrame s t ∧ storesNothing s t ∧ t.par = s.par ∧ t.ctl = s.ctl ∧
      t.jerk = s.jerk ∧ t.fg = { s.fg with phase := t.fg.phase, instr := t.fg.instr })

/-- R263, R241, R269: whatever ticks and level changes fall between its micro-steps, a dispatched line produces the
text events of its row in their order and no others, its line is reset and FG goes on with the jerk test. A next line
may come between the line reset and the prompt (any earlier one has no move, R43): it changes nothing of this, and is
pending at the end. -/
def Obligations.EveryLineGetsItsResponse : Prop :=
  ∀ (es : List Event) (s : State), s.halted = false → s.fg.phase = .dispatch →
    (∀ e ∈ es, e.interleaves = true ∨ ∃ bytes, e = .line bytes) →
    es.count .fg = microCount s.cfg.optAtomicCmd (decodeLine s.lineBuf) → es.getLast? = some .fg →
    ((∀ e ∈ es, e.interleaves = true) →
      ∃ t, runTurns es s = .next t ∧ t.fg.phase = .jerkTest ∧ t.lineReady = false ∧
        t.tx.map TxEvent.kind = s.tx.map TxEvent.kind ++ response (decodeLine s.lineBuf)) ∧
    (∀ t, s.lineReady = true → runTurns es s = .next t → t.fg.phase = .jerkTest ∧
      t.tx.map TxEvent.kind = s.tx.map TxEvent.kind ++ response (decodeLine s.lineBuf) ∧
      (t.lineReady = true ↔ ∃ bytes, Event.line bytes ∈ es))

/-! ## The supervisory sequencer -/

/-- 47_supervisor.md R280, R281, 45_param_store.md R224, 60_exceptions.md R301: BOOT0 to BOOT2 in three micro-steps;
then a valid image is loaded and FG is at LOOP, or an invalid one leaves the defaults, is recorded, and FG is in
CFG_HOLD; the controller is disabled in either case and the saved image is unchanged. -/
def Obligations.BootSequence : Prop :=
  ∀ s : State, s.alone → s.fg.phase = .boot0 →
    (∃ t, stepRun 3 s = .next t ∧ t.fg.phase = .loadImage ∧ t.par = Params.ofDefaults s.cfg ∧
      t.ctl = { s.ctl with enabled := false } ∧ t.isrOn = true ∧ t.nvm = s.nvm) ∧
    (checksumOK s.nvmLoad = true →
      ∃ t, stepRun 18 s = .next t ∧ t.fg.phase = .loop ∧ t.ctl.enabled = false ∧ t.nvm = s.nvm ∧ t.xlog = s.xlog ∧
        (∀ r, t.par.getFloat r = (parse s.nvmLoad).getFloat r) ∧
        t.par.cmdMultiplier.toInt = clampInt (parse s.nvmLoad).cmdMultiplier.toInt 1 22 ∧
        t.par.ticksPerServoCycle.toInt = clampInt (parse s.nvmLoad).ticksPerServoCycle.toInt 1 100 ∧
        t.par.checksum = checksumOf t.par.toParamVals ∧
        ((parse s.nvmLoad).toParamVals.inRange = true → t.par = parse s.nvmLoad)) ∧
    (checksumOK s.nvmLoad = false →
      ∃ t, stepRun 5 s = .next t ∧ t.fg.phase = .holdTest ∧ t.fg.cfgMissing = true ∧ t.ctl.enabled = false ∧
        t.par = Params.ofDefaults s.cfg ∧ t.nvm = s.nvm ∧ t.xlog = s.xlog ++ ([.cfgIntegrity s.nvmLoad] : List Exc))

/-- R282, R283: without a line the hold toggles the indicator and waits `BLINK_T2`; with one it clears the indicator and
the missing flag and FG dispatches the line with the parameters as they are; `S.enabled` is not written. -/
def Obligations.ConfigurationHold : Prop :=
  ∀ s : State, s.alone → s.fg.phase = .holdTest →
    (s.lineReady = false →
      ∃ t, stepRun 3 s = .next t ∧ t.ind = (!s.ind) ∧ t.delayCnt = s.cfg.blinkT2 ∧
        t.fg.phase = .delayTest .blink ∧ t.ctl = s.ctl ∧ t.par = s.par ∧ t.fg.cfgMissing = s.fg.cfgMissing) ∧
    (s.lineReady = true →
      ∃ t, stepRun 4 s = .next t ∧ t.ind = false ∧ t.fg.cfgMissing = false ∧ t.fg.phase = .dispatch ∧
        t.lineReady = true ∧ t.lineBuf = s.lineBuf ∧ t.ctl = s.ctl ∧ t.par = s.par)

/-- R284, R286, R288, R289, R290: the branches of LOOP and of the enable mirror. -/
def Obligations.MainLoopAndEnableMirror : Prop :=
  ∀ s : State, s.alone →
    (s.fg.phase = .loop → ∃ t, step s = .next t ∧
      t.fg.phase = (if s.lineReady then .dispatch else .jerkTest) ∧ t = { s with fg := t.fg }) ∧
    (s.fg.phase = .jerkTest → ∃ t, step s = .next t ∧
      (s.num.isZero s.jerk = true → t = { s with fg := { s.fg with phase := .mirror } }) ∧
      (s.num.isZero s.jerk = false →
        t = { s with fg := { s.fg with phase := .jerkGo, jI := s.num.satTrunc32 s.jerk } })) ∧
    (s.fg.phase = .mirror → s.enIn = true → s.ctl.enabled = false → ∃ t, stepRun 4 s = .next t ∧
      t.ctl = { s.ctl with enabled := true } ∧ t.tx = s.tx ++ ([.enabled] : List TxEvent) ∧
      t.delayCnt = s.cfg.settleT2 ∧ t.fg.phase = .delayTest .settle) ∧
    (s.fg.phase = .mirror → s.enIn = false → s.ctl.enabled = true → ∃ t, stepRun 3 s = .next t ∧
      t.ctl = { s.ctl with enabled := false } ∧ t.tx = s.tx ++ ([.disabled] : List TxEvent) ∧ t.fg.phase = .loop) ∧
    (s.fg.phase = .mirror → s.enIn = s.ctl.enabled → ∃ t, step s = .next t ∧
      t = { s with fg := { s.fg with phase := .loop, lvl := s.enIn } })

/-- R286, R287, R291: with no line and the enable level up, the test adds `jI`, waits `JERK_T2` secondary ticks,
subtracts it and waits again, for every `JERK_T2`: so a pair with no other step between leaves the accumulator as it
was, and is at the test's top again; with a line or the level down it returns to the enable mirror at once, nothing
written. -/
def Obligations.JerkPairRestoresTheAccumulator : Prop :=
  ∀ s : State, s.alone → s.fg.phase = .jerkGo →
    (s.lineReady = true ∨ s.enIn = false →
      step s = .next { s with fg := { s.fg with phase := .mirror } }) ∧
    (s.lineReady = false → s.enIn = true →
      (∃ t, stepRun 4 s = .next t ∧
        t.ctl = { s.ctl with cmdAcc := s.cfg.wrapAcc (s.ctl.cmdAcc + s.fg.jI.toInt) } ∧
        t.delayCnt = s.cfg.jerkT2 ∧ t.fg.phase = .delayTest .jerkAdded) ∧
      (s.isrOn = true ∨ s.cfg.jerkT2 = 0 → s.inWidths = true → s.cfg.wf = true →
        (∃ t, runTurns (jerkHalf s.cfg.jerkT2.toNat) s = .next t ∧
          t.ctl = { s.ctl with cmdAcc := s.cfg.wrapAcc (s.ctl.cmdAcc + s.fg.jI.toInt) } ∧ t.fg.phase = .jerkRead true ∧
          t.delayCnt = 0) ∧
        ∃ t, runTurns (jerkHalf s.cfg.jerkT2.toNat ++ (jerkHalf s.cfg.jerkT2.toNat).tail) s = .next t ∧
          t.ctl = s.ctl ∧ t.fg.phase = .jerkGo ∧ t.trk = s.trk ∧ t.par = s.par ∧ t.tx = s.tx))

/-- 20_memory.md R76, 70_reset_and_hazards.md R344: a tick between the read and the write of the jerk test, control
cycle or not, leaves no trace in the command accumulator. -/
def Obligations.JerkLosesAnInterveningDelta : Prop :=
  ∀ (s t : State) (sub : Bool), s.halted = false → s.fg.phase = .jerkRead sub →
    runTurns [.fg, .tick, .fg] s = .next t →
    t.ctl.cmdAcc = s.cfg.wrapAcc (if sub then s.ctl.cmdAcc - s.fg.jI.toInt else s.ctl.cmdAcc + s.fg.jI.toInt)

/-- 60_exceptions.md R311, R291, R292: `DELAY(N)` loads `N`; each secondary tick takes one off and stops at 0; the test
returns exactly when `N` of them have come. R282, R286, R284, R289: the four delays, each with its `N` and with the
place it returns to: the hold's test, the jerk's subtraction, the top of the jerk's loop, LOOP. -/
def Obligations.DelayCountsSecondaryTicks : Prop :=
  ∀ (s : State) (d : DelaySite) (k : Nat), s.halted = false → s.isrOn = true → s.fg.phase = .delayLoad d →
    ∃ (n : Half) (back : Phase) (t : State),
      (d = .blink → n = s.cfg.blinkT2 ∧ back = .holdTest) ∧
      (d = .jerkAdded → n = s.cfg.jerkT2 ∧ back = .jerkRead true) ∧
      (d = .jerkSubtracted → n = s.cfg.jerkT2 ∧ back = .jerkGo) ∧
      (d = .settle → n = s.cfg.settleT2 ∧ back = .loop) ∧
      runTurns (.fg :: List.replicate k .tick2) s = .next t ∧
      t.delayCnt.toNat = n.toNat - k ∧
      t = { s with delayCnt := t.delayCnt, fg := { s.fg with phase := .delayTest d } } ∧
      (k < n.toNat → t.turn .fg = .next t) ∧
      (n.toNat ≤ k → t.turn .fg = .next { t with fg := { t.fg with phase := back } })

/-! ## Exceptions, reset, order -/

/-- 60_exceptions.md R306, 10_state.md R48: the halt entry; then no turn but reset changes anything but the input
levels, which belong to the environment (log 9). -/
def Obligations.HaltEntryAndHaltedBlock : Prop :=
  (∀ s : State, s.halted = false → ∃ t, s.turn .envFault = .next t ∧
    t = { s with halted := true, pwmPos := 0, pwmNeg := 0, isrOn := false, xlog := s.xlog ++ ([.fatalEnv] : List Exc),
                 dutyTrace := t.dutyTrace }) ∧
  (∀ (es : List Event) (s : State), s.halted = true → .reset ∉ es → ∃ c f e,
    runTurns es s = .next { s with cmdCnt := c, fbCnt := f, enIn := e })

/-- 70_reset_and_hazards.md R330, R331, 60_exceptions.md R313: a reset among the events of an instant, in any state,
halted included, is the next step: every register of the block at its reset value, the saved image and the input
levels unchanged. -/
def Obligations.ResetOverridesEverything : Prop :=
  ∀ (s : State) (g : List Event) (later : List (List Event)), s.script = g :: later → .reset ∈ g →
    ∃ t, step s = .next t ∧
      t.par.toParamVals = s.cfg.defaults ∧ t.par.checksum = checksumOf s.cfg.defaults ∧
      t.ctl = { cmdAcc := 0, fbAcc := 0, prevCommand := 0, error := 0, errorIntegral := 0, prevError := 0,
                errorDerivative := 0, commandDerivative := 0, output := 0, enabled := false, inLimit := false,
                maxObservedError := 0, fault := false } ∧
      t.jerk = 0 ∧ t.trk = { lastCmdRaw := 0, lastFbRaw := 0, cycleCount := 0, prevEnabled := false } ∧
      t.delayCnt = 0 ∧ t.lineReady = false ∧ t.lineBuf = [] ∧ t.fg.cfgMissing = false ∧ t.ind = false ∧
      t.isrOn = false ∧ t.halted = false ∧ t.pwmPos = 0 ∧ t.pwmNeg = 0 ∧ t.tx = [] ∧ t.xlog = [] ∧
      t.fg.phase = .boot0 ∧ t.nvm = s.nvm ∧ t.cmdCnt = s.cmdCnt ∧ t.fbCnt = s.fbCnt ∧ t.enIn = s.enIn ∧
      t.cfg = s.cfg

/-- R313: of the events of one instant the step takes one of the highest priority; the ranks are the rule's order. That
the others are left, in number and kind, for the next steps, a reset's among them, and that events of one rank go as
they are listed, is the model's choice (log 6). -/
def Obligations.SimultaneousEventsAreTakenInOrder : Prop :=
  (∀ (s : State) (g : List Event) (later : List (List Event)), s.script = g :: later → g ≠ [] →
    ∃ before e after, g = before ++ e :: after ∧ (∀ f ∈ before, e.rank < f.rank) ∧ (∀ f ∈ after, e.rank ≤ f.rank) ∧
      step s = ({ s with
        script := if before ++ after = [] then later else (before ++ after) :: later }).turn e) ∧
  (∀ (bytes : List Byte) (c f : Count) (b : Bool),
    Event.reset.rank < Event.envFault.rank ∧ Event.envFault.rank < Event.tick.rank ∧
    Event.tick.rank < Event.tick2.rank ∧ Event.tick2.rank < (Event.line bytes).rank ∧
    (Event.line bytes).rank < (Event.cmdCnt c).rank ∧ (Event.cmdCnt c).rank = (Event.fbCnt f).rank ∧
    (Event.fbCnt f).rank = (Event.en b).rank ∧ (Event.en b).rank < Event.fg.rank)

/-- 60_exceptions.md R305: every turn but the delivery of a line answers a next state. 10_state.md R43, R48,
30_encoding.md R90, 93_implementation_defined.md I18, I19: a halted block ignores a line; a running block accepts, whole,
a line of at most `LINE_MAX` bytes when none is pending; a line while one is pending, and a longer line, are refused,
each under its name. That these two stop the model by name is its choice (log 7). -/
def Obligations.OnlyLinesAreRefused : Prop :=
  (∀ (s : State) (e : Event), (∀ bytes, e ≠ .line bytes) → ∃ t, s.turn e = .next t) ∧
  (∀ (s : State) (bytes : List Byte),
    (s.halted = true → s.turn (.line bytes) = .next s) ∧
    (s.halted = false → s.lineReady = true → s.turn (.line bytes) = .refused .lineWhilePending) ∧
    (s.halted = false → s.lineReady = false → s.cfg.lineMax < bytes.length →
      s.turn (.line bytes) = .refused .lineTooLong) ∧
    (s.halted = false → s.lineReady = false → bytes.length ≤ s.cfg.lineMax →
      s.turn (.line bytes) = .next { s with lineBuf := bytes, lineReady := true }))

/-- R314: a turn adds at most one record, and each agent only its own kind. That MALFORMED_CMD is recorded in HELP's first
micro-step and CFG_INTEGRITY in the one that sets `FG.cfgMissing` is the model's choice (log 10). -/
def Obligations.AtMostOneExceptionAStep : Prop :=
  ∀ (s t : State) (e : Event), s.turn e = .next t → e ≠ .reset →
    t.xlog = s.xlog ∨
      ∃ x, t.xlog = s.xlog ++ ([x] : List Exc) ∧
        ((e = .tick ∧ x = .positionFault t.ctl.error) ∨
          (e = .envFault ∧ x = .fatalEnv) ∨
          (e = .fg ∧ s.fg.phase = .loadMissing ∧ x = .cfgIntegrity s.fg.img) ∨
          (e = .fg ∧ s.microIndex = 0 ∧ ∃ first, s.fetch = some (.help first) ∧ x = .malformedCmd first))

/-- 10_state.md R24, R31, 60_exceptions.md R315, R318: what each context may write. ISR1 writes `S` but for `enabled`,
`T`, the duty registers and the log; ISR2 only takes from `D.delayCnt`; FG writes the rest, and of `S` only `enabled`
and the five places that R31 names; no event but FG's turn and reset writes `P`. R20, R312: a change of an input level
sets that level and nothing else, of a counter modulo 2^CNT_W (log 24), of a halted block too (the model's choice,
log 9). -/
def Obligations.WriteOwnership : Prop :=
  (∀ s t : State, s.turn .tick = .next t →
    t = { s with ctl := t.ctl, trk := t.trk, pwmPos := t.pwmPos, pwmNeg := t.pwmNeg, dutyTrace := t.dutyTrace,
                 xlog := t.xlog } ∧ t.ctl.enabled = s.ctl.enabled) ∧
  (∀ s t : State, s.turn .tick2 = .next t → t = { s with delayCnt := t.delayCnt } ∧ t.delayCnt ≤ s.delayCnt) ∧
  (∀ s t : State, s.turn .fg = .next t →
    t = { s with par := t.par, jerk := t.jerk, ctl := t.ctl, fg := t.fg, delayCnt := t.delayCnt,
                 lineReady := t.lineReady, ind := t.ind, isrOn := t.isrOn, tx := t.tx, xlog := t.xlog, nvm := t.nvm } ∧
    (t.lineReady = true → s.lineReady = true) ∧
    t.ctl = { s.ctl with cmdAcc := t.ctl.cmdAcc, fbAcc := t.ctl.fbAcc, error := t.ctl.error,
                         errorIntegral := t.ctl.errorIntegral, maxObservedError := t.ctl.maxObservedError,
                         enabled := t.ctl.enabled } ∧
    (t.ctl.errorIntegral ≠ s.ctl.errorIntegral → t.ctl.errorIntegral = 0 ∧ ∃ q, s.fetch = some (.seti q)) ∧
    (t.ctl.fbAcc ≠ s.ctl.fbAcc → t.ctl.fbAcc = 0 ∧ s.fetch = some .zero) ∧
    (t.ctl.error ≠ s.ctl.error → t.ctl.error = 0 ∧ s.fetch = some .zero) ∧
    (t.ctl.maxObservedError ≠ s.ctl.maxObservedError → t.ctl.maxObservedError = 0 ∧ s.fetch = some .stat) ∧
    (t.ctl.cmdAcc ≠ s.ctl.cmdAcc →
      (t.ctl.cmdAcc = 0 ∧ s.fetch = some .zero) ∨ ∃ sub, s.fg.phase = .jerkWrite sub)) ∧
  (∀ (s t : State) (e : Event), s.turn e = .next t → e ≠ .fg → e ≠ .reset → t.par = s.par) ∧
  (∀ (s : State) (v : Count) (b : Bool),
    s.turn (.cmdCnt v) = .next { s with cmdCnt := v % 2 ^ s.cfg.cntW } ∧
    s.turn (.fbCnt v) = .next { s with fbCnt := v % 2 ^ s.cfg.cntW } ∧
    s.turn (.en b) = .next { s with enIn := b })

/-- Every step of every agent keeps the block's invariant (10_state.md R23, R43 to R46, R48, 43_scheduler.md R171,
44_enable_fsm.md R207, 47_supervisor.md R285). -/
def Obligations.EveryStepKeepsTheInvariant : Prop :=
  ∀ s t : State, Inv s → step s = .next t → Inv t

/-- Both invariants hold after reset. The values of the open parameters in `State.reset` are the model's choice (log 1,
log 2). -/
def Obligations.ResetMeetsTheInvariants : Prop := Inv State.reset ∧ DutyInv State.reset

/-! ## Text output -/

/-- 46_commands.md R271, R272: the bytes of every text event, line by line, under any `Num`; after `p2.5` the dump's
first line is the one the source fixes. The conversions: a decimal without leading zeros; four upper-case hex digits
(0xD8FF is `D8FF`);
`%f` of every finite binary32 number (the exact value in millionths to nearest, ties to even, sign for every negative
pattern), of the infinities and of a NaN of each sign; the examples of R272. -/
def Obligations.RenderingIsAsTheRuleSays : Prop :=
  (∀ (c : Config) (p : Params),
    renderEvent c (.dump p) = ([
      asc "(p) = " ++ c.arith.render p.pgain, asc "(i) = " ++ c.arith.render p.igain,
      asc "(d) = " ++ c.arith.render p.dgain, asc "(0) = " ++ c.arith.render p.ff0gain,
      asc "(1) = " ++ c.arith.render p.ff1gain, asc "(b) = " ++ c.arith.render p.deadband,
      asc "(m) = " ++ c.arith.render p.maxOutput, asc "(f) = " ++ c.arith.render p.maxError,
      asc "(mi) = " ++ c.arith.render p.maxIntegralError, asc "(md) = " ++ c.arith.render p.maxDerivError,
      asc "(mc) = " ++ c.arith.render p.maxCmdDeriv, asc "(x) = " ++ fmtInt p.cmdMultiplier.toInt,
      asc "(t) = " ++ fmtInt p.ticksPerServoCycle.toInt, asc "(cs) = 0x" ++ fmtHex p.checksum] :
      List (List Byte)).flatMap (· ++ [0x0D, 0x0A]) ∧
    (c.num = .binary32 → p.pgain = 0x40200000 →
      (renderEvent c (.dump p)).take 16 = asc "(p) = 2.500000" ++ [0x0D, 0x0A])) ∧
  (∀ (c : Config) (v : Count) (e : Accum) (iterm dterm out : Num32) (lim flt : Bool) (mx : Count),
    renderEvent c (.feedback v) = asc "fb = " ++ natBytes v ++ [0x0D, 0x0A] ∧
    renderEvent c (.stat e iterm dterm out lim flt mx) = ([
      asc "err = " ++ fmtInt e, asc "iterm = " ++ c.arith.render iterm, asc "dterm = " ++ c.arith.render dterm,
      asc "out = " ++ c.arith.render out, asc "limit = " ++ (if lim then asc "1" else asc "0"),
      asc "fault = " ++ (if flt then asc "1" else asc "0"), asc "maxerr = " ++ natBytes mx] :
      List (List Byte)).flatMap (· ++ [0x0D, 0x0A]) ∧
    renderEvent c .prompt = [0x3E] ∧ renderEvent c .help = c.helpText ++ [0x0D, 0x0A] ∧
    renderEvent c .enabled = asc "enabled" ++ [0x0D, 0x0A] ∧
    renderEvent c .disabled = asc "disabled" ++ [0x0D, 0x0A]) ∧
  (∀ n : Nat, ∃ ds : List Nat, natBytes n = ds.map (fun d => BitVec.ofNat 8 (0x30 + d)) ∧ (∀ d ∈ ds, d < 10) ∧ digitsVal ds = n ∧ ds ≠ [] ∧
    (ds.head? = some 0 → ds = [0])) ∧
  (∀ x : Int, fmtInt x = if x < 0 then 0x2D :: natBytes x.natAbs else natBytes x.natAbs) ∧
  (∀ w : Half, ∃ ds : List Nat,
    fmtHex w = ds.map (fun d => BitVec.ofNat 8 (if d < 10 then 0x30 + d else 0x41 + (d - 10))) ∧
    ds.length = 4 ∧ (∀ d ∈ ds, d < 16) ∧ ds.foldl (fun a d => 16 * a + d) 0 = w.toNat) ∧
  (∀ (c : Config) (r : Num32), c.num = .binary32 →
    (isFinite r = true → ∃ (n : Nat) (frac : List Nat),
      |(n : ℚ) - |numValue r| * 10 ^ 6| ≤ 1 / 2 ∧ (|(n : ℚ) - |numValue r| * 10 ^ 6| = 1 / 2 → n % 2 = 0) ∧
      frac.length = 6 ∧ (∀ d ∈ frac, d < 10) ∧ digitsVal frac = n % 10 ^ 6 ∧
      c.arith.render r =
        (if r.sign then [0x2D] else []) ++ natBytes (n / 10 ^ 6) ++ [0x2E] ++
          frac.map (fun d => BitVec.ofNat 8 (0x30 + d))) ∧
    (r.isInf = true → c.arith.render r = if r.sign then asc "-inf" else asc "inf") ∧
    (r.isNaN = true → c.arith.render r = if r.sign then asc "-nan" else asc "nan")) ∧
  fmtHex 0xD8FF = [0x44, 0x38, 0x46, 0x46] ∧
  fmtFloat 0x40200000 = [0x32, 0x2E, 0x35, 0x30, 0x30, 0x30, 0x30, 0x30] ∧ fmtFloat 0x40200000 = asc "2.500000" ∧ fmtFloat 0x3C23D70A = asc "0.010000" ∧
  fmtFloat 0x447A0000 = asc "1000.000000" ∧ fmtFloat 0x80000000 = asc "-0.000000"

end
end

