-- ==== Sys2Proof/Laws/State.lean ====
section
/-! SUPPORT. What each register update leaves in each field of the state, one lemma a field, so that no later proof
unfolds a record update. -/

namespace Sys2Proof.Machine

/-! ## `goto` -/

@[simp] theorem State.goto_cfg (s : State) (p : Phase) : (s.goto p).cfg = s.cfg := rfl
@[simp] theorem State.goto_par (s : State) (p : Phase) : (s.goto p).par = s.par := rfl
@[simp] theorem State.goto_jerk (s : State) (p : Phase) : (s.goto p).jerk = s.jerk := rfl
@[simp] theorem State.goto_ctl (s : State) (p : Phase) : (s.goto p).ctl = s.ctl := rfl
@[simp] theorem State.goto_trk (s : State) (p : Phase) : (s.goto p).trk = s.trk := rfl
@[simp] theorem State.goto_fg (s : State) (p : Phase) : (s.goto p).fg = { s.fg with phase := p } := rfl
@[simp] theorem State.goto_delayCnt (s : State) (p : Phase) : (s.goto p).delayCnt = s.delayCnt := rfl
@[simp] theorem State.goto_lineReady (s : State) (p : Phase) : (s.goto p).lineReady = s.lineReady := rfl
@[simp] theorem State.goto_lineBuf (s : State) (p : Phase) : (s.goto p).lineBuf = s.lineBuf := rfl
@[simp] theorem State.goto_ind (s : State) (p : Phase) : (s.goto p).ind = s.ind := rfl
@[simp] theorem State.goto_isrOn (s : State) (p : Phase) : (s.goto p).isrOn = s.isrOn := rfl
@[simp] theorem State.goto_halted (s : State) (p : Phase) : (s.goto p).halted = s.halted := rfl
@[simp] theorem State.goto_pwmPos (s : State) (p : Phase) : (s.goto p).pwmPos = s.pwmPos := rfl
@[simp] theorem State.goto_pwmNeg (s : State) (p : Phase) : (s.goto p).pwmNeg = s.pwmNeg := rfl
@[simp] theorem State.goto_dutyTrace (s : State) (p : Phase) : (s.goto p).dutyTrace = s.dutyTrace := rfl
@[simp] theorem State.goto_tx (s : State) (p : Phase) : (s.goto p).tx = s.tx := rfl
@[simp] theorem State.goto_xlog (s : State) (p : Phase) : (s.goto p).xlog = s.xlog := rfl
@[simp] theorem State.goto_nvm (s : State) (p : Phase) : (s.goto p).nvm = s.nvm := rfl
@[simp] theorem State.goto_cmdCnt (s : State) (p : Phase) : (s.goto p).cmdCnt = s.cmdCnt := rfl
@[simp] theorem State.goto_fbCnt (s : State) (p : Phase) : (s.goto p).fbCnt = s.fbCnt := rfl
@[simp] theorem State.goto_enIn (s : State) (p : Phase) : (s.goto p).enIn = s.enIn := rfl
@[simp] theorem State.goto_script (s : State) (p : Phase) : (s.goto p).script = s.script := rfl

/-! ## `emit` -/

@[simp] theorem State.emit_cfg (s : State) (ev : TxEvent) : (s.emit ev).cfg = s.cfg := rfl
@[simp] theorem State.emit_par (s : State) (ev : TxEvent) : (s.emit ev).par = s.par := rfl
@[simp] theorem State.emit_jerk (s : State) (ev : TxEvent) : (s.emit ev).jerk = s.jerk := rfl
@[simp] theorem State.emit_ctl (s : State) (ev : TxEvent) : (s.emit ev).ctl = s.ctl := rfl
@[simp] theorem State.emit_trk (s : State) (ev : TxEvent) : (s.emit ev).trk = s.trk := rfl
@[simp] theorem State.emit_fg (s : State) (ev : TxEvent) : (s.emit ev).fg = s.fg := rfl
@[simp] theorem State.emit_delayCnt (s : State) (ev : TxEvent) : (s.emit ev).delayCnt = s.delayCnt := rfl
@[simp] theorem State.emit_lineReady (s : State) (ev : TxEvent) : (s.emit ev).lineReady = s.lineReady := rfl
@[simp] theorem State.emit_lineBuf (s : State) (ev : TxEvent) : (s.emit ev).lineBuf = s.lineBuf := rfl
@[simp] theorem State.emit_ind (s : State) (ev : TxEvent) : (s.emit ev).ind = s.ind := rfl
@[simp] theorem State.emit_isrOn (s : State) (ev : TxEvent) : (s.emit ev).isrOn = s.isrOn := rfl
@[simp] theorem State.emit_halted (s : State) (ev : TxEvent) : (s.emit ev).halted = s.halted := rfl
@[simp] theorem State.emit_pwmPos (s : State) (ev : TxEvent) : (s.emit ev).pwmPos = s.pwmPos := rfl
@[simp] theorem State.emit_pwmNeg (s : State) (ev : TxEvent) : (s.emit ev).pwmNeg = s.pwmNeg := rfl
@[simp] theorem State.emit_dutyTrace (s : State) (ev : TxEvent) : (s.emit ev).dutyTrace = s.dutyTrace := rfl
@[simp] theorem State.emit_tx (s : State) (ev : TxEvent) : (s.emit ev).tx = s.tx ++ [ev] := rfl
@[simp] theorem State.emit_xlog (s : State) (ev : TxEvent) : (s.emit ev).xlog = s.xlog := rfl
@[simp] theorem State.emit_nvm (s : State) (ev : TxEvent) : (s.emit ev).nvm = s.nvm := rfl
@[simp] theorem State.emit_cmdCnt (s : State) (ev : TxEvent) : (s.emit ev).cmdCnt = s.cmdCnt := rfl
@[simp] theorem State.emit_fbCnt (s : State) (ev : TxEvent) : (s.emit ev).fbCnt = s.fbCnt := rfl
@[simp] theorem State.emit_enIn (s : State) (ev : TxEvent) : (s.emit ev).enIn = s.enIn := rfl
@[simp] theorem State.emit_script (s : State) (ev : TxEvent) : (s.emit ev).script = s.script := rfl

/-! ## `emitDump` -/

@[simp] theorem State.emitDump_cfg (s : State) : s.emitDump.cfg = s.cfg := rfl
@[simp] theorem State.emitDump_par (s : State) : s.emitDump.par = s.par := rfl
@[simp] theorem State.emitDump_jerk (s : State) : s.emitDump.jerk = s.jerk := rfl
@[simp] theorem State.emitDump_ctl (s : State) : s.emitDump.ctl = s.ctl := rfl
@[simp] theorem State.emitDump_trk (s : State) : s.emitDump.trk = s.trk := rfl
@[simp] theorem State.emitDump_fg (s : State) : s.emitDump.fg = s.fg := rfl
@[simp] theorem State.emitDump_delayCnt (s : State) : s.emitDump.delayCnt = s.delayCnt := rfl
@[simp] theorem State.emitDump_lineReady (s : State) : s.emitDump.lineReady = s.lineReady := rfl
@[simp] theorem State.emitDump_lineBuf (s : State) : s.emitDump.lineBuf = s.lineBuf := rfl
@[simp] theorem State.emitDump_ind (s : State) : s.emitDump.ind = s.ind := rfl
@[simp] theorem State.emitDump_isrOn (s : State) : s.emitDump.isrOn = s.isrOn := rfl
@[simp] theorem State.emitDump_halted (s : State) : s.emitDump.halted = s.halted := rfl
@[simp] theorem State.emitDump_pwmPos (s : State) : s.emitDump.pwmPos = s.pwmPos := rfl
@[simp] theorem State.emitDump_pwmNeg (s : State) : s.emitDump.pwmNeg = s.pwmNeg := rfl
@[simp] theorem State.emitDump_dutyTrace (s : State) : s.emitDump.dutyTrace = s.dutyTrace := rfl
@[simp] theorem State.emitDump_tx (s : State) : s.emitDump.tx = s.tx ++ [.dump s.par] := rfl
@[simp] theorem State.emitDump_xlog (s : State) : s.emitDump.xlog = s.xlog := rfl
@[simp] theorem State.emitDump_nvm (s : State) : s.emitDump.nvm = s.nvm := rfl
@[simp] theorem State.emitDump_cmdCnt (s : State) : s.emitDump.cmdCnt = s.cmdCnt := rfl
@[simp] theorem State.emitDump_fbCnt (s : State) : s.emitDump.fbCnt = s.fbCnt := rfl
@[simp] theorem State.emitDump_enIn (s : State) : s.emitDump.enIn = s.enIn := rfl
@[simp] theorem State.emitDump_script (s : State) : s.emitDump.script = s.script := rfl

/-! ## `raise` -/

@[simp] theorem State.raise_cfg (s : State) (e : Exc) : (s.raise e).cfg = s.cfg := rfl
@[simp] theorem State.raise_par (s : State) (e : Exc) : (s.raise e).par = s.par := rfl
@[simp] theorem State.raise_jerk (s : State) (e : Exc) : (s.raise e).jerk = s.jerk := rfl
@[simp] theorem State.raise_ctl (s : State) (e : Exc) : (s.raise e).ctl = s.ctl := rfl
@[simp] theorem State.raise_trk (s : State) (e : Exc) : (s.raise e).trk = s.trk := rfl
@[simp] theorem State.raise_fg (s : State) (e : Exc) : (s.raise e).fg = s.fg := rfl
@[simp] theorem State.raise_delayCnt (s : State) (e : Exc) : (s.raise e).delayCnt = s.delayCnt := rfl
@[simp] theorem State.raise_lineReady (s : State) (e : Exc) : (s.raise e).lineReady = s.lineReady := rfl
@[simp] theorem State.raise_lineBuf (s : State) (e : Exc) : (s.raise e).lineBuf = s.lineBuf := rfl
@[simp] theorem State.raise_ind (s : State) (e : Exc) : (s.raise e).ind = s.ind := rfl
@[simp] theorem State.raise_isrOn (s : State) (e : Exc) : (s.raise e).isrOn = s.isrOn := rfl
@[simp] theorem State.raise_halted (s : State) (e : Exc) : (s.raise e).halted = s.halted := rfl
@[simp] theorem State.raise_pwmPos (s : State) (e : Exc) : (s.raise e).pwmPos = s.pwmPos := rfl
@[simp] theorem State.raise_pwmNeg (s : State) (e : Exc) : (s.raise e).pwmNeg = s.pwmNeg := rfl
@[simp] theorem State.raise_dutyTrace (s : State) (e : Exc) : (s.raise e).dutyTrace = s.dutyTrace := rfl
@[simp] theorem State.raise_tx (s : State) (e : Exc) : (s.raise e).tx = s.tx := rfl
@[simp] theorem State.raise_xlog (s : State) (e : Exc) : (s.raise e).xlog = s.xlog ++ [e] := rfl
@[simp] theorem State.raise_nvm (s : State) (e : Exc) : (s.raise e).nvm = s.nvm := rfl
@[simp] theorem State.raise_cmdCnt (s : State) (e : Exc) : (s.raise e).cmdCnt = s.cmdCnt := rfl
@[simp] theorem State.raise_fbCnt (s : State) (e : Exc) : (s.raise e).fbCnt = s.fbCnt := rfl
@[simp] theorem State.raise_enIn (s : State) (e : Exc) : (s.raise e).enIn = s.enIn := rfl
@[simp] theorem State.raise_script (s : State) (e : Exc) : (s.raise e).script = s.script := rfl

/-! ## `drivePos` -/

@[simp] theorem State.drivePos_cfg (s : State) (v : Half) : (s.drivePos v).cfg = s.cfg := rfl
@[simp] theorem State.drivePos_par (s : State) (v : Half) : (s.drivePos v).par = s.par := rfl
@[simp] theorem State.drivePos_jerk (s : State) (v : Half) : (s.drivePos v).jerk = s.jerk := rfl
@[simp] theorem State.drivePos_ctl (s : State) (v : Half) : (s.drivePos v).ctl = s.ctl := rfl
@[simp] theorem State.drivePos_trk (s : State) (v : Half) : (s.drivePos v).trk = s.trk := rfl
@[simp] theorem State.drivePos_fg (s : State) (v : Half) : (s.drivePos v).fg = s.fg := rfl
@[simp] theorem State.drivePos_delayCnt (s : State) (v : Half) : (s.drivePos v).delayCnt = s.delayCnt := rfl
@[simp] theorem State.drivePos_lineReady (s : State) (v : Half) : (s.drivePos v).lineReady = s.lineReady := rfl
@[simp] theorem State.drivePos_lineBuf (s : State) (v : Half) : (s.drivePos v).lineBuf = s.lineBuf := rfl
@[simp] theorem State.drivePos_ind (s : State) (v : Half) : (s.drivePos v).ind = s.ind := rfl
@[simp] theorem State.drivePos_isrOn (s : State) (v : Half) : (s.drivePos v).isrOn = s.isrOn := rfl
@[simp] theorem State.drivePos_halted (s : State) (v : Half) : (s.drivePos v).halted = s.halted := rfl
@[simp] theorem State.drivePos_pwmPos (s : State) (v : Half) : (s.drivePos v).pwmPos = v := rfl
@[simp] theorem State.drivePos_pwmNeg (s : State) (v : Half) : (s.drivePos v).pwmNeg = s.pwmNeg := rfl
@[simp] theorem State.drivePos_dutyTrace (s : State) (v : Half) :
    (s.drivePos v).dutyTrace = s.dutyTrace ++ [.pos v] := rfl
@[simp] theorem State.drivePos_tx (s : State) (v : Half) : (s.drivePos v).tx = s.tx := rfl
@[simp] theorem State.drivePos_xlog (s : State) (v : Half) : (s.drivePos v).xlog = s.xlog := rfl
@[simp] theorem State.drivePos_nvm (s : State) (v : Half) : (s.drivePos v).nvm = s.nvm := rfl
@[simp] theorem State.drivePos_cmdCnt (s : State) (v : Half) : (s.drivePos v).cmdCnt = s.cmdCnt := rfl
@[simp] theorem State.drivePos_fbCnt (s : State) (v : Half) : (s.drivePos v).fbCnt = s.fbCnt := rfl
@[simp] theorem State.drivePos_enIn (s : State) (v : Half) : (s.drivePos v).enIn = s.enIn := rfl
@[simp] theorem State.drivePos_script (s : State) (v : Half) : (s.drivePos v).script = s.script := rfl

/-! ## `driveNeg` -/

@[simp] theorem State.driveNeg_cfg (s : State) (v : Half) : (s.driveNeg v).cfg = s.cfg := rfl
@[simp] theorem State.driveNeg_par (s : State) (v : Half) : (s.driveNeg v).par = s.par := rfl
@[simp] theorem State.driveNeg_jerk (s : State) (v : Half) : (s.driveNeg v).jerk = s.jerk := rfl
@[simp] theorem State.driveNeg_ctl (s : State) (v : Half) : (s.driveNeg v).ctl = s.ctl := rfl
@[simp] theorem State.driveNeg_trk (s : State) (v : Half) : (s.driveNeg v).trk = s.trk := rfl
@[simp] theorem State.driveNeg_fg (s : State) (v : Half) : (s.driveNeg v).fg = s.fg := rfl
@[simp] theorem State.driveNeg_delayCnt (s : State) (v : Half) : (s.driveNeg v).delayCnt = s.delayCnt := rfl
@[simp] theorem State.driveNeg_lineReady (s : State) (v : Half) : (s.driveNeg v).lineReady = s.lineReady := rfl
@[simp] theorem State.driveNeg_lineBuf (s : State) (v : Half) : (s.driveNeg v).lineBuf = s.lineBuf := rfl
@[simp] theorem State.driveNeg_ind (s : State) (v : Half) : (s.driveNeg v).ind = s.ind := rfl
@[simp] theorem State.driveNeg_isrOn (s : State) (v : Half) : (s.driveNeg v).isrOn = s.isrOn := rfl
@[simp] theorem State.driveNeg_halted (s : State) (v : Half) : (s.driveNeg v).halted = s.halted := rfl
@[simp] theorem State.driveNeg_pwmPos (s : State) (v : Half) : (s.driveNeg v).pwmPos = s.pwmPos := rfl
@[simp] theorem State.driveNeg_pwmNeg (s : State) (v : Half) : (s.driveNeg v).pwmNeg = v := rfl
@[simp] theorem State.driveNeg_dutyTrace (s : State) (v : Half) :
    (s.driveNeg v).dutyTrace = s.dutyTrace ++ [.neg v] := rfl
@[simp] theorem State.driveNeg_tx (s : State) (v : Half) : (s.driveNeg v).tx = s.tx := rfl
@[simp] theorem State.driveNeg_xlog (s : State) (v : Half) : (s.driveNeg v).xlog = s.xlog := rfl
@[simp] theorem State.driveNeg_nvm (s : State) (v : Half) : (s.driveNeg v).nvm = s.nvm := rfl
@[simp] theorem State.driveNeg_cmdCnt (s : State) (v : Half) : (s.driveNeg v).cmdCnt = s.cmdCnt := rfl
@[simp] theorem State.driveNeg_fbCnt (s : State) (v : Half) : (s.driveNeg v).fbCnt = s.fbCnt := rfl
@[simp] theorem State.driveNeg_enIn (s : State) (v : Half) : (s.driveNeg v).enIn = s.enIn := rfl
@[simp] theorem State.driveNeg_script (s : State) (v : Half) : (s.driveNeg v).script = s.script := rfl

/-! ## `writeFloat` -/

@[simp] theorem State.writeFloat_cfg (s : State) (r : FloatReg) (v : Num32) : (s.writeFloat r v).cfg = s.cfg := rfl
@[simp] theorem State.writeFloat_par (s : State) (r : FloatReg) (v : Num32) :
    (s.writeFloat r v).par = s.par.setFloat r v := rfl
@[simp] theorem State.writeFloat_jerk (s : State) (r : FloatReg) (v : Num32) : (s.writeFloat r v).jerk = s.jerk := rfl
@[simp] theorem State.writeFloat_ctl (s : State) (r : FloatReg) (v : Num32) : (s.writeFloat r v).ctl = s.ctl := rfl
@[simp] theorem State.writeFloat_trk (s : State) (r : FloatReg) (v : Num32) : (s.writeFloat r v).trk = s.trk := rfl
@[simp] theorem State.writeFloat_fg (s : State) (r : FloatReg) (v : Num32) : (s.writeFloat r v).fg = s.fg := rfl
@[simp] theorem State.writeFloat_delayCnt (s : State) (r : FloatReg) (v : Num32) :
    (s.writeFloat r v).delayCnt = s.delayCnt := rfl
@[simp] theorem State.writeFloat_lineReady (s : State) (r : FloatReg) (v : Num32) :
    (s.writeFloat r v).lineReady = s.lineReady := rfl
@[simp] theorem State.writeFloat_lineBuf (s : State) (r : FloatReg) (v : Num32) :
    (s.writeFloat r v).lineBuf = s.lineBuf := rfl
@[simp] theorem State.writeFloat_ind (s : State) (r : FloatReg) (v : Num32) : (s.writeFloat r v).ind = s.ind := rfl
@[simp] theorem State.writeFloat_isrOn (s : State) (r : FloatReg) (v : Num32) :
    (s.writeFloat r v).isrOn = s.isrOn := rfl
@[simp] theorem State.writeFloat_halted (s : State) (r : FloatReg) (v : Num32) :
    (s.writeFloat r v).halted = s.halted := rfl
@[simp] theorem State.writeFloat_pwmPos (s : State) (r : FloatReg) (v : Num32) :
    (s.writeFloat r v).pwmPos = s.pwmPos := rfl
@[simp] theorem State.writeFloat_pwmNeg (s : State) (r : FloatReg) (v : Num32) :
    (s.writeFloat r v).pwmNeg = s.pwmNeg := rfl
@[simp] theorem State.writeFloat_dutyTrace (s : State) (r : FloatReg) (v : Num32) :
    (s.writeFloat r v).dutyTrace = s.dutyTrace := rfl
@[simp] theorem State.writeFloat_tx (s : State) (r : FloatReg) (v : Num32) : (s.writeFloat r v).tx = s.tx := rfl
@[simp] theorem State.writeFloat_xlog (s : State) (r : FloatReg) (v : Num32) : (s.writeFloat r v).xlog = s.xlog := rfl
@[simp] theorem State.writeFloat_nvm (s : State) (r : FloatReg) (v : Num32) : (s.writeFloat r v).nvm = s.nvm := rfl
@[simp] theorem State.writeFloat_cmdCnt (s : State) (r : FloatReg) (v : Num32) :
    (s.writeFloat r v).cmdCnt = s.cmdCnt := rfl
@[simp] theorem State.writeFloat_fbCnt (s : State) (r : FloatReg) (v : Num32) :
    (s.writeFloat r v).fbCnt = s.fbCnt := rfl
@[simp] theorem State.writeFloat_enIn (s : State) (r : FloatReg) (v : Num32) : (s.writeFloat r v).enIn = s.enIn := rfl
@[simp] theorem State.writeFloat_script (s : State) (r : FloatReg) (v : Num32) :
    (s.writeFloat r v).script = s.script := rfl

/-! ## `writeMultiplier` -/

@[simp] theorem State.writeMultiplier_cfg (s : State) (v : Half) : (s.writeMultiplier v).cfg = s.cfg := rfl
@[simp] theorem State.writeMultiplier_par (s : State) (v : Half) :
    (s.writeMultiplier v).par = { s.par with cmdMultiplier := v } := rfl
@[simp] theorem State.writeMultiplier_jerk (s : State) (v : Half) : (s.writeMultiplier v).jerk = s.jerk := rfl
@[simp] theorem State.writeMultiplier_ctl (s : State) (v : Half) : (s.writeMultiplier v).ctl = s.ctl := rfl
@[simp] theorem State.writeMultiplier_trk (s : State) (v : Half) : (s.writeMultiplier v).trk = s.trk := rfl
@[simp] theorem State.writeMultiplier_fg (s : State) (v : Half) : (s.writeMultiplier v).fg = s.fg := rfl
@[simp] theorem State.writeMultiplier_delayCnt (s : State) (v : Half) :
    (s.writeMultiplier v).delayCnt = s.delayCnt := rfl
@[simp] theorem State.writeMultiplier_lineReady (s : State) (v : Half) :
    (s.writeMultiplier v).lineReady = s.lineReady := rfl
@[simp] theorem State.writeMultiplier_lineBuf (s : State) (v : Half) :
    (s.writeMultiplier v).lineBuf = s.lineBuf := rfl
@[simp] theorem State.writeMultiplier_ind (s : State) (v : Half) : (s.writeMultiplier v).ind = s.ind := rfl
@[simp] theorem State.writeMultiplier_isrOn (s : State) (v : Half) : (s.writeMultiplier v).isrOn = s.isrOn := rfl
@[simp] theorem State.writeMultiplier_halted (s : State) (v : Half) : (s.writeMultiplier v).halted = s.halted := rfl
@[simp] theorem State.writeMultiplier_pwmPos (s : State) (v : Half) : (s.writeMultiplier v).pwmPos = s.pwmPos := rfl
@[simp] theorem State.writeMultiplier_pwmNeg (s : State) (v : Half) : (s.writeMultiplier v).pwmNeg = s.pwmNeg := rfl
@[simp] theorem State.writeMultiplier_dutyTrace (s : State) (v : Half) :
    (s.writeMultiplier v).dutyTrace = s.dutyTrace := rfl
@[simp] theorem State.writeMultiplier_tx (s : State) (v : Half) : (s.writeMultiplier v).tx = s.tx := rfl
@[simp] theorem State.writeMultiplier_xlog (s : State) (v : Half) : (s.writeMultiplier v).xlog = s.xlog := rfl
@[simp] theorem State.writeMultiplier_nvm (s : State) (v : Half) : (s.writeMultiplier v).nvm = s.nvm := rfl
@[simp] theorem State.writeMultiplier_cmdCnt (s : State) (v : Half) : (s.writeMultiplier v).cmdCnt = s.cmdCnt := rfl
@[simp] theorem State.writeMultiplier_fbCnt (s : State) (v : Half) : (s.writeMultiplier v).fbCnt = s.fbCnt := rfl
@[simp] theorem State.writeMultiplier_enIn (s : State) (v : Half) : (s.writeMultiplier v).enIn = s.enIn := rfl
@[simp] theorem State.writeMultiplier_script (s : State) (v : Half) : (s.writeMultiplier v).script = s.script := rfl

/-! ## `writeTicks` -/

@[simp] theorem State.writeTicks_cfg (s : State) (v : Half) : (s.writeTicks v).cfg = s.cfg := rfl
@[simp] theorem State.writeTicks_par (s : State) (v : Half) :
    (s.writeTicks v).par = { s.par with ticksPerServoCycle := v } := rfl
@[simp] theorem State.writeTicks_jerk (s : State) (v : Half) : (s.writeTicks v).jerk = s.jerk := rfl
@[simp] theorem State.writeTicks_ctl (s : State) (v : Half) : (s.writeTicks v).ctl = s.ctl := rfl
@[simp] theorem State.writeTicks_trk (s : State) (v : Half) : (s.writeTicks v).trk = s.trk := rfl
@[simp] theorem State.writeTicks_fg (s : State) (v : Half) : (s.writeTicks v).fg = s.fg := rfl
@[simp] theorem State.writeTicks_delayCnt (s : State) (v : Half) : (s.writeTicks v).delayCnt = s.delayCnt := rfl
@[simp] theorem State.writeTicks_lineReady (s : State) (v : Half) : (s.writeTicks v).lineReady = s.lineReady := rfl
@[simp] theorem State.writeTicks_lineBuf (s : State) (v : Half) : (s.writeTicks v).lineBuf = s.lineBuf := rfl
@[simp] theorem State.writeTicks_ind (s : State) (v : Half) : (s.writeTicks v).ind = s.ind := rfl
@[simp] theorem State.writeTicks_isrOn (s : State) (v : Half) : (s.writeTicks v).isrOn = s.isrOn := rfl
@[simp] theorem State.writeTicks_halted (s : State) (v : Half) : (s.writeTicks v).halted = s.halted := rfl
@[simp] theorem State.writeTicks_pwmPos (s : State) (v : Half) : (s.writeTicks v).pwmPos = s.pwmPos := rfl
@[simp] theorem State.writeTicks_pwmNeg (s : State) (v : Half) : (s.writeTicks v).pwmNeg = s.pwmNeg := rfl
@[simp] theorem State.writeTicks_dutyTrace (s : State) (v : Half) : (s.writeTicks v).dutyTrace = s.dutyTrace := rfl
@[simp] theorem State.writeTicks_tx (s : State) (v : Half) : (s.writeTicks v).tx = s.tx := rfl
@[simp] theorem State.writeTicks_xlog (s : State) (v : Half) : (s.writeTicks v).xlog = s.xlog := rfl
@[simp] theorem State.writeTicks_nvm (s : State) (v : Half) : (s.writeTicks v).nvm = s.nvm := rfl
@[simp] theorem State.writeTicks_cmdCnt (s : State) (v : Half) : (s.writeTicks v).cmdCnt = s.cmdCnt := rfl
@[simp] theorem State.writeTicks_fbCnt (s : State) (v : Half) : (s.writeTicks v).fbCnt = s.fbCnt := rfl
@[simp] theorem State.writeTicks_enIn (s : State) (v : Half) : (s.writeTicks v).enIn = s.enIn := rfl
@[simp] theorem State.writeTicks_script (s : State) (v : Half) : (s.writeTicks v).script = s.script := rfl

/-! ## `writeChecksum` -/

@[simp] theorem State.writeChecksum_cfg (s : State) : s.writeChecksum.cfg = s.cfg := rfl
@[simp] theorem State.writeChecksum_par (s : State) :
    s.writeChecksum.par = { s.par with checksum := checksumOf s.par.toParamVals } := rfl
@[simp] theorem State.writeChecksum_jerk (s : State) : s.writeChecksum.jerk = s.jerk := rfl
@[simp] theorem State.writeChecksum_ctl (s : State) : s.writeChecksum.ctl = s.ctl := rfl
@[simp] theorem State.writeChecksum_trk (s : State) : s.writeChecksum.trk = s.trk := rfl
@[simp] theorem State.writeChecksum_fg (s : State) : s.writeChecksum.fg = s.fg := rfl
@[simp] theorem State.writeChecksum_delayCnt (s : State) : s.writeChecksum.delayCnt = s.delayCnt := rfl
@[simp] theorem State.writeChecksum_lineReady (s : State) : s.writeChecksum.lineReady = s.lineReady := rfl
@[simp] theorem State.writeChecksum_lineBuf (s : State) : s.writeChecksum.lineBuf = s.lineBuf := rfl
@[simp] theorem State.writeChecksum_ind (s : State) : s.writeChecksum.ind = s.ind := rfl
@[simp] theorem State.writeChecksum_isrOn (s : State) : s.writeChecksum.isrOn = s.isrOn := rfl
@[simp] theorem State.writeChecksum_halted (s : State) : s.writeChecksum.halted = s.halted := rfl
@[simp] theorem State.writeChecksum_pwmPos (s : State) : s.writeChecksum.pwmPos = s.pwmPos := rfl
@[simp] theorem State.writeChecksum_pwmNeg (s : State) : s.writeChecksum.pwmNeg = s.pwmNeg := rfl
@[simp] theorem State.writeChecksum_dutyTrace (s : State) : s.writeChecksum.dutyTrace = s.dutyTrace := rfl
@[simp] theorem State.writeChecksum_tx (s : State) : s.writeChecksum.tx = s.tx := rfl
@[simp] theorem State.writeChecksum_xlog (s : State) : s.writeChecksum.xlog = s.xlog := rfl
@[simp] theorem State.writeChecksum_nvm (s : State) : s.writeChecksum.nvm = s.nvm := rfl
@[simp] theorem State.writeChecksum_cmdCnt (s : State) : s.writeChecksum.cmdCnt = s.cmdCnt := rfl
@[simp] theorem State.writeChecksum_fbCnt (s : State) : s.writeChecksum.fbCnt = s.fbCnt := rfl
@[simp] theorem State.writeChecksum_enIn (s : State) : s.writeChecksum.enIn = s.enIn := rfl
@[simp] theorem State.writeChecksum_script (s : State) : s.writeChecksum.script = s.script := rfl

/-! ## `nvmSave` -/

@[simp] theorem State.nvmSave_cfg (s : State) (img : List Byte) : (s.nvmSave img).cfg = s.cfg := rfl
@[simp] theorem State.nvmSave_par (s : State) (img : List Byte) : (s.nvmSave img).par = s.par := rfl
@[simp] theorem State.nvmSave_jerk (s : State) (img : List Byte) : (s.nvmSave img).jerk = s.jerk := rfl
@[simp] theorem State.nvmSave_ctl (s : State) (img : List Byte) : (s.nvmSave img).ctl = s.ctl := rfl
@[simp] theorem State.nvmSave_trk (s : State) (img : List Byte) : (s.nvmSave img).trk = s.trk := rfl
@[simp] theorem State.nvmSave_fg (s : State) (img : List Byte) : (s.nvmSave img).fg = s.fg := rfl
@[simp] theorem State.nvmSave_delayCnt (s : State) (img : List Byte) : (s.nvmSave img).delayCnt = s.delayCnt := rfl
@[simp] theorem State.nvmSave_lineReady (s : State) (img : List Byte) : (s.nvmSave img).lineReady = s.lineReady := rfl
@[simp] theorem State.nvmSave_lineBuf (s : State) (img : List Byte) : (s.nvmSave img).lineBuf = s.lineBuf := rfl
@[simp] theorem State.nvmSave_ind (s : State) (img : List Byte) : (s.nvmSave img).ind = s.ind := rfl
@[simp] theorem State.nvmSave_isrOn (s : State) (img : List Byte) : (s.nvmSave img).isrOn = s.isrOn := rfl
@[simp] theorem State.nvmSave_halted (s : State) (img : List Byte) : (s.nvmSave img).halted = s.halted := rfl
@[simp] theorem State.nvmSave_pwmPos (s : State) (img : List Byte) : (s.nvmSave img).pwmPos = s.pwmPos := rfl
@[simp] theorem State.nvmSave_pwmNeg (s : State) (img : List Byte) : (s.nvmSave img).pwmNeg = s.pwmNeg := rfl
@[simp] theorem State.nvmSave_dutyTrace (s : State) (img : List Byte) : (s.nvmSave img).dutyTrace = s.dutyTrace := rfl
@[simp] theorem State.nvmSave_tx (s : State) (img : List Byte) : (s.nvmSave img).tx = s.tx := rfl
@[simp] theorem State.nvmSave_xlog (s : State) (img : List Byte) : (s.nvmSave img).xlog = s.xlog := rfl
@[simp] theorem State.nvmSave_nvm (s : State) (img : List Byte) :
    (s.nvmSave img).nvm = Memory.writeBytes s.nvm 0 img := rfl
@[simp] theorem State.nvmSave_cmdCnt (s : State) (img : List Byte) : (s.nvmSave img).cmdCnt = s.cmdCnt := rfl
@[simp] theorem State.nvmSave_fbCnt (s : State) (img : List Byte) : (s.nvmSave img).fbCnt = s.fbCnt := rfl
@[simp] theorem State.nvmSave_enIn (s : State) (img : List Byte) : (s.nvmSave img).enIn = s.enIn := rfl
@[simp] theorem State.nvmSave_script (s : State) (img : List Byte) : (s.nvmSave img).script = s.script := rfl

/-! ## `saveImage` -/

@[simp] theorem State.saveImage_cfg (s : State) : s.saveImage.cfg = s.cfg :=
  State.nvmSave_cfg s _
@[simp] theorem State.saveImage_par (s : State) : s.saveImage.par = s.par :=
  State.nvmSave_par s _
@[simp] theorem State.saveImage_jerk (s : State) : s.saveImage.jerk = s.jerk :=
  State.nvmSave_jerk s _
@[simp] theorem State.saveImage_ctl (s : State) : s.saveImage.ctl = s.ctl :=
  State.nvmSave_ctl s _
@[simp] theorem State.saveImage_trk (s : State) : s.saveImage.trk = s.trk :=
  State.nvmSave_trk s _
@[simp] theorem State.saveImage_fg (s : State) : s.saveImage.fg = s.fg :=
  State.nvmSave_fg s _
@[simp] theorem State.saveImage_delayCnt (s : State) : s.saveImage.delayCnt = s.delayCnt :=
  State.nvmSave_delayCnt s _
@[simp] theorem State.saveImage_lineReady (s : State) : s.saveImage.lineReady = s.lineReady :=
  State.nvmSave_lineReady s _
@[simp] theorem State.saveImage_lineBuf (s : State) : s.saveImage.lineBuf = s.lineBuf :=
  State.nvmSave_lineBuf s _
@[simp] theorem State.saveImage_ind (s : State) : s.saveImage.ind = s.ind :=
  State.nvmSave_ind s _
@[simp] theorem State.saveImage_isrOn (s : State) : s.saveImage.isrOn = s.isrOn :=
  State.nvmSave_isrOn s _
@[simp] theorem State.saveImage_halted (s : State) : s.saveImage.halted = s.halted :=
  State.nvmSave_halted s _
@[simp] theorem State.saveImage_pwmPos (s : State) : s.saveImage.pwmPos = s.pwmPos :=
  State.nvmSave_pwmPos s _
@[simp] theorem State.saveImage_pwmNeg (s : State) : s.saveImage.pwmNeg = s.pwmNeg :=
  State.nvmSave_pwmNeg s _
@[simp] theorem State.saveImage_dutyTrace (s : State) : s.saveImage.dutyTrace = s.dutyTrace :=
  State.nvmSave_dutyTrace s _
@[simp] theorem State.saveImage_tx (s : State) : s.saveImage.tx = s.tx :=
  State.nvmSave_tx s _
@[simp] theorem State.saveImage_xlog (s : State) : s.saveImage.xlog = s.xlog :=
  State.nvmSave_xlog s _
@[simp] theorem State.saveImage_nvm (s : State) : s.saveImage.nvm = Memory.writeBytes s.nvm 0 (image s.par) :=
  State.nvmSave_nvm s _
@[simp] theorem State.saveImage_cmdCnt (s : State) : s.saveImage.cmdCnt = s.cmdCnt :=
  State.nvmSave_cmdCnt s _
@[simp] theorem State.saveImage_fbCnt (s : State) : s.saveImage.fbCnt = s.fbCnt :=
  State.nvmSave_fbCnt s _
@[simp] theorem State.saveImage_enIn (s : State) : s.saveImage.enIn = s.enIn :=
  State.nvmSave_enIn s _
@[simp] theorem State.saveImage_script (s : State) : s.saveImage.script = s.script :=
  State.nvmSave_script s _

/-! ## `lineReset` -/

@[simp] theorem State.lineReset_cfg (s : State) : s.lineReset.cfg = s.cfg := rfl
@[simp] theorem State.lineReset_par (s : State) : s.lineReset.par = s.par := rfl
@[simp] theorem State.lineReset_jerk (s : State) : s.lineReset.jerk = s.jerk := rfl
@[simp] theorem State.lineReset_ctl (s : State) : s.lineReset.ctl = s.ctl := rfl
@[simp] theorem State.lineReset_trk (s : State) : s.lineReset.trk = s.trk := rfl
@[simp] theorem State.lineReset_fg (s : State) : s.lineReset.fg = s.fg := rfl
@[simp] theorem State.lineReset_delayCnt (s : State) : s.lineReset.delayCnt = s.delayCnt := rfl
@[simp] theorem State.lineReset_lineReady (s : State) : s.lineReset.lineReady = false := rfl
@[simp] theorem State.lineReset_lineBuf (s : State) : s.lineReset.lineBuf = s.lineBuf := rfl
@[simp] theorem State.lineReset_ind (s : State) : s.lineReset.ind = s.ind := rfl
@[simp] theorem State.lineReset_isrOn (s : State) : s.lineReset.isrOn = s.isrOn := rfl
@[simp] theorem State.lineReset_halted (s : State) : s.lineReset.halted = s.halted := rfl
@[simp] theorem State.lineReset_pwmPos (s : State) : s.lineReset.pwmPos = s.pwmPos := rfl
@[simp] theorem State.lineReset_pwmNeg (s : State) : s.lineReset.pwmNeg = s.pwmNeg := rfl
@[simp] theorem State.lineReset_dutyTrace (s : State) : s.lineReset.dutyTrace = s.dutyTrace := rfl
@[simp] theorem State.lineReset_tx (s : State) : s.lineReset.tx = s.tx := rfl
@[simp] theorem State.lineReset_xlog (s : State) : s.lineReset.xlog = s.xlog := rfl
@[simp] theorem State.lineReset_nvm (s : State) : s.lineReset.nvm = s.nvm := rfl
@[simp] theorem State.lineReset_cmdCnt (s : State) : s.lineReset.cmdCnt = s.cmdCnt := rfl
@[simp] theorem State.lineReset_fbCnt (s : State) : s.lineReset.fbCnt = s.fbCnt := rfl
@[simp] theorem State.lineReset_enIn (s : State) : s.lineReset.enIn = s.enIn := rfl
@[simp] theorem State.lineReset_script (s : State) : s.lineReset.script = s.script := rfl

/-! ## `afterMicro` -/

@[simp] theorem State.afterMicro_cfg (s : State) (i : Instr) (n k : Nat) : (s.afterMicro i n k).cfg = s.cfg := rfl
@[simp] theorem State.afterMicro_par (s : State) (i : Instr) (n k : Nat) : (s.afterMicro i n k).par = s.par := rfl
@[simp] theorem State.afterMicro_jerk (s : State) (i : Instr) (n k : Nat) : (s.afterMicro i n k).jerk = s.jerk := rfl
@[simp] theorem State.afterMicro_ctl (s : State) (i : Instr) (n k : Nat) : (s.afterMicro i n k).ctl = s.ctl := rfl
@[simp] theorem State.afterMicro_trk (s : State) (i : Instr) (n k : Nat) : (s.afterMicro i n k).trk = s.trk := rfl
@[simp] theorem State.afterMicro_fg (s : State) (i : Instr) (n k : Nat) :
    (s.afterMicro i n k).fg = { s.fg with phase := if k + 1 < n then .command (k + 1) else .jerkTest, instr := i } := rfl
@[simp] theorem State.afterMicro_delayCnt (s : State) (i : Instr) (n k : Nat) :
    (s.afterMicro i n k).delayCnt = s.delayCnt := rfl
@[simp] theorem State.afterMicro_lineReady (s : State) (i : Instr) (n k : Nat) :
    (s.afterMicro i n k).lineReady = s.lineReady := rfl
@[simp] theorem State.afterMicro_lineBuf (s : State) (i : Instr) (n k : Nat) :
    (s.afterMicro i n k).lineBuf = s.lineBuf := rfl
@[simp] theorem State.afterMicro_ind (s : State) (i : Instr) (n k : Nat) : (s.afterMicro i n k).ind = s.ind := rfl
@[simp] theorem State.afterMicro_isrOn (s : State) (i : Instr) (n k : Nat) :
    (s.afterMicro i n k).isrOn = s.isrOn := rfl
@[simp] theorem State.afterMicro_halted (s : State) (i : Instr) (n k : Nat) :
    (s.afterMicro i n k).halted = s.halted := rfl
@[simp] theorem State.afterMicro_pwmPos (s : State) (i : Instr) (n k : Nat) :
    (s.afterMicro i n k).pwmPos = s.pwmPos := rfl
@[simp] theorem State.afterMicro_pwmNeg (s : State) (i : Instr) (n k : Nat) :
    (s.afterMicro i n k).pwmNeg = s.pwmNeg := rfl
@[simp] theorem State.afterMicro_dutyTrace (s : State) (i : Instr) (n k : Nat) :
    (s.afterMicro i n k).dutyTrace = s.dutyTrace := rfl
@[simp] theorem State.afterMicro_tx (s : State) (i : Instr) (n k : Nat) : (s.afterMicro i n k).tx = s.tx := rfl
@[simp] theorem State.afterMicro_xlog (s : State) (i : Instr) (n k : Nat) : (s.afterMicro i n k).xlog = s.xlog := rfl
@[simp] theorem State.afterMicro_nvm (s : State) (i : Instr) (n k : Nat) : (s.afterMicro i n k).nvm = s.nvm := rfl
@[simp] theorem State.afterMicro_cmdCnt (s : State) (i : Instr) (n k : Nat) :
    (s.afterMicro i n k).cmdCnt = s.cmdCnt := rfl
@[simp] theorem State.afterMicro_fbCnt (s : State) (i : Instr) (n k : Nat) :
    (s.afterMicro i n k).fbCnt = s.fbCnt := rfl
@[simp] theorem State.afterMicro_enIn (s : State) (i : Instr) (n k : Nat) : (s.afterMicro i n k).enIn = s.enIn := rfl
@[simp] theorem State.afterMicro_script (s : State) (i : Instr) (n k : Nat) :
    (s.afterMicro i n k).script = s.script := rfl

/-! ## `setCycleCount` -/

@[simp] theorem State.setCycleCount_cfg (s : State) (n : Half) : (s.setCycleCount n).cfg = s.cfg := rfl
@[simp] theorem State.setCycleCount_par (s : State) (n : Half) : (s.setCycleCount n).par = s.par := rfl
@[simp] theorem State.setCycleCount_jerk (s : State) (n : Half) : (s.setCycleCount n).jerk = s.jerk := rfl
@[simp] theorem State.setCycleCount_ctl (s : State) (n : Half) : (s.setCycleCount n).ctl = s.ctl := rfl
@[simp] theorem State.setCycleCount_trk (s : State) (n : Half) :
    (s.setCycleCount n).trk = { s.trk with cycleCount := n } := rfl
@[simp] theorem State.setCycleCount_fg (s : State) (n : Half) : (s.setCycleCount n).fg = s.fg := rfl
@[simp] theorem State.setCycleCount_delayCnt (s : State) (n : Half) : (s.setCycleCount n).delayCnt = s.delayCnt := rfl
@[simp] theorem State.setCycleCount_lineReady (s : State) (n : Half) :
    (s.setCycleCount n).lineReady = s.lineReady := rfl
@[simp] theorem State.setCycleCount_lineBuf (s : State) (n : Half) : (s.setCycleCount n).lineBuf = s.lineBuf := rfl
@[simp] theorem State.setCycleCount_ind (s : State) (n : Half) : (s.setCycleCount n).ind = s.ind := rfl
@[simp] theorem State.setCycleCount_isrOn (s : State) (n : Half) : (s.setCycleCount n).isrOn = s.isrOn := rfl
@[simp] theorem State.setCycleCount_halted (s : State) (n : Half) : (s.setCycleCount n).halted = s.halted := rfl
@[simp] theorem State.setCycleCount_pwmPos (s : State) (n : Half) : (s.setCycleCount n).pwmPos = s.pwmPos := rfl
@[simp] theorem State.setCycleCount_pwmNeg (s : State) (n : Half) : (s.setCycleCount n).pwmNeg = s.pwmNeg := rfl
@[simp] theorem State.setCycleCount_dutyTrace (s : State) (n : Half) :
    (s.setCycleCount n).dutyTrace = s.dutyTrace := rfl
@[simp] theorem State.setCycleCount_tx (s : State) (n : Half) : (s.setCycleCount n).tx = s.tx := rfl
@[simp] theorem State.setCycleCount_xlog (s : State) (n : Half) : (s.setCycleCount n).xlog = s.xlog := rfl
@[simp] theorem State.setCycleCount_nvm (s : State) (n : Half) : (s.setCycleCount n).nvm = s.nvm := rfl
@[simp] theorem State.setCycleCount_cmdCnt (s : State) (n : Half) : (s.setCycleCount n).cmdCnt = s.cmdCnt := rfl
@[simp] theorem State.setCycleCount_fbCnt (s : State) (n : Half) : (s.setCycleCount n).fbCnt = s.fbCnt := rfl
@[simp] theorem State.setCycleCount_enIn (s : State) (n : Half) : (s.setCycleCount n).enIn = s.enIn := rfl
@[simp] theorem State.setCycleCount_script (s : State) (n : Half) : (s.setCycleCount n).script = s.script := rfl

/-! ## `setEnabled` -/

@[simp] theorem State.setEnabled_cfg (s : State) (b : Bool) : (s.setEnabled b).cfg = s.cfg := rfl
@[simp] theorem State.setEnabled_par (s : State) (b : Bool) : (s.setEnabled b).par = s.par := rfl
@[simp] theorem State.setEnabled_jerk (s : State) (b : Bool) : (s.setEnabled b).jerk = s.jerk := rfl
@[simp] theorem State.setEnabled_ctl (s : State) (b : Bool) :
    (s.setEnabled b).ctl = { s.ctl with enabled := b } := rfl
@[simp] theorem State.setEnabled_trk (s : State) (b : Bool) : (s.setEnabled b).trk = s.trk := rfl
@[simp] theorem State.setEnabled_fg (s : State) (b : Bool) : (s.setEnabled b).fg = s.fg := rfl
@[simp] theorem State.setEnabled_delayCnt (s : State) (b : Bool) : (s.setEnabled b).delayCnt = s.delayCnt := rfl
@[simp] theorem State.setEnabled_lineReady (s : State) (b : Bool) : (s.setEnabled b).lineReady = s.lineReady := rfl
@[simp] theorem State.setEnabled_lineBuf (s : State) (b : Bool) : (s.setEnabled b).lineBuf = s.lineBuf := rfl
@[simp] theorem State.setEnabled_ind (s : State) (b : Bool) : (s.setEnabled b).ind = s.ind := rfl
@[simp] theorem State.setEnabled_isrOn (s : State) (b : Bool) : (s.setEnabled b).isrOn = s.isrOn := rfl
@[simp] theorem State.setEnabled_halted (s : State) (b : Bool) : (s.setEnabled b).halted = s.halted := rfl
@[simp] theorem State.setEnabled_pwmPos (s : State) (b : Bool) : (s.setEnabled b).pwmPos = s.pwmPos := rfl
@[simp] theorem State.setEnabled_pwmNeg (s : State) (b : Bool) : (s.setEnabled b).pwmNeg = s.pwmNeg := rfl
@[simp] theorem State.setEnabled_dutyTrace (s : State) (b : Bool) : (s.setEnabled b).dutyTrace = s.dutyTrace := rfl
@[simp] theorem State.setEnabled_tx (s : State) (b : Bool) : (s.setEnabled b).tx = s.tx := rfl
@[simp] theorem State.setEnabled_xlog (s : State) (b : Bool) : (s.setEnabled b).xlog = s.xlog := rfl
@[simp] theorem State.setEnabled_nvm (s : State) (b : Bool) : (s.setEnabled b).nvm = s.nvm := rfl
@[simp] theorem State.setEnabled_cmdCnt (s : State) (b : Bool) : (s.setEnabled b).cmdCnt = s.cmdCnt := rfl
@[simp] theorem State.setEnabled_fbCnt (s : State) (b : Bool) : (s.setEnabled b).fbCnt = s.fbCnt := rfl
@[simp] theorem State.setEnabled_enIn (s : State) (b : Bool) : (s.setEnabled b).enIn = s.enIn := rfl
@[simp] theorem State.setEnabled_script (s : State) (b : Bool) : (s.setEnabled b).script = s.script := rfl

/-! ## `zeroIntegral` -/

@[simp] theorem State.zeroIntegral_cfg (s : State) : s.zeroIntegral.cfg = s.cfg := rfl
@[simp] theorem State.zeroIntegral_par (s : State) : s.zeroIntegral.par = s.par := rfl
@[simp] theorem State.zeroIntegral_jerk (s : State) : s.zeroIntegral.jerk = s.jerk := rfl
@[simp] theorem State.zeroIntegral_ctl (s : State) : s.zeroIntegral.ctl = { s.ctl with errorIntegral := 0 } := rfl
@[simp] theorem State.zeroIntegral_trk (s : State) : s.zeroIntegral.trk = s.trk := rfl
@[simp] theorem State.zeroIntegral_fg (s : State) : s.zeroIntegral.fg = s.fg := rfl
@[simp] theorem State.zeroIntegral_delayCnt (s : State) : s.zeroIntegral.delayCnt = s.delayCnt := rfl
@[simp] theorem State.zeroIntegral_lineReady (s : State) : s.zeroIntegral.lineReady = s.lineReady := rfl
@[simp] theorem State.zeroIntegral_lineBuf (s : State) : s.zeroIntegral.lineBuf = s.lineBuf := rfl
@[simp] theorem State.zeroIntegral_ind (s : State) : s.zeroIntegral.ind = s.ind := rfl
@[simp] theorem State.zeroIntegral_isrOn (s : State) : s.zeroIntegral.isrOn = s.isrOn := rfl
@[simp] theorem State.zeroIntegral_halted (s : State) : s.zeroIntegral.halted = s.halted := rfl
@[simp] theorem State.zeroIntegral_pwmPos (s : State) : s.zeroIntegral.pwmPos = s.pwmPos := rfl
@[simp] theorem State.zeroIntegral_pwmNeg (s : State) : s.zeroIntegral.pwmNeg = s.pwmNeg := rfl
@[simp] theorem State.zeroIntegral_dutyTrace (s : State) : s.zeroIntegral.dutyTrace = s.dutyTrace := rfl
@[simp] theorem State.zeroIntegral_tx (s : State) : s.zeroIntegral.tx = s.tx := rfl
@[simp] theorem State.zeroIntegral_xlog (s : State) : s.zeroIntegral.xlog = s.xlog := rfl
@[simp] theorem State.zeroIntegral_nvm (s : State) : s.zeroIntegral.nvm = s.nvm := rfl
@[simp] theorem State.zeroIntegral_cmdCnt (s : State) : s.zeroIntegral.cmdCnt = s.cmdCnt := rfl
@[simp] theorem State.zeroIntegral_fbCnt (s : State) : s.zeroIntegral.fbCnt = s.fbCnt := rfl
@[simp] theorem State.zeroIntegral_enIn (s : State) : s.zeroIntegral.enIn = s.enIn := rfl
@[simp] theorem State.zeroIntegral_script (s : State) : s.zeroIntegral.script = s.script := rfl

/-! ## `writeJerk` -/

@[simp] theorem State.writeJerk_cfg (s : State) (v : Num32) : (s.writeJerk v).cfg = s.cfg := rfl
@[simp] theorem State.writeJerk_par (s : State) (v : Num32) : (s.writeJerk v).par = s.par := rfl
@[simp] theorem State.writeJerk_jerk (s : State) (v : Num32) : (s.writeJerk v).jerk = v := rfl
@[simp] theorem State.writeJerk_ctl (s : State) (v : Num32) : (s.writeJerk v).ctl = s.ctl := rfl
@[simp] theorem State.writeJerk_trk (s : State) (v : Num32) : (s.writeJerk v).trk = s.trk := rfl
@[simp] theorem State.writeJerk_fg (s : State) (v : Num32) : (s.writeJerk v).fg = s.fg := rfl
@[simp] theorem State.writeJerk_delayCnt (s : State) (v : Num32) : (s.writeJerk v).delayCnt = s.delayCnt := rfl
@[simp] theorem State.writeJerk_lineReady (s : State) (v : Num32) : (s.writeJerk v).lineReady = s.lineReady := rfl
@[simp] theorem State.writeJerk_lineBuf (s : State) (v : Num32) : (s.writeJerk v).lineBuf = s.lineBuf := rfl
@[simp] theorem State.writeJerk_ind (s : State) (v : Num32) : (s.writeJerk v).ind = s.ind := rfl
@[simp] theorem State.writeJerk_isrOn (s : State) (v : Num32) : (s.writeJerk v).isrOn = s.isrOn := rfl
@[simp] theorem State.writeJerk_halted (s : State) (v : Num32) : (s.writeJerk v).halted = s.halted := rfl
@[simp] theorem State.writeJerk_pwmPos (s : State) (v : Num32) : (s.writeJerk v).pwmPos = s.pwmPos := rfl
@[simp] theorem State.writeJerk_pwmNeg (s : State) (v : Num32) : (s.writeJerk v).pwmNeg = s.pwmNeg := rfl
@[simp] theorem State.writeJerk_dutyTrace (s : State) (v : Num32) : (s.writeJerk v).dutyTrace = s.dutyTrace := rfl
@[simp] theorem State.writeJerk_tx (s : State) (v : Num32) : (s.writeJerk v).tx = s.tx := rfl
@[simp] theorem State.writeJerk_xlog (s : State) (v : Num32) : (s.writeJerk v).xlog = s.xlog := rfl
@[simp] theorem State.writeJerk_nvm (s : State) (v : Num32) : (s.writeJerk v).nvm = s.nvm := rfl
@[simp] theorem State.writeJerk_cmdCnt (s : State) (v : Num32) : (s.writeJerk v).cmdCnt = s.cmdCnt := rfl
@[simp] theorem State.writeJerk_fbCnt (s : State) (v : Num32) : (s.writeJerk v).fbCnt = s.fbCnt := rfl
@[simp] theorem State.writeJerk_enIn (s : State) (v : Num32) : (s.writeJerk v).enIn = s.enIn := rfl
@[simp] theorem State.writeJerk_script (s : State) (v : Num32) : (s.writeJerk v).script = s.script := rfl

/-! ## `sampleFeedback` -/

@[simp] theorem State.sampleFeedback_cfg (s : State) : s.sampleFeedback.cfg = s.cfg := rfl
@[simp] theorem State.sampleFeedback_par (s : State) : s.sampleFeedback.par = s.par := rfl
@[simp] theorem State.sampleFeedback_jerk (s : State) : s.sampleFeedback.jerk = s.jerk := rfl
@[simp] theorem State.sampleFeedback_ctl (s : State) : s.sampleFeedback.ctl = s.ctl := rfl
@[simp] theorem State.sampleFeedback_trk (s : State) : s.sampleFeedback.trk = s.trk := rfl
@[simp] theorem State.sampleFeedback_fg (s : State) : s.sampleFeedback.fg = { s.fg with fbSample := s.fbCnt } := rfl
@[simp] theorem State.sampleFeedback_delayCnt (s : State) : s.sampleFeedback.delayCnt = s.delayCnt := rfl
@[simp] theorem State.sampleFeedback_lineReady (s : State) : s.sampleFeedback.lineReady = s.lineReady := rfl
@[simp] theorem State.sampleFeedback_lineBuf (s : State) : s.sampleFeedback.lineBuf = s.lineBuf := rfl
@[simp] theorem State.sampleFeedback_ind (s : State) : s.sampleFeedback.ind = s.ind := rfl
@[simp] theorem State.sampleFeedback_isrOn (s : State) : s.sampleFeedback.isrOn = s.isrOn := rfl
@[simp] theorem State.sampleFeedback_halted (s : State) : s.sampleFeedback.halted = s.halted := rfl
@[simp] theorem State.sampleFeedback_pwmPos (s : State) : s.sampleFeedback.pwmPos = s.pwmPos := rfl
@[simp] theorem State.sampleFeedback_pwmNeg (s : State) : s.sampleFeedback.pwmNeg = s.pwmNeg := rfl
@[simp] theorem State.sampleFeedback_dutyTrace (s : State) : s.sampleFeedback.dutyTrace = s.dutyTrace := rfl
@[simp] theorem State.sampleFeedback_tx (s : State) : s.sampleFeedback.tx = s.tx := rfl
@[simp] theorem State.sampleFeedback_xlog (s : State) : s.sampleFeedback.xlog = s.xlog := rfl
@[simp] theorem State.sampleFeedback_nvm (s : State) : s.sampleFeedback.nvm = s.nvm := rfl
@[simp] theorem State.sampleFeedback_cmdCnt (s : State) : s.sampleFeedback.cmdCnt = s.cmdCnt := rfl
@[simp] theorem State.sampleFeedback_fbCnt (s : State) : s.sampleFeedback.fbCnt = s.fbCnt := rfl
@[simp] theorem State.sampleFeedback_enIn (s : State) : s.sampleFeedback.enIn = s.enIn := rfl
@[simp] theorem State.sampleFeedback_script (s : State) : s.sampleFeedback.script = s.script := rfl

/-! ## `pidError` -/

@[simp] theorem State.pidError_cfg (s : State) : s.pidError.cfg = s.cfg := rfl
@[simp] theorem State.pidError_par (s : State) : s.pidError.par = s.par := rfl
@[simp] theorem State.pidError_jerk (s : State) : s.pidError.jerk = s.jerk := rfl
@[simp] theorem State.pidError_trk (s : State) : s.pidError.trk = s.trk := rfl
@[simp] theorem State.pidError_fg (s : State) : s.pidError.fg = s.fg := rfl
@[simp] theorem State.pidError_delayCnt (s : State) : s.pidError.delayCnt = s.delayCnt := rfl
@[simp] theorem State.pidError_lineReady (s : State) : s.pidError.lineReady = s.lineReady := rfl
@[simp] theorem State.pidError_lineBuf (s : State) : s.pidError.lineBuf = s.lineBuf := rfl
@[simp] theorem State.pidError_ind (s : State) : s.pidError.ind = s.ind := rfl
@[simp] theorem State.pidError_isrOn (s : State) : s.pidError.isrOn = s.isrOn := rfl
@[simp] theorem State.pidError_halted (s : State) : s.pidError.halted = s.halted := rfl
@[simp] theorem State.pidError_pwmPos (s : State) : s.pidError.pwmPos = s.pwmPos := rfl
@[simp] theorem State.pidError_pwmNeg (s : State) : s.pidError.pwmNeg = s.pwmNeg := rfl
@[simp] theorem State.pidError_dutyTrace (s : State) : s.pidError.dutyTrace = s.dutyTrace := rfl
@[simp] theorem State.pidError_tx (s : State) : s.pidError.tx = s.tx := rfl
@[simp] theorem State.pidError_xlog (s : State) : s.pidError.xlog = s.xlog := rfl
@[simp] theorem State.pidError_nvm (s : State) : s.pidError.nvm = s.nvm := rfl
@[simp] theorem State.pidError_cmdCnt (s : State) : s.pidError.cmdCnt = s.cmdCnt := rfl
@[simp] theorem State.pidError_fbCnt (s : State) : s.pidError.fbCnt = s.fbCnt := rfl
@[simp] theorem State.pidError_enIn (s : State) : s.pidError.enIn = s.enIn := rfl
@[simp] theorem State.pidError_script (s : State) : s.pidError.script = s.script := rfl
@[simp] theorem State.pidError_ctl_cmdAcc (s : State) : s.pidError.ctl.cmdAcc = s.ctl.cmdAcc := rfl
@[simp] theorem State.pidError_ctl_fbAcc (s : State) : s.pidError.ctl.fbAcc = s.ctl.fbAcc := rfl
@[simp] theorem State.pidError_ctl_prevCommand (s : State) : s.pidError.ctl.prevCommand = s.ctl.prevCommand := rfl
@[simp] theorem State.pidError_ctl_errorIntegral (s : State) :
    s.pidError.ctl.errorIntegral = s.ctl.errorIntegral := rfl
@[simp] theorem State.pidError_ctl_prevError (s : State) : s.pidError.ctl.prevError = s.ctl.prevError := rfl
@[simp] theorem State.pidError_ctl_errorDerivative (s : State) :
    s.pidError.ctl.errorDerivative = s.ctl.errorDerivative := rfl
@[simp] theorem State.pidError_ctl_commandDerivative (s : State) :
    s.pidError.ctl.commandDerivative = s.ctl.commandDerivative := rfl
@[simp] theorem State.pidError_ctl_output (s : State) : s.pidError.ctl.output = s.ctl.output := rfl
@[simp] theorem State.pidError_ctl_enabled (s : State) : s.pidError.ctl.enabled = s.ctl.enabled := rfl
@[simp] theorem State.pidError_ctl_inLimit (s : State) : s.pidError.ctl.inLimit = s.ctl.inLimit := rfl
@[simp] theorem State.pidError_ctl_maxObservedError (s : State) :
    s.pidError.ctl.maxObservedError = s.ctl.maxObservedError := rfl
@[simp] theorem State.pidError_ctl_fault (s : State) : s.pidError.ctl.fault = s.ctl.fault := rfl
@[simp] theorem State.pidError_ctl_error (s : State) :
    s.pidError.ctl.error = s.cfg.wrapAcc (s.ctl.cmdAcc - s.ctl.fbAcc) := rfl

/-! ## `pidMaxError` -/

@[simp] theorem State.pidMaxError_cfg (s : State) : s.pidMaxError.cfg = s.cfg := rfl
@[simp] theorem State.pidMaxError_par (s : State) : s.pidMaxError.par = s.par := rfl
@[simp] theorem State.pidMaxError_jerk (s : State) : s.pidMaxError.jerk = s.jerk := rfl
@[simp] theorem State.pidMaxError_trk (s : State) : s.pidMaxError.trk = s.trk := rfl
@[simp] theorem State.pidMaxError_fg (s : State) : s.pidMaxError.fg = s.fg := rfl
@[simp] theorem State.pidMaxError_delayCnt (s : State) : s.pidMaxError.delayCnt = s.delayCnt := rfl
@[simp] theorem State.pidMaxError_lineReady (s : State) : s.pidMaxError.lineReady = s.lineReady := rfl
@[simp] theorem State.pidMaxError_lineBuf (s : State) : s.pidMaxError.lineBuf = s.lineBuf := rfl
@[simp] theorem State.pidMaxError_ind (s : State) : s.pidMaxError.ind = s.ind := rfl
@[simp] theorem State.pidMaxError_isrOn (s : State) : s.pidMaxError.isrOn = s.isrOn := rfl
@[simp] theorem State.pidMaxError_halted (s : State) : s.pidMaxError.halted = s.halted := rfl
@[simp] theorem State.pidMaxError_pwmPos (s : State) : s.pidMaxError.pwmPos = s.pwmPos := rfl
@[simp] theorem State.pidMaxError_pwmNeg (s : State) : s.pidMaxError.pwmNeg = s.pwmNeg := rfl
@[simp] theorem State.pidMaxError_dutyTrace (s : State) : s.pidMaxError.dutyTrace = s.dutyTrace := rfl
@[simp] theorem State.pidMaxError_tx (s : State) : s.pidMaxError.tx = s.tx := rfl
@[simp] theorem State.pidMaxError_xlog (s : State) : s.pidMaxError.xlog = s.xlog := rfl
@[simp] theorem State.pidMaxError_nvm (s : State) : s.pidMaxError.nvm = s.nvm := rfl
@[simp] theorem State.pidMaxError_cmdCnt (s : State) : s.pidMaxError.cmdCnt = s.cmdCnt := rfl
@[simp] theorem State.pidMaxError_fbCnt (s : State) : s.pidMaxError.fbCnt = s.fbCnt := rfl
@[simp] theorem State.pidMaxError_enIn (s : State) : s.pidMaxError.enIn = s.enIn := rfl
@[simp] theorem State.pidMaxError_script (s : State) : s.pidMaxError.script = s.script := rfl
@[simp] theorem State.pidMaxError_ctl_cmdAcc (s : State) : s.pidMaxError.ctl.cmdAcc = s.ctl.cmdAcc := rfl
@[simp] theorem State.pidMaxError_ctl_fbAcc (s : State) : s.pidMaxError.ctl.fbAcc = s.ctl.fbAcc := rfl
@[simp] theorem State.pidMaxError_ctl_prevCommand (s : State) :
    s.pidMaxError.ctl.prevCommand = s.ctl.prevCommand := rfl
@[simp] theorem State.pidMaxError_ctl_error (s : State) : s.pidMaxError.ctl.error = s.ctl.error := rfl
@[simp] theorem State.pidMaxError_ctl_errorIntegral (s : State) :
    s.pidMaxError.ctl.errorIntegral = s.ctl.errorIntegral := rfl
@[simp] theorem State.pidMaxError_ctl_prevError (s : State) : s.pidMaxError.ctl.prevError = s.ctl.prevError := rfl
@[simp] theorem State.pidMaxError_ctl_errorDerivative (s : State) :
    s.pidMaxError.ctl.errorDerivative = s.ctl.errorDerivative := rfl
@[simp] theorem State.pidMaxError_ctl_commandDerivative (s : State) :
    s.pidMaxError.ctl.commandDerivative = s.ctl.commandDerivative := rfl
@[simp] theorem State.pidMaxError_ctl_output (s : State) : s.pidMaxError.ctl.output = s.ctl.output := rfl
@[simp] theorem State.pidMaxError_ctl_enabled (s : State) : s.pidMaxError.ctl.enabled = s.ctl.enabled := rfl
@[simp] theorem State.pidMaxError_ctl_inLimit (s : State) : s.pidMaxError.ctl.inLimit = s.ctl.inLimit := rfl
@[simp] theorem State.pidMaxError_ctl_fault (s : State) : s.pidMaxError.ctl.fault = s.ctl.fault := rfl

/-! ## `pidIntegral` -/

@[simp] theorem State.pidIntegral_cfg (s : State) : s.pidIntegral.cfg = s.cfg := rfl
@[simp] theorem State.pidIntegral_par (s : State) : s.pidIntegral.par = s.par := rfl
@[simp] theorem State.pidIntegral_jerk (s : State) : s.pidIntegral.jerk = s.jerk := rfl
@[simp] theorem State.pidIntegral_trk (s : State) : s.pidIntegral.trk = s.trk := rfl
@[simp] theorem State.pidIntegral_fg (s : State) : s.pidIntegral.fg = s.fg := rfl
@[simp] theorem State.pidIntegral_delayCnt (s : State) : s.pidIntegral.delayCnt = s.delayCnt := rfl
@[simp] theorem State.pidIntegral_lineReady (s : State) : s.pidIntegral.lineReady = s.lineReady := rfl
@[simp] theorem State.pidIntegral_lineBuf (s : State) : s.pidIntegral.lineBuf = s.lineBuf := rfl
@[simp] theorem State.pidIntegral_ind (s : State) : s.pidIntegral.ind = s.ind := rfl
@[simp] theorem State.pidIntegral_isrOn (s : State) : s.pidIntegral.isrOn = s.isrOn := rfl
@[simp] theorem State.pidIntegral_halted (s : State) : s.pidIntegral.halted = s.halted := rfl
@[simp] theorem State.pidIntegral_pwmPos (s : State) : s.pidIntegral.pwmPos = s.pwmPos := rfl
@[simp] theorem State.pidIntegral_pwmNeg (s : State) : s.pidIntegral.pwmNeg = s.pwmNeg := rfl
@[simp] theorem State.pidIntegral_dutyTrace (s : State) : s.pidIntegral.dutyTrace = s.dutyTrace := rfl
@[simp] theorem State.pidIntegral_tx (s : State) : s.pidIntegral.tx = s.tx := rfl
@[simp] theorem State.pidIntegral_xlog (s : State) : s.pidIntegral.xlog = s.xlog := rfl
@[simp] theorem State.pidIntegral_nvm (s : State) : s.pidIntegral.nvm = s.nvm := rfl
@[simp] theorem State.pidIntegral_cmdCnt (s : State) : s.pidIntegral.cmdCnt = s.cmdCnt := rfl
@[simp] theorem State.pidIntegral_fbCnt (s : State) : s.pidIntegral.fbCnt = s.fbCnt := rfl
@[simp] theorem State.pidIntegral_enIn (s : State) : s.pidIntegral.enIn = s.enIn := rfl
@[simp] theorem State.pidIntegral_script (s : State) : s.pidIntegral.script = s.script := rfl
@[simp] theorem State.pidIntegral_ctl_cmdAcc (s : State) : s.pidIntegral.ctl.cmdAcc = s.ctl.cmdAcc := rfl
@[simp] theorem State.pidIntegral_ctl_fbAcc (s : State) : s.pidIntegral.ctl.fbAcc = s.ctl.fbAcc := rfl
@[simp] theorem State.pidIntegral_ctl_prevCommand (s : State) :
    s.pidIntegral.ctl.prevCommand = s.ctl.prevCommand := rfl
@[simp] theorem State.pidIntegral_ctl_error (s : State) : s.pidIntegral.ctl.error = s.ctl.error := rfl
@[simp] theorem State.pidIntegral_ctl_prevError (s : State) : s.pidIntegral.ctl.prevError = s.ctl.prevError := rfl
@[simp] theorem State.pidIntegral_ctl_errorDerivative (s : State) :
    s.pidIntegral.ctl.errorDerivative = s.ctl.errorDerivative := rfl
@[simp] theorem State.pidIntegral_ctl_commandDerivative (s : State) :
    s.pidIntegral.ctl.commandDerivative = s.ctl.commandDerivative := rfl
@[simp] theorem State.pidIntegral_ctl_output (s : State) : s.pidIntegral.ctl.output = s.ctl.output := rfl
@[simp] theorem State.pidIntegral_ctl_enabled (s : State) : s.pidIntegral.ctl.enabled = s.ctl.enabled := rfl
@[simp] theorem State.pidIntegral_ctl_inLimit (s : State) : s.pidIntegral.ctl.inLimit = s.ctl.inLimit := rfl
@[simp] theorem State.pidIntegral_ctl_maxObservedError (s : State) :
    s.pidIntegral.ctl.maxObservedError = s.ctl.maxObservedError := rfl
@[simp] theorem State.pidIntegral_ctl_fault (s : State) : s.pidIntegral.ctl.fault = s.ctl.fault := rfl

/-! ## `pidErrorDerivative` -/

@[simp] theorem State.pidErrorDerivative_cfg (s : State) : s.pidErrorDerivative.cfg = s.cfg := rfl
@[simp] theorem State.pidErrorDerivative_par (s : State) : s.pidErrorDerivative.par = s.par := rfl
@[simp] theorem State.pidErrorDerivative_jerk (s : State) : s.pidErrorDerivative.jerk = s.jerk := rfl
@[simp] theorem State.pidErrorDerivative_trk (s : State) : s.pidErrorDerivative.trk = s.trk := rfl
@[simp] theorem State.pidErrorDerivative_fg (s : State) : s.pidErrorDerivative.fg = s.fg := rfl
@[simp] theorem State.pidErrorDerivative_delayCnt (s : State) : s.pidErrorDerivative.delayCnt = s.delayCnt := rfl
@[simp] theorem State.pidErrorDerivative_lineReady (s : State) : s.pidErrorDerivative.lineReady = s.lineReady := rfl
@[simp] theorem State.pidErrorDerivative_lineBuf (s : State) : s.pidErrorDerivative.lineBuf = s.lineBuf := rfl
@[simp] theorem State.pidErrorDerivative_ind (s : State) : s.pidErrorDerivative.ind = s.ind := rfl
@[simp] theorem State.pidErrorDerivative_isrOn (s : State) : s.pidErrorDerivative.isrOn = s.isrOn := rfl
@[simp] theorem State.pidErrorDerivative_halted (s : State) : s.pidErrorDerivative.halted = s.halted := rfl
@[simp] theorem State.pidErrorDerivative_pwmPos (s : State) : s.pidErrorDerivative.pwmPos = s.pwmPos := rfl
@[simp] theorem State.pidErrorDerivative_pwmNeg (s : State) : s.pidErrorDerivative.pwmNeg = s.pwmNeg := rfl
@[simp] theorem State.pidErrorDerivative_dutyTrace (s : State) : s.pidErrorDerivative.dutyTrace = s.dutyTrace := rfl
@[simp] theorem State.pidErrorDerivative_tx (s : State) : s.pidErrorDerivative.tx = s.tx := rfl
@[simp] theorem State.pidErrorDerivative_xlog (s : State) : s.pidErrorDerivative.xlog = s.xlog := rfl
@[simp] theorem State.pidErrorDerivative_nvm (s : State) : s.pidErrorDerivative.nvm = s.nvm := rfl
@[simp] theorem State.pidErrorDerivative_cmdCnt (s : State) : s.pidErrorDerivative.cmdCnt = s.cmdCnt := rfl
@[simp] theorem State.pidErrorDerivative_fbCnt (s : State) : s.pidErrorDerivative.fbCnt = s.fbCnt := rfl
@[simp] theorem State.pidErrorDerivative_enIn (s : State) : s.pidErrorDerivative.enIn = s.enIn := rfl
@[simp] theorem State.pidErrorDerivative_script (s : State) : s.pidErrorDerivative.script = s.script := rfl
@[simp] theorem State.pidErrorDerivative_ctl_cmdAcc (s : State) :
    s.pidErrorDerivative.ctl.cmdAcc = s.ctl.cmdAcc := rfl
@[simp] theorem State.pidErrorDerivative_ctl_fbAcc (s : State) : s.pidErrorDerivative.ctl.fbAcc = s.ctl.fbAcc := rfl
@[simp] theorem State.pidErrorDerivative_ctl_prevCommand (s : State) :
    s.pidErrorDerivative.ctl.prevCommand = s.ctl.prevCommand := rfl
@[simp] theorem State.pidErrorDerivative_ctl_error (s : State) : s.pidErrorDerivative.ctl.error = s.ctl.error := rfl
@[simp] theorem State.pidErrorDerivative_ctl_errorIntegral (s : State) :
    s.pidErrorDerivative.ctl.errorIntegral = s.ctl.errorIntegral := rfl
@[simp] theorem State.pidErrorDerivative_ctl_commandDerivative (s : State) :
    s.pidErrorDerivative.ctl.commandDerivative = s.ctl.commandDerivative := rfl
@[simp] theorem State.pidErrorDerivative_ctl_output (s : State) :
    s.pidErrorDerivative.ctl.output = s.ctl.output := rfl
@[simp] theorem State.pidErrorDerivative_ctl_enabled (s : State) :
    s.pidErrorDerivative.ctl.enabled = s.ctl.enabled := rfl
@[simp] theorem State.pidErrorDerivative_ctl_inLimit (s : State) :
    s.pidErrorDerivative.ctl.inLimit = s.ctl.inLimit := rfl
@[simp] theorem State.pidErrorDerivative_ctl_maxObservedError (s : State) :
    s.pidErrorDerivative.ctl.maxObservedError = s.ctl.maxObservedError := rfl
@[simp] theorem State.pidErrorDerivative_ctl_fault (s : State) : s.pidErrorDerivative.ctl.fault = s.ctl.fault := rfl
@[simp] theorem State.pidErrorDerivative_ctl_prevError (s : State) :
    s.pidErrorDerivative.ctl.prevError = s.errorUsed := rfl

/-! ## `pidCommandDerivative` -/

@[simp] theorem State.pidCommandDerivative_cfg (s : State) : s.pidCommandDerivative.cfg = s.cfg := rfl
@[simp] theorem State.pidCommandDerivative_par (s : State) : s.pidCommandDerivative.par = s.par := rfl
@[simp] theorem State.pidCommandDerivative_jerk (s : State) : s.pidCommandDerivative.jerk = s.jerk := rfl
@[simp] theorem State.pidCommandDerivative_trk (s : State) : s.pidCommandDerivative.trk = s.trk := rfl
@[simp] theorem State.pidCommandDerivative_fg (s : State) : s.pidCommandDerivative.fg = s.fg := rfl
@[simp] theorem State.pidCommandDerivative_delayCnt (s : State) : s.pidCommandDerivative.delayCnt = s.delayCnt := rfl
@[simp] theorem State.pidCommandDerivative_lineReady (s : State) :
    s.pidCommandDerivative.lineReady = s.lineReady := rfl
@[simp] theorem State.pidCommandDerivative_lineBuf (s : State) : s.pidCommandDerivative.lineBuf = s.lineBuf := rfl
@[simp] theorem State.pidCommandDerivative_ind (s : State) : s.pidCommandDerivative.ind = s.ind := rfl
@[simp] theorem State.pidCommandDerivative_isrOn (s : State) : s.pidCommandDerivative.isrOn = s.isrOn := rfl
@[simp] theorem State.pidCommandDerivative_halted (s : State) : s.pidCommandDerivative.halted = s.halted := rfl
@[simp] theorem State.pidCommandDerivative_pwmPos (s : State) : s.pidCommandDerivative.pwmPos = s.pwmPos := rfl
@[simp] theorem State.pidCommandDerivative_pwmNeg (s : State) : s.pidCommandDerivative.pwmNeg = s.pwmNeg := rfl
@[simp] theorem State.pidCommandDerivative_dutyTrace (s : State) :
    s.pidCommandDerivative.dutyTrace = s.dutyTrace := rfl
@[simp] theorem State.pidCommandDerivative_tx (s : State) : s.pidCommandDerivative.tx = s.tx := rfl
@[simp] theorem State.pidCommandDerivative_xlog (s : State) : s.pidCommandDerivative.xlog = s.xlog := rfl
@[simp] theorem State.pidCommandDerivative_nvm (s : State) : s.pidCommandDerivative.nvm = s.nvm := rfl
@[simp] theorem State.pidCommandDerivative_cmdCnt (s : State) : s.pidCommandDerivative.cmdCnt = s.cmdCnt := rfl
@[simp] theorem State.pidCommandDerivative_fbCnt (s : State) : s.pidCommandDerivative.fbCnt = s.fbCnt := rfl
@[simp] theorem State.pidCommandDerivative_enIn (s : State) : s.pidCommandDerivative.enIn = s.enIn := rfl
@[simp] theorem State.pidCommandDerivative_script (s : State) : s.pidCommandDerivative.script = s.script := rfl
@[simp] theorem State.pidCommandDerivative_ctl_cmdAcc (s : State) :
    s.pidCommandDerivative.ctl.cmdAcc = s.ctl.cmdAcc := rfl
@[simp] theorem State.pidCommandDerivative_ctl_fbAcc (s : State) :
    s.pidCommandDerivative.ctl.fbAcc = s.ctl.fbAcc := rfl
@[simp] theorem State.pidCommandDerivative_ctl_error (s : State) :
    s.pidCommandDerivative.ctl.error = s.ctl.error := rfl
@[simp] theorem State.pidCommandDerivative_ctl_errorIntegral (s : State) :
    s.pidCommandDerivative.ctl.errorIntegral = s.ctl.errorIntegral := rfl
@[simp] theorem State.pidCommandDerivative_ctl_prevError (s : State) :
    s.pidCommandDerivative.ctl.prevError = s.ctl.prevError := rfl
@[simp] theorem State.pidCommandDerivative_ctl_errorDerivative (s : State) :
    s.pidCommandDerivative.ctl.errorDerivative = s.ctl.errorDerivative := rfl
@[simp] theorem State.pidCommandDerivative_ctl_output (s : State) :
    s.pidCommandDerivative.ctl.output = s.ctl.output := rfl
@[simp] theorem State.pidCommandDerivative_ctl_enabled (s : State) :
    s.pidCommandDerivative.ctl.enabled = s.ctl.enabled := rfl
@[simp] theorem State.pidCommandDerivative_ctl_inLimit (s : State) :
    s.pidCommandDerivative.ctl.inLimit = s.ctl.inLimit := rfl
@[simp] theorem State.pidCommandDerivative_ctl_maxObservedError (s : State) :
    s.pidCommandDerivative.ctl.maxObservedError = s.ctl.maxObservedError := rfl
@[simp] theorem State.pidCommandDerivative_ctl_fault (s : State) :
    s.pidCommandDerivative.ctl.fault = s.ctl.fault := rfl
@[simp] theorem State.pidCommandDerivative_ctl_prevCommand (s : State) :
    s.pidCommandDerivative.ctl.prevCommand = s.ctl.cmdAcc := rfl

/-! ## `pidOutput` -/

@[simp] theorem State.pidOutput_cfg (s : State) : s.pidOutput.cfg = s.cfg := rfl
@[simp] theorem State.pidOutput_par (s : State) : s.pidOutput.par = s.par := rfl
@[simp] theorem State.pidOutput_jerk (s : State) : s.pidOutput.jerk = s.jerk := rfl
@[simp] theorem State.pidOutput_trk (s : State) : s.pidOutput.trk = s.trk := rfl
@[simp] theorem State.pidOutput_fg (s : State) : s.pidOutput.fg = s.fg := rfl
@[simp] theorem State.pidOutput_delayCnt (s : State) : s.pidOutput.delayCnt = s.delayCnt := rfl
@[simp] theorem State.pidOutput_lineReady (s : State) : s.pidOutput.lineReady = s.lineReady := rfl
@[simp] theorem State.pidOutput_lineBuf (s : State) : s.pidOutput.lineBuf = s.lineBuf := rfl
@[simp] theorem State.pidOutput_ind (s : State) : s.pidOutput.ind = s.ind := rfl
@[simp] theorem State.pidOutput_isrOn (s : State) : s.pidOutput.isrOn = s.isrOn := rfl
@[simp] theorem State.pidOutput_halted (s : State) : s.pidOutput.halted = s.halted := rfl
@[simp] theorem State.pidOutput_pwmPos (s : State) : s.pidOutput.pwmPos = s.pwmPos := rfl
@[simp] theorem State.pidOutput_pwmNeg (s : State) : s.pidOutput.pwmNeg = s.pwmNeg := rfl
@[simp] theorem State.pidOutput_dutyTrace (s : State) : s.pidOutput.dutyTrace = s.dutyTrace := rfl
@[simp] theorem State.pidOutput_tx (s : State) : s.pidOutput.tx = s.tx := rfl
@[simp] theorem State.pidOutput_xlog (s : State) : s.pidOutput.xlog = s.xlog := rfl
@[simp] theorem State.pidOutput_nvm (s : State) : s.pidOutput.nvm = s.nvm := rfl
@[simp] theorem State.pidOutput_cmdCnt (s : State) : s.pidOutput.cmdCnt = s.cmdCnt := rfl
@[simp] theorem State.pidOutput_fbCnt (s : State) : s.pidOutput.fbCnt = s.fbCnt := rfl
@[simp] theorem State.pidOutput_enIn (s : State) : s.pidOutput.enIn = s.enIn := rfl
@[simp] theorem State.pidOutput_script (s : State) : s.pidOutput.script = s.script := rfl
@[simp] theorem State.pidOutput_ctl_cmdAcc (s : State) : s.pidOutput.ctl.cmdAcc = s.ctl.cmdAcc := rfl
@[simp] theorem State.pidOutput_ctl_fbAcc (s : State) : s.pidOutput.ctl.fbAcc = s.ctl.fbAcc := rfl
@[simp] theorem State.pidOutput_ctl_prevCommand (s : State) : s.pidOutput.ctl.prevCommand = s.ctl.prevCommand := rfl
@[simp] theorem State.pidOutput_ctl_error (s : State) : s.pidOutput.ctl.error = s.ctl.error := rfl
@[simp] theorem State.pidOutput_ctl_errorIntegral (s : State) :
    s.pidOutput.ctl.errorIntegral = s.ctl.errorIntegral := rfl
@[simp] theorem State.pidOutput_ctl_prevError (s : State) : s.pidOutput.ctl.prevError = s.ctl.prevError := rfl
@[simp] theorem State.pidOutput_ctl_errorDerivative (s : State) :
    s.pidOutput.ctl.errorDerivative = s.ctl.errorDerivative := rfl
@[simp] theorem State.pidOutput_ctl_commandDerivative (s : State) :
    s.pidOutput.ctl.commandDerivative = s.ctl.commandDerivative := rfl
@[simp] theorem State.pidOutput_ctl_enabled (s : State) : s.pidOutput.ctl.enabled = s.ctl.enabled := rfl
@[simp] theorem State.pidOutput_ctl_inLimit (s : State) : s.pidOutput.ctl.inLimit = s.ctl.inLimit := rfl
@[simp] theorem State.pidOutput_ctl_maxObservedError (s : State) :
    s.pidOutput.ctl.maxObservedError = s.ctl.maxObservedError := rfl
@[simp] theorem State.pidOutput_ctl_fault (s : State) : s.pidOutput.ctl.fault = s.ctl.fault := rfl

/-! ## `track` -/

@[simp] theorem State.track_cfg (s : State) (c f : Count) : (s.track c f).cfg = s.cfg := rfl
@[simp] theorem State.track_par (s : State) (c f : Count) : (s.track c f).par = s.par := rfl
@[simp] theorem State.track_jerk (s : State) (c f : Count) : (s.track c f).jerk = s.jerk := rfl
@[simp] theorem State.track_fg (s : State) (c f : Count) : (s.track c f).fg = s.fg := rfl
@[simp] theorem State.track_delayCnt (s : State) (c f : Count) : (s.track c f).delayCnt = s.delayCnt := rfl
@[simp] theorem State.track_lineReady (s : State) (c f : Count) : (s.track c f).lineReady = s.lineReady := rfl
@[simp] theorem State.track_lineBuf (s : State) (c f : Count) : (s.track c f).lineBuf = s.lineBuf := rfl
@[simp] theorem State.track_ind (s : State) (c f : Count) : (s.track c f).ind = s.ind := rfl
@[simp] theorem State.track_isrOn (s : State) (c f : Count) : (s.track c f).isrOn = s.isrOn := rfl
@[simp] theorem State.track_halted (s : State) (c f : Count) : (s.track c f).halted = s.halted := rfl
@[simp] theorem State.track_pwmPos (s : State) (c f : Count) : (s.track c f).pwmPos = s.pwmPos := rfl
@[simp] theorem State.track_pwmNeg (s : State) (c f : Count) : (s.track c f).pwmNeg = s.pwmNeg := rfl
@[simp] theorem State.track_dutyTrace (s : State) (c f : Count) : (s.track c f).dutyTrace = s.dutyTrace := rfl
@[simp] theorem State.track_tx (s : State) (c f : Count) : (s.track c f).tx = s.tx := rfl
@[simp] theorem State.track_xlog (s : State) (c f : Count) : (s.track c f).xlog = s.xlog := rfl
@[simp] theorem State.track_nvm (s : State) (c f : Count) : (s.track c f).nvm = s.nvm := rfl
@[simp] theorem State.track_cmdCnt (s : State) (c f : Count) : (s.track c f).cmdCnt = s.cmdCnt := rfl
@[simp] theorem State.track_fbCnt (s : State) (c f : Count) : (s.track c f).fbCnt = s.fbCnt := rfl
@[simp] theorem State.track_enIn (s : State) (c f : Count) : (s.track c f).enIn = s.enIn := rfl
@[simp] theorem State.track_script (s : State) (c f : Count) : (s.track c f).script = s.script := rfl
@[simp] theorem State.track_ctl_prevCommand (s : State) (c f : Count) :
    (s.track c f).ctl.prevCommand = s.ctl.prevCommand := rfl
@[simp] theorem State.track_ctl_error (s : State) (c f : Count) : (s.track c f).ctl.error = s.ctl.error := rfl
@[simp] theorem State.track_ctl_errorIntegral (s : State) (c f : Count) :
    (s.track c f).ctl.errorIntegral = s.ctl.errorIntegral := rfl
@[simp] theorem State.track_ctl_prevError (s : State) (c f : Count) :
    (s.track c f).ctl.prevError = s.ctl.prevError := rfl
@[simp] theorem State.track_ctl_errorDerivative (s : State) (c f : Count) :
    (s.track c f).ctl.errorDerivative = s.ctl.errorDerivative := rfl
@[simp] theorem State.track_ctl_commandDerivative (s : State) (c f : Count) :
    (s.track c f).ctl.commandDerivative = s.ctl.commandDerivative := rfl
@[simp] theorem State.track_ctl_output (s : State) (c f : Count) : (s.track c f).ctl.output = s.ctl.output := rfl
@[simp] theorem State.track_ctl_enabled (s : State) (c f : Count) : (s.track c f).ctl.enabled = s.ctl.enabled := rfl
@[simp] theorem State.track_ctl_inLimit (s : State) (c f : Count) : (s.track c f).ctl.inLimit = s.ctl.inLimit := rfl
@[simp] theorem State.track_ctl_maxObservedError (s : State) (c f : Count) :
    (s.track c f).ctl.maxObservedError = s.ctl.maxObservedError := rfl
@[simp] theorem State.track_ctl_fault (s : State) (c f : Count) : (s.track c f).ctl.fault = s.ctl.fault := rfl
@[simp] theorem State.track_trk_cycleCount (s : State) (c f : Count) :
    (s.track c f).trk.cycleCount = s.trk.cycleCount := rfl
@[simp] theorem State.track_trk_prevEnabled (s : State) (c f : Count) :
    (s.track c f).trk.prevEnabled = s.trk.prevEnabled := rfl
@[simp] theorem State.track_ctl_cmdAcc (s : State) (c f : Count) :
    (s.track c f).ctl.cmdAcc = s.cfg.wrapAcc (s.ctl.cmdAcc + s.cmdDelta c) := rfl
@[simp] theorem State.track_ctl_fbAcc (s : State) (c f : Count) :
    (s.track c f).ctl.fbAcc = s.cfg.wrapAcc (s.ctl.fbAcc + rawDelta s.cfg f s.trk.lastFbRaw) := rfl
@[simp] theorem State.track_trk_lastCmdRaw (s : State) (c f : Count) : (s.track c f).trk.lastCmdRaw = c := rfl
@[simp] theorem State.track_trk_lastFbRaw (s : State) (c f : Count) : (s.track c f).trk.lastFbRaw = f := rfl

/-! ## `arm` -/

@[simp] theorem State.arm_cfg (s : State) (c f : Count) : (s.arm c f).cfg = s.cfg := rfl
@[simp] theorem State.arm_par (s : State) (c f : Count) : (s.arm c f).par = s.par := rfl
@[simp] theorem State.arm_jerk (s : State) (c f : Count) : (s.arm c f).jerk = s.jerk := rfl
@[simp] theorem State.arm_fg (s : State) (c f : Count) : (s.arm c f).fg = s.fg := rfl
@[simp] theorem State.arm_delayCnt (s : State) (c f : Count) : (s.arm c f).delayCnt = s.delayCnt := rfl
@[simp] theorem State.arm_lineReady (s : State) (c f : Count) : (s.arm c f).lineReady = s.lineReady := rfl
@[simp] theorem State.arm_lineBuf (s : State) (c f : Count) : (s.arm c f).lineBuf = s.lineBuf := rfl
@[simp] theorem State.arm_ind (s : State) (c f : Count) : (s.arm c f).ind = s.ind := rfl
@[simp] theorem State.arm_isrOn (s : State) (c f : Count) : (s.arm c f).isrOn = s.isrOn := rfl
@[simp] theorem State.arm_halted (s : State) (c f : Count) : (s.arm c f).halted = s.halted := rfl
@[simp] theorem State.arm_pwmPos (s : State) (c f : Count) : (s.arm c f).pwmPos = s.pwmPos := rfl
@[simp] theorem State.arm_pwmNeg (s : State) (c f : Count) : (s.arm c f).pwmNeg = s.pwmNeg := rfl
@[simp] theorem State.arm_dutyTrace (s : State) (c f : Count) : (s.arm c f).dutyTrace = s.dutyTrace := rfl
@[simp] theorem State.arm_tx (s : State) (c f : Count) : (s.arm c f).tx = s.tx := rfl
@[simp] theorem State.arm_xlog (s : State) (c f : Count) : (s.arm c f).xlog = s.xlog := rfl
@[simp] theorem State.arm_nvm (s : State) (c f : Count) : (s.arm c f).nvm = s.nvm := rfl
@[simp] theorem State.arm_cmdCnt (s : State) (c f : Count) : (s.arm c f).cmdCnt = s.cmdCnt := rfl
@[simp] theorem State.arm_fbCnt (s : State) (c f : Count) : (s.arm c f).fbCnt = s.fbCnt := rfl
@[simp] theorem State.arm_enIn (s : State) (c f : Count) : (s.arm c f).enIn = s.enIn := rfl
@[simp] theorem State.arm_script (s : State) (c f : Count) : (s.arm c f).script = s.script := rfl
@[simp] theorem State.arm_ctl_prevCommand (s : State) (c f : Count) :
    (s.arm c f).ctl.prevCommand = s.ctl.prevCommand := rfl
@[simp] theorem State.arm_ctl_error (s : State) (c f : Count) : (s.arm c f).ctl.error = s.ctl.error := rfl
@[simp] theorem State.arm_ctl_errorIntegral (s : State) (c f : Count) :
    (s.arm c f).ctl.errorIntegral = s.ctl.errorIntegral := rfl
@[simp] theorem State.arm_ctl_prevError (s : State) (c f : Count) : (s.arm c f).ctl.prevError = s.ctl.prevError := rfl
@[simp] theorem State.arm_ctl_errorDerivative (s : State) (c f : Count) :
    (s.arm c f).ctl.errorDerivative = s.ctl.errorDerivative := rfl
@[simp] theorem State.arm_ctl_commandDerivative (s : State) (c f : Count) :
    (s.arm c f).ctl.commandDerivative = s.ctl.commandDerivative := rfl
@[simp] theorem State.arm_ctl_output (s : State) (c f : Count) : (s.arm c f).ctl.output = s.ctl.output := rfl
@[simp] theorem State.arm_ctl_enabled (s : State) (c f : Count) : (s.arm c f).ctl.enabled = s.ctl.enabled := rfl
@[simp] theorem State.arm_ctl_inLimit (s : State) (c f : Count) : (s.arm c f).ctl.inLimit = s.ctl.inLimit := rfl
@[simp] theorem State.arm_ctl_maxObservedError (s : State) (c f : Count) :
    (s.arm c f).ctl.maxObservedError = s.ctl.maxObservedError := rfl
@[simp] theorem State.arm_ctl_fault (s : State) (c f : Count) : (s.arm c f).ctl.fault = s.ctl.fault := rfl
@[simp] theorem State.arm_trk_cycleCount (s : State) (c f : Count) :
    (s.arm c f).trk.cycleCount = s.trk.cycleCount := rfl
@[simp] theorem State.arm_trk_prevEnabled (s : State) (c f : Count) :
    (s.arm c f).trk.prevEnabled = s.trk.prevEnabled := rfl
@[simp] theorem State.arm_ctl_cmdAcc (s : State) (c f : Count) : (s.arm c f).ctl.cmdAcc = 0 := rfl
@[simp] theorem State.arm_ctl_fbAcc (s : State) (c f : Count) : (s.arm c f).ctl.fbAcc = 0 := rfl
@[simp] theorem State.arm_trk_lastCmdRaw (s : State) (c f : Count) : (s.arm c f).trk.lastCmdRaw = c := rfl
@[simp] theorem State.arm_trk_lastFbRaw (s : State) (c f : Count) : (s.arm c f).trk.lastFbRaw = f := rfl

/-! ## `enableEdge` -/

@[simp] theorem State.enableEdge_cfg (s : State) (c f : Count) : (s.enableEdge c f).cfg = s.cfg := rfl
@[simp] theorem State.enableEdge_par (s : State) (c f : Count) : (s.enableEdge c f).par = s.par := rfl
@[simp] theorem State.enableEdge_jerk (s : State) (c f : Count) : (s.enableEdge c f).jerk = s.jerk := rfl
@[simp] theorem State.enableEdge_fg (s : State) (c f : Count) : (s.enableEdge c f).fg = s.fg := rfl
@[simp] theorem State.enableEdge_delayCnt (s : State) (c f : Count) : (s.enableEdge c f).delayCnt = s.delayCnt := rfl
@[simp] theorem State.enableEdge_lineReady (s : State) (c f : Count) :
    (s.enableEdge c f).lineReady = s.lineReady := rfl
@[simp] theorem State.enableEdge_lineBuf (s : State) (c f : Count) : (s.enableEdge c f).lineBuf = s.lineBuf := rfl
@[simp] theorem State.enableEdge_ind (s : State) (c f : Count) : (s.enableEdge c f).ind = s.ind := rfl
@[simp] theorem State.enableEdge_isrOn (s : State) (c f : Count) : (s.enableEdge c f).isrOn = s.isrOn := rfl
@[simp] theorem State.enableEdge_halted (s : State) (c f : Count) : (s.enableEdge c f).halted = s.halted := rfl
@[simp] theorem State.enableEdge_pwmPos (s : State) (c f : Count) : (s.enableEdge c f).pwmPos = s.pwmPos := rfl
@[simp] theorem State.enableEdge_pwmNeg (s : State) (c f : Count) : (s.enableEdge c f).pwmNeg = s.pwmNeg := rfl
@[simp] theorem State.enableEdge_dutyTrace (s : State) (c f : Count) :
    (s.enableEdge c f).dutyTrace = s.dutyTrace := rfl
@[simp] theorem State.enableEdge_tx (s : State) (c f : Count) : (s.enableEdge c f).tx = s.tx := rfl
@[simp] theorem State.enableEdge_xlog (s : State) (c f : Count) : (s.enableEdge c f).xlog = s.xlog := rfl
@[simp] theorem State.enableEdge_nvm (s : State) (c f : Count) : (s.enableEdge c f).nvm = s.nvm := rfl
@[simp] theorem State.enableEdge_cmdCnt (s : State) (c f : Count) : (s.enableEdge c f).cmdCnt = s.cmdCnt := rfl
@[simp] theorem State.enableEdge_fbCnt (s : State) (c f : Count) : (s.enableEdge c f).fbCnt = s.fbCnt := rfl
@[simp] theorem State.enableEdge_enIn (s : State) (c f : Count) : (s.enableEdge c f).enIn = s.enIn := rfl
@[simp] theorem State.enableEdge_script (s : State) (c f : Count) : (s.enableEdge c f).script = s.script := rfl
@[simp] theorem State.enableEdge_ctl_enabled (s : State) (c f : Count) :
    (s.enableEdge c f).ctl.enabled = s.ctl.enabled := rfl
@[simp] theorem State.enableEdge_trk_cycleCount (s : State) (c f : Count) :
    (s.enableEdge c f).trk.cycleCount = s.trk.cycleCount := rfl
@[simp] theorem State.enableEdge_trk_prevEnabled (s : State) (c f : Count) :
    (s.enableEdge c f).trk.prevEnabled = s.trk.prevEnabled := rfl
@[simp] theorem State.enableEdge_ctl_cmdAcc (s : State) (c f : Count) : (s.enableEdge c f).ctl.cmdAcc = 0 := rfl
@[simp] theorem State.enableEdge_ctl_fbAcc (s : State) (c f : Count) : (s.enableEdge c f).ctl.fbAcc = 0 := rfl
@[simp] theorem State.enableEdge_ctl_prevCommand (s : State) (c f : Count) :
    (s.enableEdge c f).ctl.prevCommand = 0 := rfl
@[simp] theorem State.enableEdge_ctl_error (s : State) (c f : Count) : (s.enableEdge c f).ctl.error = 0 := rfl
@[simp] theorem State.enableEdge_ctl_errorIntegral (s : State) (c f : Count) :
    (s.enableEdge c f).ctl.errorIntegral = 0 := rfl
@[simp] theorem State.enableEdge_ctl_prevError (s : State) (c f : Count) : (s.enableEdge c f).ctl.prevError = 0 := rfl
@[simp] theorem State.enableEdge_ctl_errorDerivative (s : State) (c f : Count) :
    (s.enableEdge c f).ctl.errorDerivative = 0 := rfl
@[simp] theorem State.enableEdge_ctl_commandDerivative (s : State) (c f : Count) :
    (s.enableEdge c f).ctl.commandDerivative = 0 := rfl
@[simp] theorem State.enableEdge_ctl_output (s : State) (c f : Count) : (s.enableEdge c f).ctl.output = 0 := rfl
@[simp] theorem State.enableEdge_ctl_maxObservedError (s : State) (c f : Count) :
    (s.enableEdge c f).ctl.maxObservedError = 0 := rfl
@[simp] theorem State.enableEdge_ctl_inLimit (s : State) (c f : Count) : (s.enableEdge c f).ctl.inLimit = false := rfl
@[simp] theorem State.enableEdge_ctl_fault (s : State) (c f : Count) :
    (s.enableEdge c f).ctl.fault = if s.cfg.optFaultClearOnEnable then false else s.ctl.fault := rfl
@[simp] theorem State.enableEdge_trk_lastCmdRaw (s : State) (c f : Count) :
    (s.enableEdge c f).trk.lastCmdRaw = c := rfl
@[simp] theorem State.enableEdge_trk_lastFbRaw (s : State) (c f : Count) : (s.enableEdge c f).trk.lastFbRaw = f := rfl

end Sys2Proof.Machine
end

