-- ==== Sys2Proof/Laws/Exec.lean ====
section
/-! SUPPORT. What the shared operations can do, said once each: a micro-step of a command, a control cycle and its
parts, a turn and a step. -/

namespace Sys2Proof.Machine

/-! ## Commands -/

/-- The body each command runs. -/
def Instr.body (n : NumOps) : Instr → Body
  | .setp q => setReg n .pgain q
  | .seti q => setiBody n q
  | .setd q => setReg n .dgain q
  | .setff0 q => setReg n .ff0gain q
  | .setff1 q => setReg n .ff1gain q
  | .setb q => setReg n .deadband q
  | .setm q => setReg n .maxOutput q
  | .setf q => setReg n .maxError q
  | .setx q => setInt State.writeMultiplier 1 22 q
  | .sett q => setInt State.writeTicks 1 100 q
  | .setj q => setjBody n q
  | .rdfb => ⟨[State.sampleFeedback], [State.emitFeedback]⟩
  | .list => ⟨[], [State.emitDump]⟩
  | .stat => ⟨statSpan, [State.emitStat]⟩
  | .zero => ⟨zeroSpan, []⟩
  | .help first => ⟨[], [State.emitHelp first]⟩

theorem exec_eq (i : Instr) (s : State) : exec i s = runCommand i (Instr.body s.num i) s := by
  cases i <;> rfl

/-- A call of a command runs the micro-step its index selects; past the last one FG goes on with the jerk test. -/
theorem runCommand_cases (i : Instr) (b : Body) (s : State) :
    (∃ f, (b.microSteps s.cfg ++ epilogue i)[s.microIndex]? = some f ∧
      runCommand i b s =
        .next ((f s).afterMicro i (b.microSteps s.cfg ++ epilogue i).length s.microIndex)) ∨
    ((b.microSteps s.cfg ++ epilogue i).length ≤ s.microIndex ∧ runCommand i b s = .next (s.goto .jerkTest)) := by
  cases h : (b.microSteps s.cfg ++ epilogue i)[s.microIndex]? with
  | some f => exact .inl ⟨f, rfl, by simp only [runCommand, h]⟩
  | none => exact .inr ⟨List.getElem?_eq_none_iff.mp h, by simp only [runCommand, h]⟩

/-- The micro-step at an index that stands in the list. -/
theorem runCommand_at (i : Instr) (b : Body) (s : State) {f : State → State}
    (h : (b.microSteps s.cfg ++ epilogue i)[s.microIndex]? = some f) :
    runCommand i b s =
      .next ((f s).afterMicro i (b.microSteps s.cfg ++ epilogue i).length s.microIndex) := by
  simp only [runCommand, h]

/-- A fused list of micro-steps keeps what each of them keeps. -/
theorem fuse_induct {P : State → Prop} (fs : List (State → State)) (h : ∀ f ∈ fs, ∀ u, P u → P (f u)) :
    ∀ f ∈ fuse fs, ∀ u, P u → P (f u) := by
  intro f hf u hu
  cases fs with
  | nil => simp [fuse] at hf
  | cons g gs =>
    simp only [fuse, List.mem_singleton] at hf
    subst hf
    have key : ∀ (l : List (State → State)) (v : State), (∀ f ∈ l, ∀ u, P u → P (f u)) → P v →
        P (l.foldl (fun t f => f t) v) := by
      intro l
      induction l with
      | nil => intro v _ hv; exact hv
      | cons f l ih =>
        intro v hl hv
        exact ih (f v) (fun f' hf' => hl f' (List.mem_cons_of_mem _ hf')) (hl f List.mem_cons_self v hv)
    exact key (g :: gs) u h hu

/-- What every micro-step of a body and of the epilogue keeps, a call of the command keeps, up to FG's own phase and
decoded line. -/
theorem runCommand_induct {P : State → Prop} {i : Instr} {b : Body} {s t : State}
    (h : runCommand i b s = .next t) (hb : ∀ f ∈ b.span ++ (b.rest ++ epilogue i), ∀ u, P u → P (f u)) (hs : P s) :
    ∃ u, P u ∧ ((∃ n k, t = u.afterMicro i n k) ∨ t = u.goto .jerkTest) := by
  rcases runCommand_cases i b s with ⟨f, hf, hr⟩ | ⟨-, hr⟩
  · rw [hr] at h
    refine ⟨f s, ?_, .inl ⟨_, _, (Host.Outcome.next.inj h).symm⟩⟩
    have hm : f ∈ b.microSteps s.cfg ++ epilogue i := List.mem_of_getElem? hf
    simp only [Body.microSteps, List.mem_append] at hm
    rcases hm with (hm | hm) | hm
    · split at hm
      · exact fuse_induct b.span (fun g hg => hb g (by simp [hg])) f hm s hs
      · exact hb f (by simp [hm]) s hs
    · exact hb f (by simp [hm]) s hs
    · exact hb f (by simp [hm]) s hs
  · rw [hr] at h
    exact ⟨s, hs, .inr (Host.Outcome.next.inj h).symm⟩

/-! ## The interrupt steps -/

/-- A duty write leaves at most one side nonzero. -/
theorem State.writeDuty_eq (s : State) (dir : Direction) (mag : Half) :
    ∃ p n w, s.writeDuty dir mag = { s with pwmPos := p, pwmNeg := n, dutyTrace := s.dutyTrace ++ w } ∧
      ((p = mag ∧ n = 0) ∨ (p = 0 ∧ n = mag) ∨ (p = 0 ∧ n = 0)) := by
  cases dir
  · exact ⟨mag, 0, [.neg 0, .pos mag], by simp [State.writeDuty, State.drivePos, State.driveNeg], .inl ⟨rfl, rfl⟩⟩
  · exact ⟨0, mag, [.pos 0, .neg mag], by simp [State.writeDuty, State.drivePos, State.driveNeg],
      .inr (.inl ⟨rfl, rfl⟩)⟩
  · exact ⟨0, 0, [.pos 0, .neg 0], by simp [State.writeDuty, State.drivePos, State.driveNeg],
      .inr (.inr ⟨rfl, rfl⟩)⟩

/-- The gate writes a duty pair of one side, both zeros, or nothing. -/
theorem State.gateDuty_eq (s : State) (en : Bool) :
    ∃ p n w, s.gateDuty en = { s with pwmPos := p, pwmNeg := n, dutyTrace := s.dutyTrace ++ w } ∧
      ((p = s.dutyMag ∧ n = 0) ∨ (p = 0 ∧ n = s.dutyMag) ∨ (p = 0 ∧ n = 0) ∨
        (p = s.pwmPos ∧ n = s.pwmNeg ∧ w = [])) := by
  unfold State.gateDuty
  split
  · exact ⟨0, 0, [.pos 0, .neg 0], by simp [State.drivePos, State.driveNeg], by simp⟩
  · split
    · obtain ⟨p, n, w, h, hc⟩ := s.writeDuty_eq s.dutyDir s.dutyMag
      exact ⟨p, n, w, h, by tauto⟩
    · split
      · exact ⟨0, 0, [.pos 0, .neg 0], by simp [State.drivePos, State.driveNeg], by simp⟩
      · exact ⟨s.pwmPos, s.pwmNeg, [], by simp, by simp⟩

/-- The mapper writes the in-limit flag and passes the gate. -/
theorem State.map_eq (s : State) (en : Bool) :
    ∃ p n w, s.map en =
        { s with ctl := { s.ctl with inLimit := s.dutyInLimit }, pwmPos := p, pwmNeg := n, dutyTrace := s.dutyTrace ++ w } ∧
      ((p = s.dutyMag ∧ n = 0) ∨ (p = 0 ∧ n = s.dutyMag) ∨ (p = 0 ∧ n = 0) ∨
        (p = s.pwmPos ∧ n = s.pwmNeg ∧ w = [])) := by
  obtain ⟨p, n, w, h, hc⟩ := State.gateDuty_eq { s with ctl := { s.ctl with inLimit := s.dutyInLimit } } en
  exact ⟨p, n, w, h, hc⟩

/-- The fault check sets the latch and records the fault, or does nothing. -/
theorem State.pidFault_eq (s : State) :
    (s.positionFault = true ∧ s.pidFault =
      { s with ctl := { s.ctl with fault := true }, xlog := s.xlog ++ [.positionFault s.ctl.error] }) ∨
    (s.positionFault = false ∧ s.pidFault = s) := by
  unfold State.pidFault
  split
  · next h => exact .inl ⟨h, rfl⟩
  · next h => exact .inr ⟨by simpa using h, rfl⟩

/-- The engine before its fault check writes controller registers, none of them an accumulator, a flag or the
latch. -/
theorem State.pidBody_eq (s : State) :
    ∃ c, s.pidError.pidMaxError.pidIntegral.pidErrorDerivative.pidCommandDerivative.pidOutput = { s with ctl := c } ∧
      c.enabled = s.ctl.enabled ∧ c.cmdAcc = s.ctl.cmdAcc ∧ c.fbAcc = s.ctl.fbAcc ∧ c.inLimit = s.ctl.inLimit ∧
      c.error = s.cfg.wrapAcc (s.ctl.cmdAcc - s.ctl.fbAcc) ∧ c.fault = s.ctl.fault := by
  refine ⟨s.pidError.pidMaxError.pidIntegral.pidErrorDerivative.pidCommandDerivative.pidOutput.ctl, ?_, ?_⟩
  · ext <;> simp
  · simp

/-- The PID engine writes controller registers, none of them an accumulator or the enabled flag, and at most one
record. -/
theorem State.pid_eq (s : State) :
    ∃ c x, s.pid = { s with ctl := c, xlog := s.xlog ++ x } ∧ c.enabled = s.ctl.enabled ∧
      c.cmdAcc = s.ctl.cmdAcc ∧ c.fbAcc = s.ctl.fbAcc ∧ c.inLimit = s.ctl.inLimit ∧
      c.error = s.cfg.wrapAcc (s.ctl.cmdAcc - s.ctl.fbAcc) ∧
      ((x = [.positionFault c.error] ∧ c.fault = true) ∨ (x = [] ∧ c.fault = s.ctl.fault)) := by
  obtain ⟨c, hc, h1, h2, h3, h4, h5, h6⟩ := s.pidBody_eq
  unfold State.pid
  rw [hc]
  rcases State.pidFault_eq { s with ctl := c } with ⟨-, h⟩ | ⟨-, h⟩
  · exact ⟨{ c with fault := true }, [.positionFault c.error], h, h1, h2, h3, h4, h5, .inl ⟨rfl, rfl⟩⟩
  · exact ⟨c, [], by rw [h, List.append_nil], h1, h2, h3, h4, h5, .inr ⟨rfl, h6⟩⟩

/-- The edge check writes the tracker's registers and, on a rising edge, the controller's but for `enabled`. -/
theorem State.edgeCheck_eq (s : State) :
    ∃ c k, s.edgeCheck = { s with ctl := c, trk := k } ∧ c.enabled = s.ctl.enabled ∧
      k.cycleCount = s.trk.cycleCount ∧ k.prevEnabled = s.ctl.enabled ∧
      (c.fault = s.ctl.fault ∨ c.fault = false ∧ s.cfg.optFaultClearOnEnable = true ∧ s.ctl.enabled = true ∧
        s.trk.prevEnabled = false) := by
  unfold State.edgeCheck
  split
  · next h =>
    simp only [Bool.and_eq_true, Bool.not_eq_true'] at h
    refine ⟨_, _, rfl, rfl, rfl, rfl, ?_⟩
    by_cases ho : s.cfg.optFaultClearOnEnable = true
    · exact .inr ⟨by simp [State.enableEdge, State.arm, ho], ho, h.1, h.2⟩
    · exact .inl (by simp [State.enableEdge, State.arm, ho])
  · exact ⟨s.ctl, _, rfl, rfl, rfl, rfl, .inl rfl⟩

/-- A tick is ignored, counted, or a control cycle at count zero. -/
theorem State.tick_cases (s : State) :
    ((s.halted = true ∨ s.isrOn = false) ∧ s.tick = s) ∨
    (s.halted = false ∧ s.isrOn = true ∧ s.par.ticksPerServoCycle ≤ s.trk.cycleCount + 1 ∧
      s.tick = (s.setCycleCount 0).controlCycle) ∨
    (s.halted = false ∧ s.isrOn = true ∧ ¬ s.par.ticksPerServoCycle ≤ s.trk.cycleCount + 1 ∧
      s.tick = s.setCycleCount (s.trk.cycleCount + 1)) := by
  unfold State.tick State.isr1
  by_cases hb : (s.halted || !s.isrOn) = true
  · rw [if_pos hb]
    exact .inl ⟨by simpa using hb, rfl⟩
  · rw [if_neg hb]
    have hh : s.halted = false ∧ s.isrOn = true := by simpa using hb
    by_cases h : s.par.ticksPerServoCycle ≤ s.trk.cycleCount + 1
    · rw [if_pos h]
      exact .inr (.inl ⟨hh.1, hh.2, h, rfl⟩)
    · rw [if_neg h]
      exact .inr (.inr ⟨hh.1, hh.2, h, rfl⟩)

/-! ## Turns and steps -/

/-- A step takes FG's turn, drops an empty group, or takes the first event of the present group. -/
theorem step_cases (s : State) :
    (s.script = [] ∧ step s = s.turn .fg) ∨
    (∃ later, s.script = [] :: later ∧ step s = .next { s with script := later }) ∨
    (∃ g later e rest, s.script = g :: later ∧ firstOf g = some (e, rest) ∧
      step s = ({ s with script := leave rest later }).turn e) := by
  cases hs : s.script with
  | nil => exact .inl ⟨rfl, by simp only [step, hs]⟩
  | cons g later =>
    right
    cases hf : firstOf g with
    | none =>
      cases g with
      | nil => exact .inl ⟨later, rfl, by simp only [step, hs, firstOf]⟩
      | cons e es =>
        exfalso
        simp only [firstOf] at hf
        split at hf
        · cases hf
        · split at hf <;> cases hf
    | some p => exact .inr ⟨g, later, p.1, p.2, rfl, hf, by simp only [step, hs, hf]⟩

end Sys2Proof.Machine
end

