-- ==== Sys2Proof/Laws/Commands.lean ====
section
/-! SUPPORT. A command's micro-steps one after another: each is a plain function of the state that leaves FG's phase and
decoded line alone, so a whole command is their composition. -/

namespace Sys2Proof.Machine

/-- FG's phase and decoded line written. -/
def State.withProgress (p : Phase) (i : Instr) (s : State) : State :=
  { s with fg := { s.fg with phase := p, instr := i } }

/-- A micro-step that neither reads nor writes FG's phase and decoded line, and keeps the configuration. -/
structure PlainStep (f : State → State) : Prop where
  commutes : ∀ s p i, f (s.withProgress p i) = (f s).withProgress p i
  cfg : ∀ s, (f s).cfg = s.cfg

theorem plainStep_foldl (fs : List (State → State)) (h : ∀ f ∈ fs, PlainStep f) (s : State) (p : Phase) (i : Instr) :
    fs.foldl (fun t f => f t) (s.withProgress p i) = (fs.foldl (fun t f => f t) s).withProgress p i := by
  induction fs generalizing s with
  | nil => rfl
  | cons f fs ih =>
    simp only [List.foldl_cons]
    rw [(h f List.mem_cons_self).commutes, ih (fun g hg => h g (List.mem_cons_of_mem _ hg))]

/-- The micro-steps of a command, its epilogue among them. -/
def microList (c : Config) (i : Instr) : List (State → State) := (Instr.body c.arith i).microSteps c ++ epilogue i

theorem plainStep_fuse {fs : List (State → State)} (h : ∀ f ∈ fs, PlainStep f) : ∀ f ∈ fuse fs, PlainStep f := by
  intro f hf
  cases fs with
  | nil => simp [fuse] at hf
  | cons g gs =>
    simp only [fuse, List.mem_singleton] at hf
    subst hf
    refine ⟨fun s p i => plainStep_foldl _ h s p i, ?_⟩
    intro s
    have key : ∀ (l : List (State → State)) (v : State), (∀ f ∈ l, PlainStep f) →
        (l.foldl (fun t f => f t) v).cfg = v.cfg := by
      intro l
      induction l with
      | nil => intro v _; rfl
      | cons f l ih =>
        intro v hl
        rw [List.foldl_cons, ih _ (fun g hg => hl g (List.mem_cons_of_mem _ hg)), (hl f List.mem_cons_self).cfg]
    exact key _ s h

theorem plainStep_microList (c : Config) (i : Instr) : ∀ f ∈ microList c i, PlainStep f := by
  have hb : ∀ f ∈ (Instr.body c.arith i).span ++ ((Instr.body c.arith i).rest ++ epilogue i), PlainStep f := by
    have w (r v) : PlainStep (State.writeFloat r v) := ⟨fun _ _ _ => rfl, fun _ => rfl⟩
    have wc : PlainStep State.writeChecksum := ⟨fun _ _ _ => rfl, fun _ => rfl⟩
    have si : PlainStep State.saveImage := 
      ⟨fun s p i => by simp [State.saveImage, State.nvmSave, State.withProgress], fun s => by simp⟩
    have ed : PlainStep State.emitDump := ⟨fun _ _ _ => rfl, fun _ => rfl⟩
    have lr : PlainStep State.lineReset := ⟨fun _ _ _ => rfl, fun _ => rfl⟩
    have ep : PlainStep (State.emit .prompt) := ⟨fun _ _ _ => rfl, fun _ => rfl⟩
    have zi : PlainStep State.zeroIntegral := ⟨fun _ _ _ => rfl, fun _ => rfl⟩
    have wm (v) : PlainStep (State.writeMultiplier v) := ⟨fun _ _ _ => rfl, fun _ => rfl⟩
    have wt (v) : PlainStep (State.writeTicks v) := ⟨fun _ _ _ => rfl, fun _ => rfl⟩
    have wj (v) : PlainStep (State.writeJerk v) := ⟨fun _ _ _ => rfl, fun _ => rfl⟩
    have sf : PlainStep State.sampleFeedback := ⟨fun _ _ _ => rfl, fun _ => rfl⟩
    have ef : PlainStep State.emitFeedback := ⟨fun _ _ _ => rfl, fun _ => rfl⟩
    have es : PlainStep State.emitStat := ⟨fun _ _ _ => rfl, fun _ => rfl⟩
    have eh (x) : PlainStep (State.emitHelp x) := ⟨fun _ _ _ => rfl, fun _ => rfl⟩
    have ss : ∀ f ∈ statSpan, PlainStep f := by
      simp only [statSpan, List.forall_mem_cons]
      exact ⟨⟨fun _ _ _ => rfl, fun _ => rfl⟩, ⟨fun _ _ _ => rfl, fun _ => rfl⟩,
        ⟨fun _ _ _ => rfl, fun _ => rfl⟩, ⟨fun _ _ _ => rfl, fun _ => rfl⟩,
        ⟨fun _ _ _ => rfl, fun _ => rfl⟩, ⟨fun _ _ _ => rfl, fun _ => rfl⟩,
        ⟨fun _ _ _ => rfl, fun _ => rfl⟩, ⟨fun _ _ _ => rfl, fun _ => rfl⟩, by simp⟩
    have zs : ∀ f ∈ zeroSpan, PlainStep f := by
      simp only [zeroSpan, List.forall_mem_cons]
      exact ⟨⟨fun _ _ _ => rfl, fun _ => rfl⟩, ⟨fun _ _ _ => rfl, fun _ => rfl⟩, ⟨fun _ _ _ => rfl, fun _ => rfl⟩, by simp⟩
    cases i with
    | stat => intro f hf; simp only [Instr.body, epilogue, epilogueDumps, List.mem_append] at hf
              rcases hf with hf | hf
              · exact ss f hf
              · simp at hf; rcases hf with rfl | rfl | rfl | rfl <;> assumption
    | zero => intro f hf; simp only [Instr.body, epilogue, epilogueDumps, List.mem_append] at hf
              rcases hf with hf | hf
              · exact zs f hf
              · simp at hf; rcases hf with rfl | rfl | rfl <;> assumption
    | rdfb | list | help => simp [Instr.body, epilogue, epilogueDumps, *]
    | _ q => cases q <;> simp [Instr.body, epilogue, epilogueDumps, setReg, setiBody, setInt, setjBody, *]
  intro f hf
  simp only [microList, Body.microSteps, List.mem_append] at hf
  rcases hf with (hf | hf) | hf
  · split at hf
    · exact plainStep_fuse (fun g hg => hb g (by simp [hg])) f hf
    · exact hb f (by simp [hf])
  · exact hb f (by simp [hf])
  · exact hb f (by simp [hf])

theorem exec_at (i : Instr) (s : State) {f : State → State} (h : (microList s.cfg i)[s.microIndex]? = some f) :
    exec i s = .next ((f s).withProgress
      (if s.microIndex + 1 < (microList s.cfg i).length then .command (s.microIndex + 1) else .jerkTest) i) := by
  rw [exec_eq, State.num, runCommand_at i _ s h]
  rfl

/-- From micro-step `k` on, a command runs the rest of its micro-steps one after another. -/
theorem execRun_drop (i : Instr) (n : Nat) (s : State) (hk : s.microIndex + n = (microList s.cfg i).length)
    (hn : 0 < n) :
    execRun i n s =
      .next ((((microList s.cfg i).drop s.microIndex).foldl (fun t f => f t) s).withProgress .jerkTest i) := by
  induction n generalizing s with
  | zero => omega
  | succ n ih =>
    have hlt : s.microIndex < (microList s.cfg i).length := by omega
    have hm := plainStep_microList s.cfg i
    have hf := hm _ (List.getElem_mem hlt)
    rw [execRun, exec_at i s (List.getElem?_eq_getElem hlt)]
    simp only
    rw [List.drop_eq_getElem_cons hlt, List.foldl_cons]
    cases n with
    | zero =>
      rw [if_neg (by omega), List.drop_eq_nil_of_le (by omega)]
      rfl
    | succ n =>
      rw [if_pos (by omega)]
      have hc : (((microList s.cfg i)[s.microIndex] s).withProgress (.command (s.microIndex + 1)) i).cfg = s.cfg :=
        hf.cfg s
      have hx : (((microList s.cfg i)[s.microIndex] s).withProgress (.command (s.microIndex + 1)) i).microIndex =
        s.microIndex + 1 := rfl
      rw [ih _ (by rw [hc, hx]; omega) (by omega), hc, hx,
        plainStep_foldl _ (fun g hg => hm g (List.mem_of_mem_drop hg))]
      rfl

/-- A whole command with nothing between its micro-steps. -/
theorem execRun_whole (i : Instr) (s : State) (h : s.microIndex = 0) :
    execRun i (microList s.cfg i).length s =
      .next (((microList s.cfg i).foldl (fun t f => f t) s).withProgress .jerkTest i) := by
  have hp : 0 < (microList s.cfg i).length := by
    simp only [microList, epilogue, List.length_append, List.length_cons]
    omega
  rw [execRun_drop i _ s (by omega) hp, h, List.drop_zero]

end Sys2Proof.Machine
end

