-- ==== Sys2Proof/Laws/Memory.lean ====
section
/-! SUPPORT. The persisted image's store: reading after writing, and the canonical form. -/

namespace Sys2Proof.Machine

@[simp] theorem Memory.read_nil (a : Nat) : Memory.read [] a = none := rfl

theorem Memory.read_cons (c : Host.Cell) (m : Memory) (a : Nat) :
    Memory.read (c :: m) a = if c.1 = a then some c.2 else Memory.read m a := rfl

@[simp] theorem Memory.read_write_same (m : Memory) (a : Nat) (b : Byte) :
    Memory.read (Memory.write m a b) a = some b := by
  induction m with
  | nil => simp [Memory.write, Memory.read]
  | cons c m ih =>
    simp only [Memory.write]
    split
    · simp [Memory.read]
    · split
      · simp [Memory.read]
      · simp [Memory.read, *]

theorem Memory.read_write_other (m : Memory) {a o : Nat} (b : Byte) (h : o ≠ a) :
    Memory.read (Memory.write m a b) o = Memory.read m o := by
  induction m with
  | nil => simp [Memory.write, Memory.read, h.symm]
  | cons c m ih =>
    simp only [Memory.write]
    split
    · simp [Memory.read, h.symm]
    · split
      · next hc => simp [Memory.read, h.symm, hc]
      · simp [Memory.read, ih]

/-- Bytes written from `a` on: outside them nothing changes. -/
theorem Memory.read_writeBytes_outside (bs : List Byte) (m : Memory) (a o : Nat)
    (h : o < a ∨ a + bs.length ≤ o) : Memory.read (Memory.writeBytes m a bs) o = Memory.read m o := by
  induction bs generalizing m a with
  | nil => rw [Memory.writeBytes]
  | cons b bs ih =>
    simp only [List.length_cons] at h
    rw [Memory.writeBytes, ih _ _ (by omega), Memory.read_write_other _ _ (by omega)]

/-- Bytes written from `a` on are read back from their places. -/
theorem Memory.read_writeBytes_inside (bs : List Byte) (m : Memory) (a k : Nat) (h : k < bs.length) :
    Memory.read (Memory.writeBytes m a bs) (a + k) = some bs[k] := by
  induction bs generalizing m a k with
  | nil => simp at h
  | cons b bs ih =>
    cases k with
    | zero =>
      rw [Memory.writeBytes, Memory.read_writeBytes_outside _ _ _ _ (by omega)]
      simp
    | succ k =>
      have := ih (Memory.write m a b) (a + 1) k (by simpa using h)
      rw [Memory.writeBytes, show a + (k + 1) = a + 1 + k by omega, this]
      simp

theorem Memory.risesFrom_mono {lo lo' : Nat} (m : Memory) (h : lo' ≤ lo)
    (hm : Memory.risesFrom lo m = true) : Memory.risesFrom lo' m = true := by
  cases m with
  | nil => rfl
  | cons c m =>
    simp only [Memory.risesFrom, Bool.and_eq_true, decide_eq_true_eq] at hm ⊢
    exact ⟨⟨by omega, hm.1.2⟩, hm.2⟩

/-- A write within the image keeps the canonical form. -/
theorem Memory.risesFrom_write (m : Memory) {lo a : Nat} (b : Byte) (ha : lo ≤ a) (hs : a < imageSize)
    (hm : Memory.risesFrom lo m = true) : Memory.risesFrom lo (Memory.write m a b) = true := by
  induction m generalizing lo with
  | nil => simp [Memory.write, Memory.risesFrom, ha, hs]
  | cons c m ih =>
    simp only [Memory.risesFrom, Bool.and_eq_true, decide_eq_true_eq] at hm
    simp only [Memory.write]
    split
    · simp only [Memory.risesFrom, Bool.and_eq_true, decide_eq_true_eq]
      exact ⟨⟨ha, hs⟩, ⟨by omega, hm.1.2⟩, hm.2⟩
    · split
      · next hc =>
        simp only [Memory.risesFrom, Bool.and_eq_true, decide_eq_true_eq]
        exact ⟨⟨ha, hs⟩, hc ▸ hm.2⟩
      · simp only [Memory.risesFrom, Bool.and_eq_true, decide_eq_true_eq]
        exact ⟨hm.1, ih (by omega) hm.2⟩

theorem Memory.wf_write (m : Memory) {a : Nat} (b : Byte) (hs : a < imageSize) (hm : Memory.wf m = true) :
    Memory.wf (Memory.write m a b) = true := Memory.risesFrom_write m b (Nat.zero_le a) hs hm

/-- Bytes written within the image keep the canonical form. -/
theorem Memory.wf_writeBytes (bs : List Byte) (m : Memory) (a : Nat) (hs : a + bs.length ≤ imageSize)
    (hm : Memory.wf m = true) : Memory.wf (Memory.writeBytes m a bs) = true := by
  induction bs generalizing m a with
  | nil => rw [Memory.writeBytes]; exact hm
  | cons b bs ih =>
    simp only [List.length_cons] at hs
    rw [Memory.writeBytes]
    exact ih _ _ (by omega) (Memory.wf_write m b (by omega) hm)

/-- A save keeps the canonical form. -/
theorem State.nvmSave_wf (s : State) (img : List Byte) (hl : img.length = imageSize)
    (h : Memory.wf s.nvm = true) : Memory.wf (s.nvmSave img).nvm = true :=
  Memory.wf_writeBytes img s.nvm 0 (by omega) h

/-- A store that holds a whole image is loaded as that image. -/
theorem State.nvmLoad_eq {s : State} {m : Memory} {img : List Byte} (hn : s.nvm = Memory.writeBytes m 0 img)
    (hl : img.length = imageSize) : s.nvmLoad = img := by
  apply List.ext_getElem
  · simp [State.nvmLoad, hl]
  · intro k h1 h2
    have h := Memory.read_writeBytes_inside img m 0 k h2
    rw [Nat.zero_add] at h
    simp [State.nvmLoad, State.nvmByte, hn, h]

@[simp] theorem imageVals_length (v : ParamVals) : (imageVals v).length = 48 := by
  simp [imageVals, le32, le16]

@[simp] theorem image_length (p : Params) : (image p).length = imageSize := by
  simp [image, le16, imageSize]

@[simp] theorem State.nvmLoad_length (s : State) : s.nvmLoad.length = imageSize := by
  simp [State.nvmLoad]

end Sys2Proof.Machine
end

