-- ==== Sys2Proof/Laws/Num.lean ====
section
/-! SUPPORT. The fields of a packed binary32 pattern, and which conversions cannot give a NaN. -/

namespace Sys2Proof

theorem Num32.nanOf_isNaN (op : NumOp) (a b : Num32) : (Num32.nanOf op a b).isNaN = true := by
  unfold Num32.nanOf
  split
  · next h => exact h
  · decide

theorem Num32.abs_toNat (a : Num32) : (Num32.abs a).toNat = a.toNat % 2 ^ 31 := by
  unfold Num32.abs
  rw [BitVec.toNat_and]
  exact Nat.and_two_pow_sub_one_eq_mod a.toNat 31

theorem Num32.abs_isNaN (a : Num32) : (Num32.abs a).isNaN = a.isNaN := by
  have he : (Num32.abs a).expo = a.expo := by
    unfold Num32.expo
    rw [Num32.abs_toNat]
    omega
  have hf : (Num32.abs a).frac = a.frac := by
    unfold Num32.frac
    rw [Num32.abs_toNat]
    omega
  unfold Num32.isNaN
  rw [he, hf]

theorem roundRatio_le (num den : Nat) : roundRatio num den ≤ infBits := by
  unfold roundRatio
  split
  · exact Nat.zero_le _
  · exact Nat.min_le_left _ _

@[simp] theorem roundRatio_zero (den : Nat) : roundRatio 0 den = 0 := by simp [roundRatio]

theorem Num32.pack_toNat (neg : Bool) {mag : Nat} (h : mag < 2 ^ 31) :
    (Num32.pack neg mag).toNat = mag + if neg then 2 ^ 31 else 0 := by
  unfold Num32.pack
  rw [BitVec.toNat_ofNat, Nat.mod_eq_of_lt]
  cases neg <;> simp <;> try omega

theorem Num32.pack_mag (neg : Bool) {mag : Nat} (h : mag < 2 ^ 31) : (Num32.pack neg mag).toNat % 2 ^ 31 = mag := by
  rw [Num32.pack_toNat neg h]
  cases neg <;> simp <;> try omega

theorem Num32.pack_sign (neg : Bool) {mag : Nat} (h : mag < 2 ^ 31) : (Num32.pack neg mag).sign = neg := by
  unfold Num32.sign
  rw [BitVec.msb_eq_decide, Num32.pack_toNat neg h]
  cases neg <;> simp <;> try omega

theorem Num32.pack_expo (neg : Bool) {mag : Nat} (h : mag < 2 ^ 31) : (Num32.pack neg mag).expo = mag / 2 ^ 23 := by
  unfold Num32.expo
  rw [Num32.pack_toNat neg h]
  cases neg <;> simp <;> try omega

theorem Num32.pack_frac (neg : Bool) {mag : Nat} (h : mag < 2 ^ 31) : (Num32.pack neg mag).frac = mag % 2 ^ 23 := by
  unfold Num32.frac
  rw [Num32.pack_toNat neg h]
  cases neg <;> simp <;> try omega

theorem Num32.pack_isNaN (neg : Bool) {mag : Nat} (h : mag ≤ infBits) : (Num32.pack neg mag).isNaN = false := by
  have hm : mag < 2 ^ 31 := Nat.lt_of_le_of_lt h (by decide)
  simp only [infBits] at h
  simp only [Num32.isNaN, Num32.pack_expo neg hm, Num32.pack_frac neg hm, Bool.and_eq_false_iff,
    decide_eq_false_iff_not]
  omega

theorem Num32.ofRatio_isNaN (neg : Bool) (num den : Nat) : (Num32.ofRatio neg num den).isNaN = false := by
  unfold Num32.ofRatio
  split
  · exact Num32.pack_isNaN neg (Nat.le_refl _)
  · exact Num32.pack_isNaN neg (roundRatio_le num den)

theorem Num32.ofInt_isNaN (x : Int) : (Num32.ofInt x).isNaN = false :=
  Num32.pack_isNaN _ (roundRatio_le _ _)

/-- No argument of a command is a NaN of binary32 (47_supervisor.md R285). -/
theorem Num32.ofDecimal_isNaN (neg : Bool) (mant : Nat) (exp : Int) : (Num32.ofDecimal neg mant exp).isNaN = false := by
  unfold Num32.ofDecimal
  split
  · exact Num32.pack_isNaN _ (Nat.zero_le _)
  · split
    · exact Num32.pack_isNaN _ (Nat.le_refl _)
    · split
      · exact Num32.pack_isNaN _ (Nat.zero_le _)
      · exact Num32.ofRatio_isNaN _ _ _

theorem clampInt_bounds (x : Int) {lo hi : Int} (h : lo ≤ hi) : lo ≤ clampInt x lo hi ∧ clampInt x lo hi ≤ hi := by
  unfold clampInt
  omega

theorem clampInt_self {x lo hi : Int} (h1 : lo ≤ x) (h2 : x ≤ hi) : clampInt x lo hi = x := by
  unfold clampInt
  omega

end Sys2Proof
end

