-- ==== Sys2Proof/Laws/PerInstr.lean ====
section
/-! SUPPORT. What is proved of every command one constructor at a time. `EncodingHead`: the encoded line begins with
the opcode byte of the command's row, and only `help` is encoded without one (30_encoding.md R92, R95, R106). -/

namespace Sys2Proof.Laws

/-- The first byte of the encoding is the opcode, and for `help` the byte it carries. -/
def EncodingHead.Statement (i : Instr) : Prop :=
  (encode i).head? = match i with
    | .help first => first
    | j => j.opcode

theorem EncodingHead.setp (q : Option Decimal) : EncodingHead.Statement (.setp q) := rfl
theorem EncodingHead.seti (q : Option Decimal) : EncodingHead.Statement (.seti q) := rfl
theorem EncodingHead.setd (q : Option Decimal) : EncodingHead.Statement (.setd q) := rfl
theorem EncodingHead.setff0 (q : Option Decimal) : EncodingHead.Statement (.setff0 q) := rfl
theorem EncodingHead.setff1 (q : Option Decimal) : EncodingHead.Statement (.setff1 q) := rfl
theorem EncodingHead.setb (q : Option Decimal) : EncodingHead.Statement (.setb q) := rfl
theorem EncodingHead.setm (q : Option Decimal) : EncodingHead.Statement (.setm q) := rfl
theorem EncodingHead.setf (q : Option Decimal) : EncodingHead.Statement (.setf q) := rfl
theorem EncodingHead.setx (q : Option Decimal) : EncodingHead.Statement (.setx q) := rfl
theorem EncodingHead.sett (q : Option Decimal) : EncodingHead.Statement (.sett q) := rfl
theorem EncodingHead.setj (q : Option Decimal) : EncodingHead.Statement (.setj q) := rfl
theorem EncodingHead.rdfb : EncodingHead.Statement .rdfb := rfl
theorem EncodingHead.list : EncodingHead.Statement .list := rfl
theorem EncodingHead.stat : EncodingHead.Statement .stat := rfl
theorem EncodingHead.zero : EncodingHead.Statement .zero := rfl
theorem EncodingHead.help (first : Option Byte) : EncodingHead.Statement (.help first) := by
  cases first <;> rfl

end Sys2Proof.Laws
end

