-- ==== Sys2Proof/Laws/Width.lean ====
section
/-! SUPPORT. What the operations of the parameters give: a wrapped integer fits its width, is congruent to what was
wrapped, and is itself where it fits; the arithmetic of the parameter `Num` at its default is binary32's. -/

namespace Sys2Proof

/-- What wrapping changes is a multiple of the modulus. -/
theorem dvd_sub_wrapS (w : Nat) (x : Int) : (2 : Int) ^ w ∣ x - wrapS w x := by
  have h : ((2 ^ w : Nat) : Int) ∣ x - wrapS w x := Int.dvd_self_sub_bmod
  simpa using h

/-- A wrapped integer fits its width. -/
theorem fitsS_wrapS {w : Nat} (h : 1 ≤ w) (x : Int) : fitsS w (wrapS w x) = true := by
  obtain ⟨n, rfl⟩ : ∃ n, w = n + 1 := ⟨w - 1, by omega⟩
  have hp : 0 < 2 ^ (n + 1) := Nat.two_pow_pos _
  have h1 := Int.le_bmod (x := x) hp
  have h2 := Int.bmod_lt (x := x) hp
  have hc : ((2 ^ (n + 1) : Nat) : Int) = 2 * 2 ^ n := by push_cast; ring
  have hz : (2 : Int) ^ (n + 1) = 2 * 2 ^ n := by ring
  simp only [fitsS, wrapS, hz, Bool.and_eq_true, decide_eq_true_eq]
  rw [hc] at h1 h2
  have e1 : (2 * (2 : Int) ^ n) / 2 = 2 ^ n := by omega
  have e2 : (2 * (2 : Int) ^ n + 1) / 2 = 2 ^ n := by omega
  rw [e1] at h1
  rw [e2] at h2
  constructor <;> linarith

/-- An integer that fits its width is not changed by wrapping. -/
theorem wrapS_of_fitsS {w : Nat} {x : Int} (h : fitsS w x = true) : wrapS w x = x := by
  simp only [fitsS, Bool.and_eq_true, decide_eq_true_eq] at h
  have hc : ((2 ^ w : Nat) : Int) = 2 ^ w := by push_cast; rfl
  refine Int.bmod_eq_of_le_mul_two ?_ ?_ <;> rw [hc] <;> linarith [h.1, h.2]

/-- Wrapping a term of a sum first changes nothing. -/
theorem wrapS_add_left (w : Nat) (x y : Int) : wrapS w (wrapS w x + y) = wrapS w (x + y) := Int.bmod_add_bmod

theorem wrapS_sub_left (w : Nat) (x y : Int) : wrapS w (wrapS w x - y) = wrapS w (x - y) := Int.bmod_sub_bmod

@[simp] theorem wrapS_zero (w : Nat) : wrapS w 0 = 0 := Int.zero_bmod

theorem fitsU_wrapU (w x : Nat) : fitsU w (wrapU w x) = true := by
  exact decide_eq_true (Nat.mod_lt _ (Nat.two_pow_pos w))

/-- The default `Num` is binary32. -/
theorem Config.arith_binary32 {c : Config} (h : c.num = .binary32) : c.arith = Num32.ops := by
  simp only [Config.arith, h]

@[simp] theorem Num32.ops_add : Num32.ops.add = Num32.add := rfl
@[simp] theorem Num32.ops_sub : Num32.ops.sub = Num32.sub := rfl
@[simp] theorem Num32.ops_mul : Num32.ops.mul = Num32.mul := rfl
@[simp] theorem Num32.ops_div : Num32.ops.div = Num32.div := rfl
@[simp] theorem Num32.ops_neg : Num32.ops.neg = Num32.neg := rfl
@[simp] theorem Num32.ops_abs : Num32.ops.abs = Num32.abs := rfl
@[simp] theorem Num32.ops_lt : Num32.ops.lt = Num32.lt := rfl
@[simp] theorem Num32.ops_isNaN : Num32.ops.isNaN = Num32.isNaN := rfl
@[simp] theorem Num32.ops_isZero : Num32.ops.isZero = Num32.isZero := rfl
@[simp] theorem Num32.ops_ofRatio : Num32.ops.ofRatio = Num32.ofRatio := rfl
@[simp] theorem Num32.ops_ofInt : Num32.ops.ofInt = Num32.ofInt := rfl
@[simp] theorem Num32.ops_ofDecimal : Num32.ops.ofDecimal = Num32.ofDecimal := rfl
@[simp] theorem Num32.ops_truncInt : Num32.ops.truncInt = Num32.truncInt := rfl
@[simp] theorem Num32.ops_satTrunc32 : Num32.ops.satTrunc32 = Num32.satTrunc32 := rfl
@[simp] theorem Num32.ops_render : Num32.ops.render = fmtFloat := rfl

end Sys2Proof
end

