-- ==== Sys2Proof/Tests/Slice0.lean ====
section
/-! SUPPORT. Small checks against the spec's own examples (cited beside each), and one state for the hypotheses of each
statement that has some. -/

namespace Sys2Proof.Tests

open Sys2Proof Sys2Proof.Machine

/-! ## WellFormed -/

/-- Ill-formed: a `help` that carries an opcode byte (R97). -/
theorem test_wellFormed_refuses_opcode_help : (Instr.help (some 0x70)).wellFormed = false := by decide

/-- R271: a help text that lacks a letter is ill-formed; so are an accumulator below 32 bits and a counter wider than
it (R7). -/
theorem test_config_checks : Config.testInst.wf = true ∧
    ({ Config.testInst with helpText := commandLetters.tail }).wf = false ∧
    ({ Config.testInst with accW := 31 }).wf = false ∧ ({ Config.testInst with cntW := 33 }).wf = false ∧
    ({ Config.testInst with cntW := 0 }).wf = false := by decide

/-- The letters of R95 are the keys of the decoder's map. -/
theorem test_letters : commandLetters = opcodeTable.map Prod.fst := by decide

theorem test_wellFormed_accepts : (Instr.help (some 0x7A)).wellFormed = true ∧ (Instr.help none).wellFormed = true ∧
    (Instr.setp (some ⟨true, 25, -1⟩)).wellFormed = true := by decide

/-! ## Decoding: lines written out byte by byte from 30_encoding.md R95, R99, numbered as the opcode table does -/

/-- `p2.5` is 70 32 2E 35. -/
theorem test_decode_setp : decodeTableWord 32 0x352E3270 = some (.setp (some ⟨false, 25, -1⟩)) := by decide
/-- `i0.5` is 69 30 2E 35. -/
theorem test_decode_seti : decodeTableWord 32 0x352E3069 = some (.seti (some ⟨false, 5, -1⟩)) := by decide
/-- `d-1` is 64 2D 31. -/
theorem test_decode_setd : decodeTableWord 24 0x312D64 = some (.setd (some ⟨true, 1, 0⟩)) := by decide
/-- `00.5` is 30 30 2E 35 (R105). -/
theorem test_decode_setff0 : decodeTableWord 32 0x352E3030 = some (.setff0 (some ⟨false, 5, -1⟩)) := by decide
/-- `1.25` is 31 2E 32 35 (R105). -/
theorem test_decode_setff1 : decodeTableWord 32 0x35322E31 = some (.setff1 (some ⟨false, 25, -2⟩)) := by decide
/-- `b3` is 62 33. -/
theorem test_decode_setb : decodeTableWord 16 0x3362 = some (.setb (some ⟨false, 3, 0⟩)) := by decide
/-- `m1e3` is 6D 31 65 33. -/
theorem test_decode_setm : decodeTableWord 32 0x3365316D = some (.setm (some ⟨false, 1, 3⟩)) := by decide
/-- `f+2` is 66 2B 32. -/
theorem test_decode_setf : decodeTableWord 24 0x322B66 = some (.setf (some ⟨false, 2, 0⟩)) := by decide
/-- `x30` is 78 33 30. -/
theorem test_decode_setx : decodeTableWord 24 0x303378 = some (.setx (some ⟨false, 30, 0⟩)) := by decide
/-- `t500` is 74 35 30 30. -/
theorem test_decode_sett : decodeTableWord 32 0x30303574 = some (.sett (some ⟨false, 500, 0⟩)) := by decide
/-- `j 5x` is 6A 20 35 78: leading blank, trailing byte (R104). -/
theorem test_decode_setj : decodeTableWord 32 0x7835206A = some (.setj (some ⟨false, 5, 0⟩)) := by decide
/-- `e5` acts as `e` (R103). -/
theorem test_decode_rdfb : decodeTableWord 8 0x65 = some .rdfb ∧ decodeTableWord 16 0x3565 = some .rdfb := by decide
theorem test_decode_list : decodeTableWord 8 0x6C = some .list := by decide
theorem test_decode_stat : decodeTableWord 8 0x73 = some .stat := by decide
theorem test_decode_zero : decodeTableWord 8 0x72 = some .zero := by decide
/-- `z`, `P`, a byte with bit 7 set, and the empty line (R94, R97). -/
theorem test_decode_help : decodeTableWord 8 0x7A = some (.help (some 0x7A)) ∧
    decodeTableWord 8 0x50 = some (.help (some 0x50)) ∧ decodeTableWord 8 0xF0 = some (.help (some 0xF0)) ∧
    decodeTableWord 0 0 = some (.help none) := by decide
/-- The absent values of R100: empty, `abc`, `-`, `.`, `+.`, `e5`. -/
theorem test_absent_values : parseArg [] = none ∧ parseArg [0x61, 0x62, 0x63] = none ∧ parseArg [0x2D] = none ∧
    parseArg [0x2E] = none ∧ parseArg [0x2B, 0x2E] = none ∧ parseArg [0x65, 0x35] = none := by decide
/-- R104: `p1e` is 1; R100: `-0` is 0 with its sign. -/
theorem test_partial_exponent : parseArg [0x31, 0x65] = some ⟨false, 1, 0⟩ ∧
    parseArg [0x2D, 0x30] = some ⟨true, 0, 0⟩ := by decide

/-! ## Operands (R101, R102, 00_scope.md R11) -/

theorem test_decToNum : Num32.ops.decToNum ⟨false, 25, -1⟩ = 0x40200000 ∧
    Num32.ops.decToNum ⟨false, 1, -1⟩ = 0x3DCCCCCD ∧ Num32.ops.decToNum ⟨true, 0, 0⟩ = 0x80000000 ∧
    Num32.ops.decToNum ⟨false, 1, 39⟩ = 0x7F800000 := by decide +kernel
theorem test_clampOperand : clampOperand ⟨false, 50, 0⟩ 1 22 = 22 ∧ clampOperand ⟨false, 29, -1⟩ 1 22 = 2 ∧
    clampOperand ⟨true, 7, 0⟩ 1 22 = 1 ∧ clampOperand ⟨false, 1, 99999999⟩ 1 100 = 100 := by decide +kernel

/-! ## Commands, from the examples of 46_commands.md -/

/-- A block past its boot with a line pending and FG about to dispatch it. -/
def lineState (bytes : List Byte) : State :=
  { State.reset with
    isrOn := true, lineReady := true, lineBuf := bytes, fbCnt := 0xFFFE
    fg := { Foreground.atBoot with phase := .dispatch }
    ctl := { Control.atReset with
      cmdAcc := 500, fbAcc := 480, error := 20, errorIntegral := 0x40400000, maxObservedError := 9 } }

/-- The state after `n` steps, if there is one. -/
def after (n : Nat) (s : State) : Option State :=
  match stepRun n s with
  | .next t => some t
  | _ => none

/-- R245: `p2.5`. -/
theorem test_setp : (after 6 (lineState [0x70, 0x32, 0x2E, 0x35])).map
    (fun t => (t.par.pgain, t.par.checksum)) = some (0x40200000, 0x3899) := by decide +kernel
/-- R246: `i0.5` zeroes the integral first. -/
theorem test_seti : (after 1 (lineState [0x69, 0x30, 0x2E, 0x35])).map
    (fun t => (t.ctl.errorIntegral, t.par.igain)) = some (0, 0) := by decide +kernel
/-- R247: `d0.01`. -/
theorem test_setd : (after 1 (lineState [0x64, 0x30, 0x2E, 0x30, 0x31])).map (fun t => t.par.dgain) =
    some 0x3C23D70A := by decide +kernel
/-- R248: `00.5`. -/
theorem test_setff0 : (after 1 (lineState [0x30, 0x30, 0x2E, 0x35])).map (fun t => t.par.ff0gain) =
    some 0x3F000000 := by decide +kernel
/-- R249: `1.25`. -/
theorem test_setff1 : (after 1 (lineState [0x31, 0x2E, 0x32, 0x35])).map (fun t => t.par.ff1gain) =
    some 0x3E800000 := by decide +kernel
/-- R250: `b3`. -/
theorem test_setb : (after 1 (lineState [0x62, 0x33])).map (fun t => t.par.deadband) = some 0x40400000 := by
  decide +kernel
/-- R251: `m-5` is accepted. -/
theorem test_setm : (after 1 (lineState [0x6D, 0x2D, 0x35])).map (fun t => t.par.maxOutput) = some 0xC0A00000 := by
  decide +kernel
/-- R252: `f200`. -/
theorem test_setf : (after 1 (lineState [0x66, 0x32, 0x30, 0x30])).map (fun t => t.par.maxError) =
    some 0x43480000 := by decide +kernel
/-- R254: `x50` stores 22. -/
theorem test_setx : (after 1 (lineState [0x78, 0x35, 0x30])).map (fun t => t.par.cmdMultiplier) = some 22 := by
  decide +kernel
/-- R255: `t0` stores 1. -/
theorem test_sett : (after 1 (lineState [0x74, 0x30])).map (fun t => t.par.ticksPerServoCycle) = some 1 := by
  decide +kernel
/-- R256: `j100` emits only the prompt. -/
theorem test_setj : (after 3 (lineState [0x6A, 0x31, 0x30, 0x30])).map (fun t => (t.jerk, t.tx)) =
    some (0x42C80000, [.prompt]) := by decide +kernel
/-- R257: the port, then the dump, then the prompt. -/
theorem test_rdfb : (after 5 (lineState [0x65])).map (fun t => t.tx.map TxEvent.kind) =
    some [.feedback, .dump, .prompt] := by decide +kernel
theorem test_rdfb_value : (after 2 (lineState [0x65])).map (fun t => t.tx) = some [.feedback 65534] := by
  decide +kernel
/-- R258. -/
theorem test_list : (after 3 (lineState [0x6C])).map (fun t => t.tx.map TxEvent.kind) = some [.dump, .prompt] := by
  decide +kernel
/-- R260: nine micro-steps to the `Stat` event. -/
theorem test_stat : (after 9 (lineState [0x73])).map (fun t => (t.ctl.maxObservedError, t.tx)) =
    some (0, [.stat 20 0 0 0 false false 9]) := by decide +kernel
/-- R261. -/
theorem test_zero : (after 3 (lineState [0x72])).map
    (fun t => (t.ctl.cmdAcc, t.ctl.fbAcc, t.ctl.error, t.ctl.errorIntegral)) = some (0, 0, 0, 0x40400000) := by
  decide +kernel
/-- R262, R303: `z`. -/
theorem test_help : (after 3 (lineState [0x7A])).map (fun t => (t.tx, t.xlog)) =
    some ([.help, .prompt], [.malformedCmd (some 0x7A)]) := by decide +kernel

/-! ## Boot and the host's question -/

/-- R280: three steps from reset to the load. -/
theorem test_boot : (after 3 State.reset).map (fun t => (t.fg.phase, t.isrOn)) = some (.loadImage, true) := by
  decide +kernel

theorem test_withFetchWord : step (State.reset.withFetchWord 8 0x72) = exec .zero (State.reset.withFetchWord 8 0x72) :=
  rfl

/-! ## The control cycle, from the worked examples of 41 to 43 -/

/-- R121: last 0xFFF0, sample 0x0010, accumulator 100 gives 132. -/
theorem test_track : (State.track 0x0010 0 { State.reset with
    ctl := { Control.atReset with cmdAcc := 100 }, trk := { Tracker.atReset with lastCmdRaw := 0xFFF0 } }).ctl.cmdAcc =
    132 := by decide +kernel

/-- The operands of the worked examples of R142 to R150. -/
def pidState : State :=
  { State.reset with
    par := { State.reset.par with pgain := 0x40000000, igain := 0x3F000000 }
    ctl := { Control.atReset with cmdAcc := 110, fbAcc := 100, prevCommand := 100 } }

/-- R145 and R150: the integral is 0x3C23D70B and the output 0x41A00A3D. -/
theorem test_pid : (pidState.pid.ctl.error, pidState.pid.ctl.errorIntegral, pidState.pid.ctl.output) =
    (10, 0x3C23D70B, 0x41A00A3D) := by decide +kernel
/-- R147, R148: both derivatives are 10000.0. -/
theorem test_pid_derivatives : (pidState.pid.ctl.errorDerivative, pidState.pid.ctl.commandDerivative) =
    (0x461C4000, 0x461C4000) := by decide +kernel
/-- R176: that output maps to 200 in the positive direction, after the other register is cleared (R177). -/
theorem test_map : ((pidState.pid.map true).pwmPos, (pidState.pid.map true).dutyTrace) = (200, [.neg 0, .pos 200]) := by
  decide +kernel
/-- R170: tick 4 runs the control cycle. -/
theorem test_gate : ((runTurns [.tick, .tick, .tick] { State.reset with isrOn := true, cmdCnt := 5 }),
    (runTurns [.tick, .tick, .tick, .tick] { State.reset with isrOn := true, cmdCnt := 5 })) |> fun p =>
    (match p.1 with | .next t => (t.trk.cycleCount, t.ctl.cmdAcc) | _ => (0, 0),
      match p.2 with | .next t => (t.trk.cycleCount, t.ctl.cmdAcc) | _ => (0, 0)) = ((3, 0), (0, 5)) := by
  decide +kernel

/-! ## Witnesses: the hypotheses of each statement, met by a state and operands -/

/-- A block at LOOP with interrupts on, enabled, at the gate. -/
def runState : State :=
  { State.reset with
    isrOn := true, cmdCnt := 7, fbCnt := 3
    ctl := { Control.atReset with enabled := true, error := 5 }
    trk := { Tracker.atReset with cycleCount := 3 }
    fg := { Foreground.atBoot with phase := .loop } }

/-- `runState` at a phase, nothing presented. -/
def atPhase (p : Phase) : State := { runState with fg := { runState.fg with phase := p } }

theorem witness_DecodeOfEncodeIsTheCommand : (Instr.help (some 0x7A)).wellFormed = true := by decide
theorem witness_OpcodeByteSelectsTheCommand : ∃ t, exec (.help none) runState = .next t := ⟨_, rfl⟩
theorem witness_LetterLineWritesItsRegister : parseArg [0x35] = some ⟨false, 5, 0⟩ ∧ runState.atCommandStart ∧
    letterReg 0x6D = some (.float .maxOutput) ∧ letterReg 0x78 = some .multiplier ∧ letterReg 0x74 = some .ticks ∧
    letterReg 0x6A = some .jerk := ⟨by decide, rfl, by decide⟩
theorem witness_LiteralParsesToItsExactValue : (∀ b ∈ ([0x20, 0x09] : List Byte), b = 0x20 ∨ b = 0x09) ∧
    (∀ k ∈ ([0, 9] : List Nat) ++ [9] ++ [0, 2], k < 10) ∧ ([0, 2] : List Nat) ≠ [] ∧ ([0, 9] : List Nat) ++ [9] ≠ [] ∧
    (∀ b ∈ ([0x45, 0x2B, 0x78] : List Byte).head?, isDigit b = false) ∧ startsExponent [0x45, 0x2B, 0x78] = false ∧
    (∀ b ∈ ([0x45, 0x2B, 0x78] : List Byte).head?, b ≠ 0x2E) ∧ ([0, 9] : List Nat) ≠ [] := by decide
/-- `+2.5E+1` and `-2e`, with and without a point (R99, R104). -/
theorem test_literal_forms : parseArg [0x2B, 0x32, 0x2E, 0x35, 0x45, 0x2B, 0x31] = some ⟨false, 25, 0⟩ ∧
    parseArg [0x2D, 0x32, 0x65] = some ⟨true, 2, 0⟩ ∧ parseArg [0x32, 0x65, 0x2D, 0x78] = some ⟨false, 2, 0⟩ := by decide
theorem witness_FloatOperandIsRoundedOnce : State.reset.cfg.num = .binary32 := rfl
theorem witness_IntegerOperandClampIsExact : (-(10 ^ 9) : Int) ≤ -(10 ^ 9) ∧ (-(10 ^ 9) : Int) ≤ 10 ^ 9 ∧
    (10 ^ 9 : Int) ≤ 10 ^ 9 := by decide
theorem witness_RoundRatioIsNearestEven : 0 < 3 ∧ roundRatio 1 3 < infBits ∧ 0x3EAAAAAA < infBits ∧
    0x3EAAAAAA ≠ roundRatio 1 3 := by decide +kernel
/-- A tie: 2^24 + 1 lies midway between two neighbours, and the even one is taken. -/
theorem witness_RoundRatio_tie : |magValue (roundRatio 16777217 1) - (16777217 : ℚ)| =
    |magValue (0x4B800001) - (16777217 : ℚ)| ∧ 0x4B800001 ≠ roundRatio 16777217 1 := by
  have h : roundRatio 16777217 1 = 0x4B800000 := by decide +kernel
  rw [h]
  constructor
  · norm_num [magValue]
  · decide
theorem witness_ArithmeticRoundsOnce : isFinite 0x3F800000 = true ∧ isFinite 0 = true ∧
    Num32.isInf 0x7F800000 = true ∧ Num32.isInf 0xFF800000 = true ∧
    Num32.sign 0x7F800000 ≠ Num32.sign 0xFF800000 ∧ Num32.isNaN 0x7FC00000 = true := by decide
theorem witness_ArithmeticRoundsOnce_values : numValue 0x3F800000 + numValue 0x3F800000 ≠ 0 ∧
    numValue 0x3F800000 + numValue 0xBF800000 = 0 ∧ numValue 0x3F800000 ≠ 0 ∧ numValue 0 = 0 := by
  have h1 : numValue 0x3F800000 = 1 := by
    have hm : Num32.smant 0x3F800000 = 8388608 := by decide
    have hq : Num32.qexp 0x3F800000 = -23 := by decide
    norm_num [numValue, hm, hq]
  have h2 : numValue 0xBF800000 = -1 := by
    have hm : Num32.smant 0xBF800000 = -8388608 := by decide
    have hq : Num32.qexp 0xBF800000 = -23 := by decide
    norm_num [numValue, hm, hq]
  have h3 : numValue 0 = 0 := by
    have hm : Num32.smant 0 = 0 := by decide
    norm_num [numValue, hm]
  norm_num [h1, h2, h3]
theorem witness_ComparisonAndConversionsAreExact : isFinite 0x3F800000 = true ∧ isFinite 0xBF800000 = true ∧
    Num32.isNaN 0xFFC00000 = true ∧ Num32.isNaN 0x7F800000 = false ∧ Num32.isNaN 0xFF800000 = false ∧
    |(-16777216 : Int)| ≤ 2 ^ 24 ∧ |(16777216 : Int)| ≤ 2 ^ 24 ∧ (2 ^ 25 - 1) * 2 ^ 103 ≤ |(-(2 ^ 128) : Int)| := by decide
/-- The limits of R146: finite, infinite, NaN; a value inside, outside, infinite. -/
theorem witness_ClampAndMagnitude : State.reset.cfg.num = .binary32 ∧ isFinite 0xBBA3D70A = true ∧
    isFinite 0x3C23D70B = true ∧ Num32.isInf 0xFF800000 = true ∧ Num32.isNaN 0x7FC00000 = true := by decide
/-- The example of R146: a limit of 0.005. -/
theorem test_clampNum : Num32.ops.clampNum 0x3C23D70B (Num32.abs 0xBBA3D70A) = 0x3BA3D70A ∧
    Num32.ops.clampNum 0xBC23D70B (Num32.abs 0xBBA3D70A) = 0xBBA3D70A ∧
    Num32.ops.clampNum 0x3C23D70B 0x7FC00000 = 0x3C23D70B := by decide +kernel
theorem witness_TrackAddsTheSignedDeltas : State.reset.cfg.wf = true ∧ State.reset.cfg.optCmdMult = false ∧
    ({ Config.testInst with optCmdMult := true }).wf = true := by decide
theorem witness_TrackingGuarantee : runState.cfg.wf = true ∧ runState.cfg.optCmdMult = false ∧
    smallMoves runState.cfg.cntW (0, 0) [(32767, -32768), (65534, -65536)] ∧
    runState.trk.lastCmdRaw = rawAt runState.cfg.cntW 0 ∧ runState.trk.lastFbRaw = rawAt runState.cfg.cntW 0 ∧
    runState.inWidths = true := by
  have h : runState.cfg.cntW = 16 := rfl
  refine ⟨by decide, rfl, ?_, by decide, by decide, by decide⟩
  norm_num [smallMoves, smallMove, h]
theorem witness_LargeMovementsAlias : Config.testInst.wf = true ∧ smallMove Config.testInst.cntW 32767 ∧
    ¬ smallMove Config.testInst.cntW 32768 ∧ ¬ smallMove Config.testInst.cntW (-32769) ∧ Config.testInst.cntW = 16 := by
  have h : Config.testInst.cntW = 16 := rfl
  refine ⟨by decide, ?_, ?_, ?_, rfl⟩ <;> norm_num [smallMove, h]
theorem witness_PidWritesItsRegisters : State.reset.cfg.num = .binary32 ∧ State.reset.cfg.tSubNs = 250000 ∧
    State.reset.par.ticksPerServoCycle = 4 ∧ 1 ≤ State.reset.par.ticksPerServoCycle.toNat ∧ 1 ≤ State.reset.cfg.tSubNs ∧
    State.reset.num.gt (State.reset.num.ofInt 2000) State.reset.par.maxOutput = true ∧
    State.reset.num.gt (State.reset.num.ofInt 1000) State.reset.par.maxOutput = false := by decide +kernel

/-- A control cycle that faults: an error of 2000 counts with `maxOutput` 1000 (R302). -/
def faultState : State := { runState with cmdCnt := 2000, fbCnt := 0, trk := { runState.trk with prevEnabled := true } }
/-- The latch set, cleared by a rising edge under the option. -/
def clearState : State :=
  { runState with
    cfg := { Config.testInst with optFaultClearOnEnable := true }
    ctl := { runState.ctl with fault := true } }

/-- The fault latch after a turn. -/
def latchAfter (e : Event) (s : State) : Option Bool :=
  match s.turn e with
  | .next t => some t.ctl.fault
  | _ => none

theorem witness_FaultLatchIsSticky : faultState.ctl.fault = false ∧ latchAfter .tick faultState = some true ∧
    clearState.ctl.fault = true ∧ latchAfter .tick clearState = some false ∧
    latchAfter .reset clearState = some false := by decide +kernel
theorem witness_TickGate : State.reset.isrOn = false ∧ runState.halted = false ∧ runState.isrOn = true ∧
    runState.par.ticksPerServoCycle.toNat ≤ (runState.trk.cycleCount + 1).toNat ∧
    (({ runState with trk := Tracker.atReset }).trk.cycleCount + 1).toNat < runState.par.ticksPerServoCycle.toNat ∧
    ({ runState with trk := Tracker.atReset }).trk.cycleCount = 0 ∧ runState.par.toParamVals.inRange = true := by
  decide +kernel
/-- At the gate with a rising edge, enabled without one, and disabled: the two clauses on the edge. -/
theorem witness_TickGate_edge : (runState.ctl.enabled = true ∧ runState.trk.prevEnabled = false) ∧
    ¬ (faultState.ctl.enabled = true ∧ faultState.trk.prevEnabled = false) ∧
    faultState.halted = false ∧ faultState.isrOn = true ∧
    faultState.par.ticksPerServoCycle.toNat ≤ (faultState.trk.cycleCount + 1).toNat ∧
    ¬ (({ faultState with ctl := Control.atReset }).ctl.enabled = true ∧ faultState.trk.prevEnabled = false) := by
  decide
theorem witness_FirstCycleAfterTheEdge : runState.halted = false ∧ runState.isrOn = true ∧
    runState.par.ticksPerServoCycle ≤ runState.trk.cycleCount + 1 ∧ runState.ctl.enabled = true ∧
    runState.trk.prevEnabled = false ∧ runState.cfg.wf = true ∧ runState.par.toParamVals.inRange = true ∧
    runState.cfg.num = .binary32 ∧ runState.periodS.isInf = false ∧ isFinite runState.par.pgain = true ∧ isFinite runState.par.igain = true ∧
    isFinite runState.par.dgain = true ∧ isFinite runState.par.ff0gain = true ∧ isFinite runState.par.ff1gain = true ∧
    isFinite ({ runState with par := { runState.par with pgain := 0x7F800000 } }).par.pgain = false := by
  decide +kernel
/-- A scaled magnitude above the cap, and one below it (R176). -/
theorem witness_DutyMagnitudeIsBounded : State.reset.cfg.num = .binary32 ∧
    State.reset.num.gt ({ State.reset with ctl := { Control.atReset with output := 0x44FA0000 } }).dutyScaled
      (State.reset.num.ofInt 1000) = true ∧
    pidState.num.isNaN pidState.pid.dutyScaled = false ∧
    pidState.num.gt pidState.pid.dutyScaled (pidState.num.ofInt 1000) = false := by
  decide +kernel
/-- A NaN scaled magnitude: `maxError` 0 with a zero output. -/
theorem witness_DutyMagnitude_nan :
    ({ State.reset with par := { State.reset.par with maxError := 0 } }).dutyScaled.isNaN = true := by
  have h : ({ State.reset with par := { State.reset.par with maxError := 0 } }).dutyScaled =
      Num32.abs (Num32.nanOf .mul 0 0x7F800000) := rfl
  rw [h, Num32.abs_isNaN, Num32.nanOf_isNaN]
theorem witness_EveryStepKeepsTheDutyInvariant : DutyInv runState ∧ ∃ t, step runState = .next t :=
  ⟨⟨by decide, by decide, by decide, by decide⟩, _, rfl⟩
theorem witness_DisabledControllerHoldsItsDuty :
    ({ runState with ctl := Control.atReset }).ctl.enabled = false ∧ runState.cfg.optDisableZero = false ∧
    runState.cfg.optFaultZero = false ∧ Event.tick ≠ .reset ∧ Event.tick ≠ .envFault ∧
    ∃ t, ({ runState with ctl := Control.atReset }).turn .tick = .next t :=
  ⟨rfl, rfl, rfl, by decide, by decide, State.tick _, rfl⟩
theorem witness_UnusedRegistersDoNotReachTheTick : Config.referenceCycle State.reset.cfg :=
  ⟨rfl, rfl, rfl, rfl, rfl, rfl, rfl, rfl, rfl⟩
theorem witness_ImageAndParseAreInverse : (List.replicate 50 (0xFF : Byte)).length = 50 := by decide
theorem witness_ImageFieldAccess : ∃ out, memWrite (List.replicate 50 0) 48 2 0x1234 = some out := ⟨_, rfl⟩
theorem witness_ChecksumVerifiesTheStoredWord : (image State.reset.par).length = 50 ∧
    checksumOK (image State.reset.par) = true := by decide +kernel
theorem witness_SingleByteChangeIsDetected : checksumOK (image State.reset.par) = true ∧
    (0x3A : Byte) ≠ byteAt (image State.reset.par) 49 ∧ 49 < 50 := by decide +kernel
theorem witness_LoadReturnsTheLastSave : (List.replicate 50 (0 : Byte)).length = 50 ∧
    ∃ t, (atPhase .boot0).turn .fg = .next t := ⟨by decide, _, rfl⟩
theorem witness_SavedParametersLoadUnchanged : State.reset.par.toParamVals.inRange = true ∧
    State.reset.par.checksum = checksumOf State.reset.par.toParamVals ∧ (atPhase .loadImage).alone ∧
    (atPhase .loadImage).fg.phase = .loadImage := ⟨by decide, rfl, ⟨rfl, rfl⟩, rfl⟩
theorem witness_StepRunsTheDecodedCommand : (lineState [0x72]).halted = false ∧
    (lineState [0x72]).fg.phase = .dispatch ∧ decodeLine (lineState [0x72]).lineBuf = .zero ∧
    (lineState [0x72]).script = [] ∧ ({ lineState [0x72] with script := [[.fg]] }).script = [.fg] :: [] ∧
    (∃ k, (atPhase (.command 2)).fg.phase = .command k) ∧ (atPhase (.command 2)).fg.instr = .help none :=
  ⟨rfl, rfl, by decide, rfl, rfl, ⟨2, rfl⟩, rfl⟩
/-- For the statements of a whole command: a state at the start of one, without and with OPT_ATOMIC_CMD. -/
theorem witness_command_start : (lineState [0x70]).atCommandStart ∧ (lineState [0x70]).cfg.optAtomicCmd = false ∧
    ({ lineState [0x70] with cfg := { Config.testInst with optAtomicCmd := true } }).atCommandStart ∧
    ({ lineState [0x70] with cfg := { Config.testInst with optAtomicCmd := true } }).cfg.optAtomicCmd = true :=
  ⟨rfl, rfl, rfl, rfl⟩
theorem witness_ParameterCommandFrame : (∃ t, exec (.setp none) runState = .next t) ∧
    (∃ t, exec (.seti (some ⟨false, 5, -1⟩)) runState = .next t) ∧
    (∃ t, exec (.setx (some ⟨false, 5, 0⟩)) runState = .next t) ∧
    (∃ t, exec (.sett (some ⟨false, 5, 0⟩)) runState = .next t) := ⟨⟨_, rfl⟩, ⟨_, rfl⟩, ⟨_, rfl⟩, ⟨_, rfl⟩⟩
theorem witness_DiagnosticCommandFrame : (∃ t, exec (.setj none) runState = .next t) ∧
    (∃ t, exec .rdfb runState = .next t) ∧ (∃ t, exec .list runState = .next t) ∧ (∃ t, exec .stat runState = .next t) ∧
    (∃ t, exec .zero runState = .next t) ∧ ∃ t, exec (.help none) runState = .next t :=
  ⟨⟨_, rfl⟩, ⟨_, rfl⟩, ⟨_, rfl⟩, ⟨_, rfl⟩, ⟨_, rfl⟩, ⟨_, rfl⟩⟩
/-- A line between the line reset and the prompt of the one before it. -/
theorem witness_EveryLineGetsItsResponse_nextLine : (lineState [0x6C]).lineReady = true ∧
    (match runTurns [.fg, .fg, .line [0x73], .fg] (lineState [0x6C]) with
      | .next t => (t.lineReady, t.lineBuf)
      | _ => (false, [])) = (true, [0x73]) := by decide +kernel
theorem witness_EveryLineGetsItsResponse : (lineState [0x6C]).halted = false ∧
    (lineState [0x6C]).fg.phase = .dispatch ∧
    (∀ e ∈ ([.fg, .tick, .fg, .tick2, .en true, .fg] : List Event), e.interleaves = true) ∧
    ([.fg, .tick, .fg, .tick2, .en true, .fg] : List Event).count .fg =
      microCount (lineState [0x6C]).cfg.optAtomicCmd (decodeLine (lineState [0x6C]).lineBuf) ∧
    ([.fg, .tick, .fg, .tick2, .en true, .fg] : List Event).getLast? = some .fg := ⟨rfl, rfl, by decide, by decide, rfl⟩
theorem witness_BootSequence : (atPhase .boot0).alone ∧ (atPhase .boot0).fg.phase = .boot0 ∧
    checksumOK ((atPhase .boot0).nvmSave (image State.reset.par)).nvmLoad = true ∧
    checksumOK ((atPhase .boot0).nvmSave (List.replicate 50 0xFF)).nvmLoad = false ∧
    (parse (image State.reset.par)).toParamVals.inRange = true :=
  ⟨⟨rfl, rfl⟩, rfl, by decide +kernel, by decide +kernel, by decide +kernel⟩
theorem witness_ConfigurationHold : (atPhase .holdTest).alone ∧ (atPhase .holdTest).fg.phase = .holdTest ∧
    (atPhase .holdTest).lineReady = false ∧ ({ atPhase .holdTest with lineReady := true }).lineReady = true :=
  ⟨⟨rfl, rfl⟩, rfl, rfl, rfl⟩
theorem witness_MainLoopAndEnableMirror : (atPhase .loop).alone ∧ (atPhase .mirror).alone ∧
    (atPhase .mirror).enIn = false ∧ (atPhase .mirror).ctl.enabled = true ∧
    ({ atPhase .mirror with enIn := true }).enIn = (atPhase .mirror).ctl.enabled ∧
    ({ atPhase .mirror with enIn := true, ctl := Control.atReset }).ctl.enabled = false ∧
    (atPhase .jerkTest).num.isZero 0 = true ∧ (atPhase .jerkTest).num.isZero 0x42C80000 = false :=
  ⟨⟨rfl, rfl⟩, ⟨rfl, rfl⟩, rfl, rfl, rfl, rfl, by decide, by decide⟩
theorem witness_JerkPairRestoresTheAccumulator : (atPhase .jerkGo).alone ∧ (atPhase .jerkGo).enIn = false ∧
    (atPhase .jerkGo).isrOn = true ∧ (atPhase .jerkGo).inWidths = true ∧ (atPhase .jerkGo).cfg.wf = true ∧
    ({ atPhase .jerkGo with enIn := true }).lineReady = false ∧ ({ atPhase .jerkGo with enIn := true }).enIn = true ∧
    (atPhase .jerkGo).cfg.jerkT2 = 0 := ⟨⟨rfl, rfl⟩, rfl, rfl, by decide, by decide, rfl, rfl, rfl⟩
theorem witness_JerkLosesAnInterveningDelta :
    ({ atPhase (.jerkRead false) with trk := Tracker.atReset }).halted = false ∧
    ({ atPhase (.jerkRead false) with trk := Tracker.atReset }).fg.phase = .jerkRead false ∧
    ∃ t, runTurns [.fg, .tick, .fg] { atPhase (.jerkRead false) with trk := Tracker.atReset } = .next t :=
  ⟨rfl, rfl, _, rfl⟩
/-- Each `DELAY`; with the argument 2, one tick is too few and two are enough. -/
theorem witness_DelayCountsSecondaryTicks :
    (∀ d, (atPhase (.delayLoad d)).halted = false ∧ (atPhase (.delayLoad d)).isrOn = true ∧
      (atPhase (.delayLoad d)).fg.phase = .delayLoad d) ∧
    1 < (DelaySite.ticks { Config.testInst with blinkT2 := 2 } .blink).toNat ∧
    (DelaySite.ticks { Config.testInst with blinkT2 := 2 } .blink).toNat ≤ 2 :=
  ⟨fun _ => ⟨rfl, rfl, rfl⟩, by decide, by decide⟩
theorem witness_HaltEntryAndHaltedBlock : runState.halted = false ∧ ({ runState with halted := true }).halted = true ∧
    Event.reset ∉ [Event.tick, .fg, .line [0x70]] := by decide
theorem witness_ResetOverridesEverything :
    ({ runState with script := [[.tick, .reset]] }).script = [.tick, .reset] :: [] ∧ Event.reset ∈ [Event.tick, .reset] := by decide
theorem witness_SimultaneousEventsAreTakenInOrder :
    ({ runState with script := [[.fg, .tick]] }).script = [.fg, .tick] :: [] ∧ [Event.fg, .tick] ≠ [] := by decide
/-- A line of `LINE_MAX` bytes, which is accepted, and one of a byte more, which is not. -/
theorem witness_OnlyLinesAreRefused : (∀ bytes, Event.tick ≠ .line bytes) ∧
    runState.halted = false ∧ runState.lineReady = false ∧
    (List.replicate 32 (0x31 : Byte)).length ≤ runState.cfg.lineMax ∧
    runState.cfg.lineMax < (List.replicate 33 (0x31 : Byte)).length := ⟨by simp, by decide⟩
theorem witness_OnlyLinesAreRefused_pending : ({ runState with halted := true }).halted = true ∧
    ({ runState with lineReady := true }).halted = false ∧ ({ runState with lineReady := true }).lineReady = true := by
  decide
theorem test_line_refusals :
    ({ runState with lineReady := true }).turn (.line []) = .refused .lineWhilePending ∧
    runState.turn (.line (List.replicate 33 0x31)) = .refused .lineTooLong ∧
    runState.turn (.line (List.replicate 32 0x31)) =
      .next { runState with lineReady := true, lineBuf := List.replicate 32 0x31 } := ⟨rfl, rfl, rfl⟩
/-- A counter level of 0x10005 is 5 at 16 bits; a halted block's level follows too. -/
theorem test_levels : runState.turn (.cmdCnt 0x10005) = .next { runState with cmdCnt := 5 } ∧
    ({ runState with halted := true }).turn (.en true) = .next { runState with halted := true, enIn := true } :=
  ⟨rfl, rfl⟩
theorem witness_AtMostOneExceptionAStep : (∃ t, faultState.turn .tick = .next t) ∧ Event.tick ≠ .reset :=
  ⟨⟨faultState.tick, rfl⟩, by decide⟩
theorem witness_WriteOwnership : (∃ t, runState.turn .tick = .next t) ∧ (∃ t, runState.turn .tick2 = .next t) ∧
    (∃ t, runState.turn .fg = .next t) ∧ ∃ t, runState.turn (.line []) = .next t := 
  ⟨⟨runState.tick, rfl⟩, ⟨runState.tick2, rfl⟩, ⟨_, rfl⟩, ⟨_, rfl⟩⟩
theorem witness_EveryStepKeepsTheInvariant : Inv { runState with ctl := Control.atReset } ∧
    ∃ t, step { runState with ctl := Control.atReset } = .next t :=
  ⟨⟨by decide, by decide, by decide, by decide, by decide, by decide, by decide, by decide, by decide, by decide, by decide,
    by decide, by decide⟩, _, rfl⟩
theorem witness_RenderingIsAsTheRuleSays : Config.testInst.num = .binary32 ∧
    ({ State.reset.par with pgain := 0x40200000 }).pgain = 0x40200000 ∧ isFinite 0x3C23D70A = true ∧
    Num32.isInf 0xFF800000 = true ∧ Num32.isNaN 0xFFC00000 = true := by decide

end Sys2Proof.Tests
end

section
/-! Rounding to binary32 (00_scope.md R10): the values of magnitude bits, and why `roundRatio` is nearest even. -/

namespace Sys2Proof
open Sys2Proof.Machine

/-! ## The value of magnitude bits -/

/-- Both parts of a power of two with an integer exponent are natural powers. -/
theorem two_zpow_eq_div (q : ℤ) : (2 : ℚ) ^ q = 2 ^ q.toNat / 2 ^ (-q).toNat := by
  rw [← zpow_natCast, ← zpow_natCast, ← zpow_sub₀ two_ne_zero, Int.toNat_sub_toNat_neg]

/-- The significand of magnitude bits, in units of the last place. -/
def magMant (mag : Nat) : Nat := if mag / 2 ^ 23 = 0 then mag else mag % 2 ^ 23 + 2 ^ 23

/-- The exponent of that unit, counted from the least one, `2^-149`. -/
def magUnit (mag : Nat) : Nat := max (mag / 2 ^ 23) 1 - 1

theorem magValue_eq (mag : Nat) : magValue mag = magMant mag * 2 ^ ((magUnit mag : ℤ) - 149) := by
  have he : ((max (mag / 2 ^ 23) 1 : Nat) : ℤ) - 150 = (magUnit mag : ℤ) - 149 := by
    simp only [magUnit]; omega
  simp only [magValue, magMant]
  rw [he]
  split <;> rfl

/-- The bits are the unit and the significand added up: the hidden bit of the significand raises the exponent field. -/
theorem magUnit_mul_add_magMant (mag : Nat) : magUnit mag * 2 ^ 23 + magMant mag = mag := by
  simp only [magUnit, magMant]
  split <;> omega

theorem magMant_lt (mag : Nat) : magMant mag < 2 ^ 24 := by
  simp only [magMant]
  split <;> omega

theorem le_magMant {mag : Nat} (h : magUnit mag ≠ 0) : 2 ^ 23 ≤ magMant mag := by
  simp only [magUnit] at h
  simp only [magMant]
  split <;> omega

/-- The value of bits added up from a unit and a significand, one that is too long by a carry included. -/
theorem magValue_unit_add {k n : Nat} (hn : n ≤ 2 ^ 24) (hk : k = 0 ∨ 2 ^ 23 ≤ n) :
    magValue (k * 2 ^ 23 + n) = n * 2 ^ ((k : ℤ) - 149) := by
  rw [magValue_eq]
  by_cases hc : n = 2 ^ 24
  · have hu : magUnit (k * 2 ^ 23 + n) = k + 1 := by simp only [magUnit]; omega
    have hm : magMant (k * 2 ^ 23 + n) = 2 ^ 23 := by
      simp only [magMant]; split <;> omega
    have hz : ((k + 1 : Nat) : ℤ) - 149 = ((k : ℤ) - 149) + 1 := by push_cast; ring
    rw [hu, hm, hz, zpow_add_one₀ two_ne_zero, hc]
    push_cast
    ring
  · have hu : magUnit (k * 2 ^ 23 + n) = k := by simp only [magUnit]; omega
    have hm : magMant (k * 2 ^ 23 + n) = n := by
      have := magUnit_mul_add_magMant (k * 2 ^ 23 + n)
      omega
    rw [hu, hm]

theorem magValue_succ (mag : Nat) :
    magValue (mag + 1) = magValue mag + 2 ^ ((magUnit mag : ℤ) - 149) := by
  have h : magValue (magUnit mag * 2 ^ 23 + (magMant mag + 1)) =
      (magMant mag + 1 : Nat) * 2 ^ ((magUnit mag : ℤ) - 149) :=
    magValue_unit_add (magMant_lt mag)
      ((eq_or_ne (magUnit mag) 0).imp_right fun hu => (le_magMant hu).trans (Nat.le_succ _))
  rw [← Nat.add_assoc, magUnit_mul_add_magMant] at h
  rw [h, magValue_eq mag]
  push_cast
  ring

theorem magValue_strictMono : StrictMono magValue :=
  strictMono_nat_of_lt_succ fun mag => by
    rw [magValue_succ]
    exact lt_add_of_pos_right _ (by positivity)

@[simp] theorem magValue_zero : magValue 0 = 0 := by simp [magValue]

theorem magValue_nonneg (mag : Nat) : 0 ≤ magValue mag :=
  magValue_zero ▸ magValue_strictMono.monotone (Nat.zero_le mag)

theorem magValue_infBits : magValue infBits = 2 ^ 128 := by
  norm_num [magValue, infBits]

theorem magValue_maxFinite : magValue (infBits - 1) = (2 ^ 24 - 1) * 2 ^ 104 := by
  norm_num [magValue, infBits]

/-! ## Rounding a quotient -/

/-- `2^e ≤ num / den < 2^(e+1)` at the exponent `binExp` finds. -/
theorem binExp_spec {num den : Nat} (hn : num ≠ 0) (hd : den ≠ 0) :
    (2 : ℚ) ^ binExp num den ≤ num / den ∧ (num : ℚ) / den < 2 ^ (binExp num den + 1) := by
  have hdq : (0 : ℚ) < den := by positivity
  have n1 : (2 : ℚ) ^ num.log2 ≤ num := by exact_mod_cast Nat.log2_self_le hn
  have n2 : (num : ℚ) < 2 ^ (num.log2 + 1) := by exact_mod_cast Nat.lt_log2_self (n := num)
  have d1 : (2 : ℚ) ^ den.log2 ≤ den := by exact_mod_cast Nat.log2_self_le hd
  have d2 : (den : ℚ) < 2 ^ (den.log2 + 1) := by exact_mod_cast Nat.lt_log2_self (n := den)
  have hg : (2 : ℚ) ^ ((num.log2 : ℤ) - den.log2) * 2 ^ den.log2 = 2 ^ num.log2 := by
    rw [← zpow_natCast, ← zpow_natCast, ← zpow_add₀ two_ne_zero, sub_add_cancel]
  have hcmp (g : ℤ) : den * 2 ^ g.toNat ≤ num * 2 ^ (-g).toNat ↔ (2 : ℚ) ^ g ≤ num / den := by
    rw [two_zpow_eq_div, div_le_div_iff₀ (by positivity) hdq, mul_comm den]
    norm_cast
  have hpos : (0 : ℚ) < 2 ^ ((num.log2 : ℤ) - den.log2) := by positivity
  simp only [binExp, hcmp]
  split
  · next h =>
    refine ⟨h, ?_⟩
    rw [div_lt_iff₀ hdq, zpow_add_one₀ two_ne_zero]
    rw [pow_succ] at n2
    nlinarith
  · next h =>
    refine ⟨?_, by simpa using h⟩
    rw [le_div_iff₀ hdq, zpow_sub_one₀ two_ne_zero]
    rw [pow_succ] at d2
    nlinarith

/-- `roundDiv` is within a half of the quotient, and even at a half. -/
theorem roundDiv_spec (num : Nat) {den : Nat} (hd : 0 < den) :
    |(roundDiv num den : ℚ) - num / den| ≤ 1 / 2 ∧
      (|(roundDiv num den : ℚ) - num / den| = 1 / 2 → roundDiv num den % 2 = 0) := by
  have hdq : (0 : ℚ) < den := by exact_mod_cast hd
  have hx : (num : ℚ) / den = (num / den : Nat) + ((num % den : Nat) : ℚ) / den := by
    rw [div_eq_iff hdq.ne', add_mul, div_mul_cancel₀ _ hdq.ne']
    exact_mod_cast (Nat.div_add_mod' num den).symm
  have hr : ((num % den : Nat) : ℚ) / den < 1 := by
    rw [div_lt_one hdq]
    exact_mod_cast Nat.mod_lt num hd
  have hlt : den < 2 * (num % den) ↔ (1 : ℚ) / 2 < ((num % den : Nat) : ℚ) / den := by
    rw [div_lt_div_iff₀ two_pos hdq, one_mul, mul_comm _ (2 : ℚ)]
    norm_cast
  have heq : den = 2 * (num % den) ↔ (1 : ℚ) / 2 = ((num % den : Nat) : ℚ) / den := by
    rw [div_eq_div_iff two_ne_zero hdq.ne', one_mul, mul_comm _ (2 : ℚ)]
    norm_cast
  have h0 : 0 ≤ ((num % den : Nat) : ℚ) / den := by positivity
  simp only [roundDiv, hlt, heq]
  rw [hx]
  generalize ((num % den : Nat) : ℚ) / den = r at *
  generalize num / den = n at *
  split
  · next h =>
    have ha : |((n + 1 : Nat) : ℚ) - (n + r)| = 1 - r := by
      push_cast
      rw [abs_of_pos] <;> linarith
    rw [ha]
    rcases h with h | ⟨h, ho⟩
    · exact ⟨by linarith, fun ht => by linarith⟩
    · exact ⟨by linarith, fun _ => by omega⟩
  · next h =>
    have ha : |(n : ℚ) - (n + r)| = r := by
      rw [sub_add_cancel_left, abs_neg, abs_of_nonneg h0]
    rw [ha]
    obtain ⟨hle, hodd⟩ := not_or.mp h
    exact ⟨not_lt.mp hle, fun ht => by_contra fun ho => hodd ⟨ht.symm, by omega⟩⟩

/-- The magnitude `mag` is at least as near to `x` as every other, and even where another is as near. The other
magnitudes go past `infBits`: the pattern of infinity counts as `2^128`. -/
def NearestEven (mag : Nat) (x : ℚ) : Prop :=
  ∀ m, |magValue mag - x| ≤ |magValue m - x| ∧
    (m ≠ mag → |magValue mag - x| = |magValue m - x| → mag % 2 = 0)

/-- It is enough to stay on the right side of the midpoints to the two neighbours, and to be even on one of them. -/
theorem nearestEven_of_midpoints {mag : Nat} {x : ℚ}
    (lo : ∀ p, p + 1 = mag →
      magValue p + magValue mag ≤ 2 * x ∧ (magValue p + magValue mag = 2 * x → mag % 2 = 0))
    (hi : 2 * x ≤ magValue mag + magValue (mag + 1) ∧ (2 * x = magValue mag + magValue (mag + 1) → mag % 2 = 0)) :
    NearestEven mag x := by
  intro m
  rcases lt_trichotomy m mag with h | rfl | h
  · obtain ⟨p, rfl⟩ : ∃ p, mag = p + 1 := ⟨mag - 1, by omega⟩
    obtain ⟨hle, htie⟩ := lo p rfl
    have hp : magValue m ≤ magValue p := magValue_strictMono.monotone (by omega)
    have hm : magValue m < magValue (p + 1) := magValue_strictMono h
    rw [abs_of_nonpos (show magValue m - x ≤ 0 by linarith)]
    refine ⟨abs_le.mpr ⟨by linarith, by linarith⟩, fun _ he => htie ?_⟩
    rcases abs_choice (magValue (p + 1) - x) with ha | ha <;> rw [ha] at he <;> linarith
  · exact ⟨le_rfl, fun hne => absurd rfl hne⟩
  · obtain ⟨hle, htie⟩ := hi
    have hp : magValue (mag + 1) ≤ magValue m := magValue_strictMono.monotone h
    have hm : magValue mag < magValue m := magValue_strictMono h
    rw [abs_of_nonneg (show 0 ≤ magValue m - x by linarith)]
    refine ⟨abs_le.mpr ⟨by linarith, by linarith⟩, fun _ he => htie ?_⟩
    rcases abs_choice (magValue mag - x) with ha | ha <;> rw [ha] at he <;> linarith

/-- A significand rounded in a unit that gives it 24 bits (or in the least unit) is nearest among all magnitudes. -/
theorem nearestEven_unit_add {k n : Nat} {t : ℚ} (ht : t < 2 ^ 24) (hk : k = 0 ∨ 2 ^ 23 ≤ t)
    (hn : |(n : ℚ) - t| ≤ 1 / 2) (he : |(n : ℚ) - t| = 1 / 2 → n % 2 = 0) :
    NearestEven (k * 2 ^ 23 + n) (t * 2 ^ ((k : ℤ) - 149)) := by
  obtain ⟨hlo, hhi⟩ := abs_le.mp hn
  have hup : n ≤ 2 ^ 24 := by
    have : (n : ℚ) < (2 ^ 24 + 1 : Nat) := by push_cast; linarith
    exact Nat.lt_succ_iff.mp (by exact_mod_cast this)
  have hkn : k = 0 ∨ 2 ^ 23 ≤ n := hk.imp_right fun h => by
    have : ((2 ^ 23 : Nat) : ℚ) < (n + 1 : Nat) := by push_cast; linarith
    exact Nat.lt_succ_iff.mp (by exact_mod_cast this)
  have heven : |(n : ℚ) - t| = 1 / 2 → (k * 2 ^ 23 + n) % 2 = 0 := fun h => by
    have := he h
    omega
  have hval := magValue_unit_add hup hkn
  have hu : (0 : ℚ) < 2 ^ ((k : ℤ) - 149) := by positivity
  apply nearestEven_of_midpoints
  · intro p hp
    by_cases hb : k = 0 ∨ 2 ^ 23 < n
    · obtain ⟨j, rfl⟩ : ∃ j, n = j + 1 := ⟨n - 1, by omega⟩
      obtain rfl : p = k * 2 ^ 23 + j := by omega
      rw [hval, magValue_unit_add (by omega) (hb.imp_right Nat.lt_succ_iff.mp), ← add_mul, ← mul_assoc]
      push_cast at *
      refine ⟨mul_le_mul_of_nonneg_right (by linarith) hu.le, fun h => heven ?_⟩
      have := mul_right_cancel₀ hu.ne' h
      rw [abs_of_nonneg] <;> linarith
    · have hp' : magValue p < magValue (k * 2 ^ 23 + n) := magValue_strictMono (by omega)
      have hnt : (n : ℚ) ≤ t := by
        obtain rfl : n = 2 ^ 23 := by omega
        exact_mod_cast hk.resolve_left fun h => hb (.inl h)
      have := mul_le_mul_of_nonneg_right hnt hu.le
      exact ⟨by linarith, fun h => by linarith⟩
  · by_cases hc : n < 2 ^ 24
    · rw [Nat.add_assoc, hval, magValue_unit_add hc (hkn.imp_right fun h => by omega), ← add_mul, ← mul_assoc]
      push_cast
      refine ⟨mul_le_mul_of_nonneg_right (by linarith) hu.le, fun h => heven ?_⟩
      have := mul_right_cancel₀ hu.ne' h
      rw [abs_of_nonpos] <;> linarith
    · have hs := magValue_strictMono (Nat.lt_succ_self (k * 2 ^ 23 + n))
      have hnt : t < n := by
        obtain rfl : n = 2 ^ 24 := by omega
        exact_mod_cast ht
      have := mul_lt_mul_of_pos_right hnt hu
      exact ⟨by linarith, fun h => by linarith⟩

/-- The exponent of the last place that `roundRatio` rounds in. -/
def ratioUnit (num den : Nat) : ℤ := max (binExp num den - 23) (-149)

/-- The magnitude that `roundRatio` cuts off at infinity. -/
def roundUnbounded (num den : Nat) : Nat :=
  (ratioUnit num den + 149).toNat * 2 ^ 23 +
    roundDiv (num * 2 ^ (-ratioUnit num den).toNat) (den * 2 ^ (ratioUnit num den).toNat)

theorem roundRatio_eq_min {num : Nat} (hn : num ≠ 0) (den : Nat) :
    roundRatio num den = min infBits (roundUnbounded num den) := by
  simp only [roundRatio, hn, if_false, roundUnbounded, ratioUnit]

theorem roundUnbounded_nearestEven {num den : Nat} (hn : num ≠ 0) (hd : 0 < den) :
    NearestEven (roundUnbounded num den) (num / den) := by
  obtain ⟨hlo, hhi⟩ := binExp_spec hn hd.ne'
  obtain ⟨k, hk⟩ : ∃ k : ℕ, ratioUnit num den = (k : ℤ) - 149 :=
    ⟨(ratioUnit num den + 149).toNat, by simp only [ratioUnit]; omega⟩
  have hq1 : binExp num den + 1 ≤ 24 + ratioUnit num den := by simp only [ratioUnit]; omega
  have hq2 : k = 0 ∨ 23 + ratioUnit num den = binExp num den := by simp only [ratioUnit] at *; omega
  have hku : (ratioUnit num den + 149).toNat = k := by omega
  have hqpos : (0 : ℚ) < 2 ^ ratioUnit num den := by positivity
  rw [roundUnbounded, hku]
  have hscale : (num : ℚ) / den =
      ((num * 2 ^ (-ratioUnit num den).toNat : Nat) : ℚ) / (den * 2 ^ (ratioUnit num den).toNat : Nat) *
        2 ^ ((k : ℤ) - 149) := by
    rw [← hk, two_zpow_eq_div]
    have : (den : ℚ) ≠ 0 := by positivity
    push_cast
    field_simp
  obtain ⟨hr, hr'⟩ := roundDiv_spec (num * 2 ^ (-ratioUnit num den).toNat)
    (den := den * 2 ^ (ratioUnit num den).toNat) (by positivity)
  rw [hscale] at hlo hhi ⊢
  rw [← hk] at hlo hhi
  refine nearestEven_unit_add ?_ (hq2.imp_right fun hq => ?_) hr hr'
  · have := hhi.trans_le (zpow_le_zpow_right₀ one_le_two hq1)
    rw [zpow_add₀ two_ne_zero] at this
    exact_mod_cast lt_of_mul_lt_mul_right this hqpos.le
  · rw [← hq, zpow_add₀ two_ne_zero] at hlo
    exact_mod_cast le_of_mul_le_mul_right hlo hqpos

/-- What is nearest is infinite exactly from the midpoint above the largest finite magnitude on. -/
theorem NearestEven.infBits_le_iff {mag : Nat} {x : ℚ} (h : NearestEven mag x) :
    infBits ≤ mag ↔ (2 ^ 25 - 1) * 2 ^ 103 ≤ x := by
  have hmid : magValue (infBits - 1) + magValue infBits = 2 * ((2 ^ 25 - 1) * 2 ^ 103) := by
    rw [magValue_maxFinite, magValue_infBits]
    norm_num
  have hgap : magValue (infBits - 1) < magValue infBits := magValue_strictMono (by decide)
  constructor
  · intro hm
    by_contra hx
    have hv := magValue_strictMono.monotone hm
    obtain ⟨hle, -⟩ := h (infBits - 1)
    rw [abs_of_pos (show 0 < magValue mag - x by linarith)] at hle
    rcases abs_choice (magValue (infBits - 1) - x) with ha | ha <;> rw [ha] at hle <;> linarith
  · intro hx
    by_contra hm
    have hv : magValue mag ≤ magValue (infBits - 1) := magValue_strictMono.monotone (by omega)
    obtain ⟨hle, htie⟩ := h infBits
    rw [abs_of_neg (show magValue mag - x < 0 by linarith)] at hle htie
    have hi : |magValue infBits - x| = magValue infBits - x := by
      rcases abs_choice (magValue infBits - x) with ha | ha
      · exact ha
      · rw [ha] at hle; linarith
    rw [hi] at hle htie
    have heq : magValue mag = magValue (infBits - 1) := by linarith
    have heven := htie (by omega) (by linarith)
    rw [magValue_strictMono.injective heq] at heven
    exact absurd heven (by decide)

/-- An exact magnitude rounds to itself. -/
theorem NearestEven.eq_of_magValue {mag m : Nat} (h : NearestEven mag (magValue m)) : mag = m := by
  obtain ⟨hle, -⟩ := h m
  rw [sub_self, abs_zero] at hle
  exact magValue_strictMono.injective (sub_eq_zero.mp (abs_nonpos_iff.mp hle))

theorem nearestEven_zero : NearestEven 0 0 := fun m => by simp [abs_nonneg]

/-- What `roundRatio` gives: the nearest magnitude, cut off at infinity. -/
theorem roundRatio_spec (num : Nat) {den : Nat} (hd : 0 < den) :
    ∃ mag, NearestEven mag (num / den) ∧ roundRatio num den = min infBits mag := by
  by_cases hn : num = 0
  · subst hn
    exact ⟨0, by simpa using nearestEven_zero, by simp⟩
  · exact ⟨_, roundUnbounded_nearestEven hn hd, roundRatio_eq_min hn den⟩

theorem roundRatio_eq_infBits_iff (num : Nat) {den : Nat} (hd : 0 < den) :
    roundRatio num den = infBits ↔ ((2 ^ 25 - 1) * 2 ^ 103 : ℚ) ≤ (num : ℚ) / den := by
  obtain ⟨mag, hnear, hr⟩ := roundRatio_spec num hd
  rw [hr, min_eq_left_iff, hnear.infBits_le_iff]

theorem roundRatio_nearestEven {num den : Nat} (hd : 0 < den) (h : roundRatio num den < infBits) :
    NearestEven (roundRatio num den) (num / den) := by
  obtain ⟨mag, hnear, hr⟩ := roundRatio_spec num hd
  obtain rfl : roundRatio num den = mag := by omega
  exact hnear

/-- A quotient that is a finite magnitude is not rounded. -/
theorem roundRatio_eq_of_magValue {num den m : Nat} (hd : 0 < den) (hm : m ≤ infBits)
    (h : (num : ℚ) / den = magValue m) : roundRatio num den = m := by
  obtain ⟨mag, hnear, hr⟩ := roundRatio_spec num hd
  rw [h] at hnear
  rw [hr, hnear.eq_of_magValue, min_eq_right hm]

/-- Settles O9: the unbounded rounding is nearest among all magnitudes, and the cut at infinity falls on the
midpoint. -/
theorem roundRatioIsNearestEven : Obligations.RoundRatioIsNearestEven := fun num _ hd =>
  ⟨fun hfin m _ => roundRatio_nearestEven hd hfin m, roundRatio_eq_infBits_iff num hd⟩

end Sys2Proof
end

section
/-! The four binary32 operations (00_scope.md R10): a pattern as sign and magnitude, and each operation by classes
of operands. -/

namespace Sys2Proof
open Sys2Proof.Machine

/-! ## A pattern as its sign and magnitude -/

/-- The 31 magnitude bits of a pattern. -/
def Num32.mag (a : Num32) : Nat := a.toNat % 2 ^ 31

theorem Num32.mag_lt (a : Num32) : a.mag < 2 ^ 31 := Nat.mod_lt _ (by decide)

theorem Num32.pack_sign_mag (a : Num32) : Num32.pack a.sign a.mag = a := by
  apply BitVec.eq_of_toNat_eq
  rw [Num32.pack_toNat _ a.mag_lt, Num32.sign, BitVec.msb_eq_decide, Num32.mag]
  have := a.isLt
  simp only [decide_eq_true_eq]
  split <;> omega

theorem Num32.ext_sign_mag {a b : Num32} (hs : a.sign = b.sign) (hm : a.mag = b.mag) : a = b := by
  rw [← a.pack_sign_mag, ← b.pack_sign_mag, hs, hm]

@[simp] theorem Num32.sign_neg (a : Num32) : (Num32.neg a).sign = !a.sign := by
  rw [Num32.sign, Num32.sign, Num32.neg, BitVec.msb_xor, show (0x80000000#32).msb = true from rfl, Bool.xor_true]

@[simp] theorem Num32.mag_neg (a : Num32) : (Num32.neg a).mag = a.mag := by
  rw [Num32.mag, Num32.neg, BitVec.toNat_xor, Nat.xor_mod_two_pow]
  exact Nat.xor_zero _

@[simp] theorem Num32.sign_abs (a : Num32) : (Num32.abs a).sign = false := by
  rw [Num32.sign, Num32.abs, BitVec.msb_and, show (0x7FFFFFFF#32).msb = false from rfl, Bool.and_false]

@[simp] theorem Num32.mag_abs (a : Num32) : (Num32.abs a).mag = a.mag := by
  simp [Num32.mag, Num32.abs_toNat]

theorem Num32.mag_pack (neg : Bool) {mag : Nat} (h : mag ≤ infBits) : (Num32.pack neg mag).mag = mag :=
  Num32.pack_mag neg (Nat.lt_of_le_of_lt h (by decide))

theorem Num32.sign_pack (neg : Bool) {mag : Nat} (h : mag ≤ infBits) : (Num32.pack neg mag).sign = neg :=
  Num32.pack_sign neg (Nat.lt_of_le_of_lt h (by decide))

theorem Num32.expo_eq (a : Num32) : a.expo = a.mag / 2 ^ 23 := by
  simp only [Num32.expo, Num32.mag]
  omega

theorem Num32.frac_eq (a : Num32) : a.frac = a.mag % 2 ^ 23 := by
  simp only [Num32.frac, Num32.mag]
  omega

theorem Num32.mant_eq (a : Num32) : a.mant = magMant a.mag := by
  simp only [Num32.mant, magMant, Num32.expo_eq, Num32.frac_eq]
  split <;> omega

theorem Num32.qexp_eq (a : Num32) : a.qexp = (magUnit a.mag : ℤ) - 149 := by
  simp only [Num32.qexp, magUnit, Num32.expo_eq]
  omega

/-! ## Finite, infinite and NaN patterns -/

theorem isFinite_iff (a : Num32) : isFinite a = true ↔ a.mag < infBits := by
  have := a.mag_lt
  simp only [isFinite, Num32.expo_eq, infBits, decide_eq_true_eq]
  omega

theorem Num32.isInf_iff (a : Num32) : a.isInf = true ↔ a.mag = infBits := by
  have := a.mag_lt
  simp only [Num32.isInf, Num32.expo_eq, Num32.frac_eq, infBits, Bool.and_eq_true, decide_eq_true_eq]
  omega

theorem Num32.isNaN_iff (a : Num32) : a.isNaN = true ↔ infBits < a.mag := by
  have := a.mag_lt
  simp only [Num32.isNaN, Num32.expo_eq, Num32.frac_eq, infBits, Bool.and_eq_true, decide_eq_true_eq]
  omega

theorem Num32.isZero_iff (a : Num32) : a.isZero = true ↔ a.mag = 0 := by
  simp only [Num32.isZero, Num32.mag, decide_eq_true_eq]

theorem Num32.isNaN_eq_false_iff (a : Num32) : a.isNaN = false ↔ a.mag ≤ infBits := by
  rw [← Bool.not_eq_true, Num32.isNaN_iff, not_lt]

theorem Num32.isNaN_of_isFinite {a : Num32} (h : isFinite a = true) : a.isNaN = false :=
  a.isNaN_eq_false_iff.mpr ((isFinite_iff a).mp h).le

theorem Num32.isInf_of_isFinite {a : Num32} (h : isFinite a = true) : a.isInf = false := by
  rw [← Bool.not_eq_true, Num32.isInf_iff]
  exact ((isFinite_iff a).mp h).ne

theorem Num32.isNaN_of_isInf {a : Num32} (h : a.isInf = true) : a.isNaN = false :=
  a.isNaN_eq_false_iff.mpr (a.isInf_iff.mp h).le

theorem Num32.isZero_of_isInf {a : Num32} (h : a.isInf = true) : a.isZero = false := by
  rw [← Bool.not_eq_true, Num32.isZero_iff, a.isInf_iff.mp h]
  decide

@[simp] theorem Num32.isNaN_neg (a : Num32) : (Num32.neg a).isNaN = a.isNaN := by
  rw [Bool.eq_iff_iff, Num32.isNaN_iff, Num32.isNaN_iff, Num32.mag_neg]

@[simp] theorem Num32.isInf_neg (a : Num32) : (Num32.neg a).isInf = a.isInf := by
  rw [Bool.eq_iff_iff, Num32.isInf_iff, Num32.isInf_iff, Num32.mag_neg]

@[simp] theorem isFinite_neg (a : Num32) : isFinite (Num32.neg a) = isFinite a := by
  rw [Bool.eq_iff_iff, isFinite_iff, isFinite_iff, Num32.mag_neg]

@[simp] theorem isFinite_abs (a : Num32) : isFinite (Num32.abs a) = isFinite a := by
  rw [Bool.eq_iff_iff, isFinite_iff, isFinite_iff, Num32.mag_abs]

theorem isFinite_pack (neg : Bool) {mag : Nat} (h : mag < infBits) : isFinite (Num32.pack neg mag) = true := by
  rw [isFinite_iff, Num32.mag_pack neg h.le]
  exact h

theorem Num32.isInf_pack_iff (neg : Bool) {mag : Nat} (h : mag ≤ infBits) :
    (Num32.pack neg mag).isInf = true ↔ mag = infBits := by
  rw [Num32.isInf_iff, Num32.mag_pack neg h]

/-! ## The exact value -/

theorem abs_smant (a : Num32) : |(Num32.smant a : ℚ)| = a.mant := by
  unfold Num32.smant
  split <;> simp

theorem abs_numValue_eq_mant (a : Num32) : |numValue a| = a.mant * 2 ^ a.qexp := by
  rw [numValue, abs_mul, abs_smant, abs_of_pos (show (0 : ℚ) < 2 ^ a.qexp by positivity)]

theorem abs_numValue (a : Num32) : |numValue a| = magValue a.mag := by
  rw [abs_numValue_eq_mant, magValue_eq, Num32.mant_eq, Num32.qexp_eq]

theorem numValue_eq (a : Num32) : numValue a = if a.sign then -magValue a.mag else magValue a.mag := by
  rw [← abs_numValue, abs_numValue_eq_mant, numValue, Num32.smant]
  split <;> simp

@[simp] theorem numValue_neg (a : Num32) : numValue (Num32.neg a) = -numValue a := by
  rw [numValue_eq, numValue_eq]
  cases h : a.sign <;> simp [h]

@[simp] theorem numValue_abs (a : Num32) : numValue (Num32.abs a) = |numValue a| := by
  rw [numValue_eq, abs_numValue]
  simp

theorem numValue_pack (neg : Bool) {mag : Nat} (h : mag ≤ infBits) :
    numValue (Num32.pack neg mag) = if neg then -magValue mag else magValue mag := by
  rw [numValue_eq, Num32.sign_pack neg h, Num32.mag_pack neg h]

theorem numValue_eq_zero_iff (a : Num32) : numValue a = 0 ↔ a.isZero = true := by
  rw [← abs_eq_zero, abs_numValue, Num32.isZero_iff, ← magValue_zero, magValue_strictMono.injective.eq_iff]

theorem numValue_ne_zero_iff (a : Num32) : numValue a ≠ 0 ↔ a.isZero = false := by
  rw [Ne, numValue_eq_zero_iff, Bool.not_eq_true]

theorem Num32.mant_ne_zero {a : Num32} (h : numValue a ≠ 0) : a.mant ≠ 0 := fun hm =>
  h (abs_eq_zero.mp (by rw [abs_numValue_eq_mant, hm]; simp))

/-! ## The operations on finite operands -/

theorem Num32.ofRatio_eq (neg : Bool) (num : Nat) {den : Nat} (hd : 0 < den) :
    Num32.ofRatio neg num den = Num32.pack neg (roundRatio num den) := by
  rw [Num32.ofRatio, if_neg hd.ne']

/-- A dyadic number is rounded once, as some quotient of naturals that has its value. -/
theorem Num32.ofDyadic_spec (neg : Bool) (m : Nat) (q : ℤ) : ∃ num den : Nat, 0 < den ∧
    (num : ℚ) / den = m * 2 ^ q ∧ Num32.ofDyadic neg m q = Num32.pack neg (roundRatio num den) := by
  refine ⟨m * 2 ^ q.toNat, 2 ^ (-q).toNat, by positivity, ?_, Num32.ofRatio_eq _ _ (by positivity)⟩
  rw [two_zpow_eq_div]
  push_cast
  ring

/-- The sum that `add` rounds: the significands brought to the unit of the smaller exponent. -/
def addMant (a b : Num32) : ℤ :=
  Num32.smant a * 2 ^ (Num32.qexp a - min (Num32.qexp a) (Num32.qexp b)).toNat +
    Num32.smant b * 2 ^ (Num32.qexp b - min (Num32.qexp a) (Num32.qexp b)).toNat

theorem numValue_add_numValue (a b : Num32) :
    numValue a + numValue b = addMant a b * 2 ^ min (Num32.qexp a) (Num32.qexp b) := by
  have hscale (c q : ℤ) (h : q ≤ c) : (2 : ℚ) ^ c = 2 ^ (c - q).toNat * 2 ^ q := by
    rw [← zpow_natCast, ← zpow_add₀ two_ne_zero, Int.toNat_of_nonneg (by omega), sub_add_cancel]
  rw [numValue, numValue, addMant, hscale a.qexp _ (min_le_left _ b.qexp), hscale b.qexp _ (min_le_right a.qexp _)]
  push_cast
  ring

section
variable {a b : Num32} (ha : isFinite a = true) (hb : isFinite b = true)
include ha hb

theorem Num32.add_of_isFinite : Num32.add a b =
    if addMant a b = 0 then Num32.pack (a.sign && b.sign) 0
    else Num32.ofDyadic (decide (addMant a b < 0)) (addMant a b).natAbs (min a.qexp b.qexp) := by
  simp only [Num32.add, isNaN_of_isFinite ha, isNaN_of_isFinite hb, isInf_of_isFinite ha, isInf_of_isFinite hb,
    Bool.or_self, Bool.false_eq_true, if_false]
  rfl

theorem Num32.add_rounds (h : numValue a + numValue b ≠ 0) : ∃ num den : Nat, 0 < den ∧
    (num : ℚ) / den = |numValue a + numValue b| ∧
    Num32.add a b = Num32.pack (decide (numValue a + numValue b < 0)) (roundRatio num den) := by
  have hq : (0 : ℚ) < 2 ^ min a.qexp b.qexp := by positivity
  rw [Num32.add_of_isFinite ha hb]
  rw [numValue_add_numValue] at h ⊢
  have hx : addMant a b ≠ 0 := fun h0 => h (by rw [h0]; simp)
  have hneg : (addMant a b : ℚ) * 2 ^ min a.qexp b.qexp < 0 ↔ addMant a b < 0 := by
    simp only [mul_neg_iff, hq, hq.not_gt, and_false, and_true, false_or, Int.cast_lt_zero]
  rw [if_neg hx, abs_mul, abs_of_pos hq, ← Int.cast_abs, Int.abs_eq_natAbs, Int.cast_natCast]
  simp only [hneg]
  exact Num32.ofDyadic_spec _ _ _

theorem Num32.add_of_sum_zero (h : numValue a + numValue b = 0) : Num32.add a b = Num32.pack (a.sign && b.sign) 0 := by
  have hx : addMant a b = 0 := by
    rw [numValue_add_numValue] at h
    exact_mod_cast (mul_eq_zero.mp h).resolve_right (by positivity)
  rw [Num32.add_of_isFinite ha hb, if_pos hx]

theorem Num32.mul_rounds : ∃ num den : Nat, 0 < den ∧ (num : ℚ) / den = |numValue a * numValue b| ∧
    Num32.mul a b = Num32.pack (a.sign != b.sign) (roundRatio num den) := by
  have hv : |numValue a * numValue b| = (a.mant * b.mant : Nat) * 2 ^ (a.qexp + b.qexp) := by
    rw [abs_mul, abs_numValue_eq_mant, abs_numValue_eq_mant, zpow_add₀ two_ne_zero]
    push_cast
    ring
  have hm : Num32.mul a b = Num32.ofDyadic (a.sign != b.sign) (a.mant * b.mant) (a.qexp + b.qexp) := by
    simp [Num32.mul, isNaN_of_isFinite ha, isNaN_of_isFinite hb, isInf_of_isFinite ha, isInf_of_isFinite hb]
  rw [hv, hm]
  exact Num32.ofDyadic_spec _ _ _

theorem Num32.div_rounds (h : numValue b ≠ 0) : ∃ num den : Nat, 0 < den ∧
    (num : ℚ) / den = |numValue a / numValue b| ∧
    Num32.div a b = Num32.pack (a.sign != b.sign) (roundRatio num den) := by
  have hbm : 0 < b.mant := Nat.pos_of_ne_zero (Num32.mant_ne_zero h)
  have hz : b.isZero = false := (numValue_ne_zero_iff b).mp h
  refine ⟨a.mant * 2 ^ (a.qexp - b.qexp).toNat, b.mant * 2 ^ (b.qexp - a.qexp).toNat, by positivity, ?_, ?_⟩
  · have hq := two_zpow_eq_div (a.qexp - b.qexp)
    rw [zpow_sub₀ two_ne_zero, neg_sub] at hq
    rw [abs_div, abs_numValue_eq_mant, abs_numValue_eq_mant, mul_div_mul_comm, hq]
    push_cast
    rw [mul_div_mul_comm]
  · rw [← Num32.ofRatio_eq _ _ (by positivity)]
    simp [Num32.div, isNaN_of_isFinite ha, isNaN_of_isFinite hb, isInf_of_isFinite ha, isInf_of_isFinite hb, hz]

theorem Num32.sub_of_isFinite : Num32.sub a b = Num32.add a (Num32.neg b) := by
  simp [Num32.sub, isNaN_of_isFinite ha, isNaN_of_isFinite hb, isInf_of_isFinite ha]

theorem Num32.div_zero_of_isFinite (hb0 : numValue b = 0) (ha0 : numValue a ≠ 0) :
    Num32.div a b = Num32.pack (a.sign != b.sign) infBits := by
  simp [Num32.div, isNaN_of_isFinite ha, isNaN_of_isFinite hb, isInf_of_isFinite ha,
    (numValue_eq_zero_iff b).mp hb0, (numValue_ne_zero_iff a).mp ha0]

end

/-! ## The operations on infinities, on invalid operands and on NaN -/

/-- Subtraction is the addition of the negated number, but for which NaN an invalid operation gives. -/
theorem Num32.sub_eq_add_neg {a b : Num32} (ha : a.isNaN = false) (hb : b.isNaN = false)
    (h : a.isInf = true → b.isInf = true → a.sign ≠ b.sign) : Num32.sub a b = Num32.add a (Num32.neg b) := by
  have hinv : (a.isInf && b.isInf && (a.sign == b.sign)) = false := by
    simpa using h
  simp only [Num32.sub, ha, hb, hinv, Bool.or_self, Bool.false_eq_true, if_false]

/-- An infinity swallows whatever it meets that is neither a NaN nor the infinity of the other sign. -/
theorem Num32.add_of_isInf_left {a b : Num32} (ha : a.isInf = true) (hb : b.isNaN = false)
    (h : b.isInf = true → a.sign = b.sign) : Num32.add a b = a := by
  have hinv : (b.isInf && (a.sign != b.sign)) = false := by
    simpa using h
  simp only [Num32.add, Num32.isNaN_of_isInf ha, hb, ha, hinv, Bool.or_self, Bool.false_eq_true, if_false, if_true]

theorem Num32.add_of_isInf_right {a b : Num32} (ha : isFinite a = true) (hb : b.isInf = true) : Num32.add a b = b := by
  simp only [Num32.add, isNaN_of_isFinite ha, Num32.isNaN_of_isInf hb, isInf_of_isFinite ha, hb, Bool.or_self,
    Bool.false_eq_true, if_false, if_true]

theorem Num32.add_opposite_isNaN {a b : Num32} (ha : a.isInf = true) (hb : b.isInf = true) (h : a.sign ≠ b.sign) :
    (Num32.add a b).isNaN = true := by
  simp [Num32.add, Num32.isNaN_of_isInf ha, Num32.isNaN_of_isInf hb, ha, hb, h, Num32.nanOf_isNaN]

theorem Num32.sub_same_isNaN {a b : Num32} (ha : a.isInf = true) (hb : b.isInf = true) (h : a.sign = b.sign) :
    (Num32.sub a b).isNaN = true := by
  simp [Num32.sub, ha, hb, h, Num32.nanOf_isNaN]

/-- A product with an infinite factor and none that is zero. -/
theorem Num32.mul_of_isInf {a b : Num32} (ha : a.isNaN = false) (hb : b.isNaN = false) (ha0 : a.isZero = false)
    (hb0 : b.isZero = false) (h : a.isInf = true ∨ b.isInf = true) :
    Num32.mul a b = Num32.pack (a.sign != b.sign) infBits := by
  simp [Num32.mul, ha, hb, ha0, hb0, h]

theorem Num32.mul_inf_zero_isNaN {a b : Num32}
    (h : a.isInf = true ∧ b.isZero = true ∨ a.isZero = true ∧ b.isInf = true) :
    (Num32.mul a b).isNaN = true := by
  rcases h with ⟨ha, hb⟩ | ⟨ha, hb⟩ <;> simp [Num32.mul, ha, hb, Num32.nanOf_isNaN]

theorem Num32.div_of_isInf_left {a b : Num32} (ha : a.isInf = true) (hb : isFinite b = true) :
    Num32.div a b = Num32.pack (a.sign != b.sign) infBits := by
  simp [Num32.div, Num32.isNaN_of_isInf ha, isNaN_of_isFinite hb, isInf_of_isFinite hb, isZero_of_isInf ha, ha]

theorem Num32.div_of_isInf_right {a b : Num32} (ha : isFinite a = true) (hb : b.isInf = true) :
    Num32.div a b = Num32.pack (a.sign != b.sign) 0 := by
  simp [Num32.div, Num32.isNaN_of_isInf hb, isNaN_of_isFinite ha, isInf_of_isFinite ha, isZero_of_isInf hb, hb]

theorem Num32.div_inf_inf_isNaN {a b : Num32} (ha : a.isInf = true) (hb : b.isInf = true) :
    (Num32.div a b).isNaN = true := by
  simp [Num32.div, ha, hb, Num32.nanOf_isNaN]

theorem Num32.div_zero_zero_isNaN {a b : Num32} (ha : numValue a = 0) (hb : numValue b = 0) :
    (Num32.div a b).isNaN = true := by
  simp [Num32.div, (numValue_eq_zero_iff a).mp ha, (numValue_eq_zero_iff b).mp hb, Num32.nanOf_isNaN]

/-- Every operation on a NaN gives a NaN. -/
theorem Num32.ops_isNaN_of_isNaN {a b : Num32} (h : a.isNaN = true ∨ b.isNaN = true) :
    (Num32.add a b).isNaN = true ∧ (Num32.sub a b).isNaN = true ∧ (Num32.mul a b).isNaN = true ∧
      (Num32.div a b).isNaN = true := by
  have hn : (a.isNaN || b.isNaN) = true := by simpa using h
  simp [Num32.add, Num32.sub, Num32.mul, Num32.div, hn, Num32.nanOf_isNaN]

/-- Settles O10: finite operands are rounded once; infinities, invalid operations and NaN each have their lemma. -/
theorem arithmeticRoundsOnce : Obligations.ArithmeticRoundsOnce := by
  refine ⟨fun a b ha hb => ?finite, fun a b ha hb => ?infFinite, fun a b ha hb => ?infInf,
    fun a b h => Num32.ops_isNaN_of_isNaN h⟩
  case finite =>
    exact ⟨Num32.add_rounds ha hb, Num32.add_of_sum_zero ha hb, Num32.sub_of_isFinite ha hb, numValue_neg b,
      Num32.mul_rounds ha hb, Num32.div_rounds ha hb, Num32.div_zero_of_isFinite ha hb,
      fun hb0 ha0 => Num32.div_zero_zero_isNaN ha0 hb0⟩
  case infFinite =>
    have han := Num32.isNaN_of_isInf ha
    have hbn := Num32.isNaN_of_isFinite hb
    have hbi := Num32.isInf_of_isFinite hb
    have haz := Num32.isZero_of_isInf ha
    refine ⟨Num32.add_of_isInf_left ha hbn (by simp [hbi]), Num32.add_of_isInf_right hb ha, ?_, ?_,
      Num32.div_of_isInf_left ha hb, Num32.div_of_isInf_right hb ha, fun h0 => ?_, fun h0 => ?_⟩
    · rw [Num32.sub_eq_add_neg han hbn (by simp [hbi])]
      exact Num32.add_of_isInf_left ha (by simpa using hbn) (by simp [hbi])
    · rw [Num32.sub_eq_add_neg hbn han (by simp [hbi])]
      exact Num32.add_of_isInf_right hb (by simpa using ha)
    · have hbz := (numValue_ne_zero_iff b).mp h0
      exact ⟨Num32.mul_of_isInf han hbn haz hbz (.inl ha), Num32.mul_of_isInf hbn han hbz haz (.inr ha)⟩
    · have hbz := (numValue_eq_zero_iff b).mp h0
      exact ⟨Num32.mul_inf_zero_isNaN (.inl ⟨ha, hbz⟩), Num32.mul_inf_zero_isNaN (.inr ⟨hbz, ha⟩)⟩
  case infInf =>
    have han := Num32.isNaN_of_isInf ha
    have hbn := Num32.isNaN_of_isInf hb
    refine ⟨fun hs => ⟨Num32.add_of_isInf_left ha hbn fun _ => hs, Num32.sub_same_isNaN ha hb hs⟩,
      fun hs => ⟨Num32.add_opposite_isNaN ha hb hs, ?_⟩,
      Num32.mul_of_isInf han hbn (Num32.isZero_of_isInf ha) (Num32.isZero_of_isInf hb) (.inl ha),
      Num32.div_inf_inf_isNaN ha hb⟩
    rw [Num32.sub_eq_add_neg han hbn fun _ _ => hs]
    refine Num32.add_of_isInf_left ha (by simpa using hbn) fun _ => ?_
    rw [Num32.sign_neg]
    exact Bool.eq_not.mpr hs

end Sys2Proof
end

section
/-! Order, conversions and the clamp under binary32 (00_scope.md R10, R11, 42_pid.md R146). -/

namespace Sys2Proof
open Sys2Proof.Machine

/-! ## The order of the numbers -/

/-- The exact value at a place in the order of the numbers. -/
def keyValue (k : ℤ) : ℚ := k.sign * magValue k.natAbs

theorem keyValue_natCast (n : Nat) : keyValue n = magValue n := by
  rcases n.eq_zero_or_pos with rfl | hn
  · simp [keyValue]
  · simp [keyValue, Int.sign_natCast_of_ne_zero hn.ne']

theorem keyValue_neg (k : ℤ) : keyValue (-k) = -keyValue k := by simp [keyValue]

theorem keyValue_strictMono : StrictMono keyValue :=
  strictMono_of_odd_strictMonoOn_nonneg keyValue_neg fun x hx y hy hxy => by
    obtain ⟨m, rfl⟩ := Int.eq_ofNat_of_zero_le hx
    obtain ⟨n, rfl⟩ := Int.eq_ofNat_of_zero_le hy
    rw [keyValue_natCast, keyValue_natCast]
    exact magValue_strictMono (by exact_mod_cast hxy)

theorem Num32.orderKey_eq (a : Num32) : a.orderKey = if a.sign then -(a.mag : ℤ) else a.mag := rfl

@[simp] theorem Num32.orderKey_abs (a : Num32) : (Num32.abs a).orderKey = a.mag := by
  simp [Num32.orderKey_eq]

@[simp] theorem Num32.orderKey_neg (a : Num32) : (Num32.neg a).orderKey = -a.orderKey := by
  simp only [Num32.orderKey_eq, Num32.sign_neg, Num32.mag_neg]
  cases a.sign <;> simp

theorem keyValue_orderKey (a : Num32) : keyValue a.orderKey = numValue a := by
  rw [Num32.orderKey_eq, numValue_eq]
  split
  · rw [keyValue_neg, keyValue_natCast]
  · rw [keyValue_natCast]

theorem Num32.lt_iff_orderKey {a b : Num32} (ha : a.isNaN = false) (hb : b.isNaN = false) :
    Num32.lt a b = true ↔ a.orderKey < b.orderKey := by
  simp [Num32.lt, ha, hb]

theorem Num32.lt_of_isNaN {a b : Num32} (h : a.isNaN = true ∨ b.isNaN = true) : Num32.lt a b = false := by
  rcases h with h | h <;> simp [Num32.lt, h]

theorem Num32.lt_iff_numValue {a b : Num32} (ha : isFinite a = true) (hb : isFinite b = true) :
    Num32.lt a b = true ↔ numValue a < numValue b := by
  rw [Num32.lt_iff_orderKey (isNaN_of_isFinite ha) (isNaN_of_isFinite hb), ← keyValue_strictMono.lt_iff_lt,
    keyValue_orderKey, keyValue_orderKey]

theorem Num32.orderKey_pack (neg : Bool) {mag : Nat} (h : mag ≤ infBits) :
    (Num32.pack neg mag).orderKey = if neg then -(mag : ℤ) else mag := by
  rw [Num32.orderKey_eq, Num32.sign_pack neg h, Num32.mag_pack neg h]

/-- The infinities are the outermost places. -/
theorem Num32.orderKey_bounds {a : Num32} (h : a.isNaN = false) :
    -(infBits : ℤ) ≤ a.orderKey ∧ a.orderKey ≤ infBits := by
  have := a.isNaN_eq_false_iff.mp h
  rw [Num32.orderKey_eq]
  split <;> omega

/-- Only an infinity stands at the place of an infinity. -/
theorem Num32.orderKey_eq_infBits_iff {a : Num32} (neg : Bool) :
    a.orderKey = (if neg then -(infBits : ℤ) else infBits) ↔ a = Num32.pack neg infBits := by
  refine ⟨fun h => ?_, fun h => by rw [h, Num32.orderKey_pack neg le_rfl]⟩
  have hpos : 0 < infBits := by decide
  rw [Num32.orderKey_eq] at h
  apply Num32.ext_sign_mag
  · rw [Num32.sign_pack neg le_rfl]
    cases hs : a.sign <;> cases neg <;> simp [hs] at h ⊢ <;> omega
  · rw [Num32.mag_pack neg le_rfl]
    split at h <;> split at h <;> omega

/-- Where the infinities stand in `lt`. -/
theorem Num32.lt_infinities {a : Num32} (h : a.isNaN = false) :
    (Num32.lt a (Num32.pack false infBits) = true ↔ a ≠ Num32.pack false infBits) ∧
    (Num32.lt (Num32.pack true infBits) a = true ↔ a ≠ Num32.pack true infBits) ∧
    Num32.lt (Num32.pack false infBits) a = false ∧ Num32.lt a (Num32.pack true infBits) = false := by
  obtain ⟨hlo, hhi⟩ := Num32.orderKey_bounds h
  have hn (neg : Bool) : (Num32.pack neg infBits).isNaN = false := Num32.pack_isNaN neg le_rfl
  have hk (neg : Bool) := Num32.orderKey_pack neg (le_refl infBits)
  refine ⟨?_, ?_, ?_, ?_⟩
  · rw [Num32.lt_iff_orderKey h (hn _), Ne, ← Num32.orderKey_eq_infBits_iff, hk]
    simp only [Bool.false_eq_true, if_false]
    omega
  · rw [Num32.lt_iff_orderKey (hn _) h, Ne, ← Num32.orderKey_eq_infBits_iff, hk]
    simp only [if_true]
    omega
  · rw [← Bool.not_eq_true, Num32.lt_iff_orderKey (hn _) h, hk]
    simpa using hhi
  · rw [← Bool.not_eq_true, Num32.lt_iff_orderKey h (hn _), hk]
    simpa using hlo

/-! ## Conversions -/

/-- A natural up to `2^24` is a magnitude: shifted up to 24 bits it is a significand. -/
theorem exists_magValue_eq_natCast {n : Nat} (h : n ≤ 2 ^ 24) : ∃ m, m < infBits ∧ magValue m = n := by
  rcases eq_or_ne n 0 with rfl | hn
  · exact ⟨0, by decide, by simp⟩
  have hlo : 2 ^ 23 ≤ n * 2 ^ (23 - n.log2) := calc
    2 ^ 23 ≤ 2 ^ (n.log2 + (23 - n.log2)) := Nat.pow_le_pow_right two_pos (by omega)
    _ = 2 ^ n.log2 * 2 ^ (23 - n.log2) := pow_add _ _ _
    _ ≤ n * 2 ^ (23 - n.log2) := Nat.mul_le_mul_right _ (Nat.log2_self_le hn)
  have hhi : n * 2 ^ (23 - n.log2) ≤ 2 ^ 24 := by
    rcases le_or_gt n.log2 23 with hl | hl
    · calc
        n * 2 ^ (23 - n.log2) ≤ 2 ^ (n.log2 + 1) * 2 ^ (23 - n.log2) := Nat.mul_le_mul_right _ Nat.lt_log2_self.le
        _ = 2 ^ 24 := by rw [← pow_add]; congr 1; omega
    · simpa [Nat.sub_eq_zero_of_le hl.le] using h
  refine ⟨(149 - (23 - n.log2)) * 2 ^ 23 + n * 2 ^ (23 - n.log2), ?_, ?_⟩
  · simp only [infBits]
    omega
  · have hk : ((149 - (23 - n.log2) : Nat) : ℤ) - 149 = -((23 - n.log2 : Nat) : ℤ) := by omega
    rw [magValue_unit_add hhi (.inr hlo), hk, zpow_neg, zpow_natCast]
    push_cast
    exact mul_inv_cancel_right₀ (by positivity) _

theorem roundRatio_natCast {n : Nat} (h : n ≤ 2 ^ 24) :
    roundRatio n 1 < infBits ∧ magValue (roundRatio n 1) = n := by
  obtain ⟨m, hm, hv⟩ := exists_magValue_eq_natCast h
  rw [roundRatio_eq_of_magValue one_pos hm.le (by rw [hv]; simp)]
  exact ⟨hm, hv⟩

/-- `toNum` is exact up to `2^24`. -/
theorem Num32.ofInt_exact {x : ℤ} (h : |x| ≤ 2 ^ 24) :
    isFinite (Num32.ofInt x) = true ∧ numValue (Num32.ofInt x) = x := by
  obtain ⟨hfin, hval⟩ := roundRatio_natCast (n := x.natAbs) (by rw [Int.abs_eq_natAbs] at h; exact_mod_cast h)
  refine ⟨isFinite_pack _ hfin, ?_⟩
  rw [Num32.ofInt, numValue_pack _ hfin.le, hval, Nat.cast_natAbs]
  by_cases hx : x < 0
  · simp [hx, abs_of_neg]
  · simp [hx, abs_of_nonneg (not_lt.mp hx)]

theorem Num32.isInf_ofInt_iff (x : ℤ) : (2 ^ 25 - 1) * 2 ^ 103 ≤ |x| ↔ (Num32.ofInt x).isInf = true := by
  rw [Num32.ofInt, Num32.isInf_pack_iff _ (roundRatio_le _ _), roundRatio_eq_infBits_iff _ one_pos, Nat.cast_natAbs,
    Nat.cast_one, div_one]
  norm_cast

theorem Num32.truncInt_eq (r : Num32) : r.truncInt = if r.sign then -⌊|numValue r|⌋ else ⌊|numValue r|⌋ := by
  have hfloor : ⌊|numValue r|⌋ = ((r.mant * 2 ^ r.qexp.toNat / 2 ^ (-r.qexp).toNat : Nat) : ℤ) := by
    rw [abs_numValue_eq_mant, two_zpow_eq_div, ← mul_div_assoc]
    exact_mod_cast Rat.floor_natCast_div_natCast (r.mant * 2 ^ r.qexp.toNat) (2 ^ (-r.qexp).toNat)
  rw [hfloor, Num32.truncInt]

theorem Num32.truncInt_of_nonneg {r : Num32} (h : 0 ≤ numValue r) : r.truncInt = ⌊numValue r⌋ := by
  rw [Num32.truncInt_eq, abs_of_nonneg h]
  split
  · next hs =>
    have hv := numValue_eq r
    rw [if_pos hs] at hv
    have h0 : numValue r = 0 := by linarith [magValue_nonneg r.mag]
    simp [h0]
  · rfl

theorem Num32.truncInt_of_nonpos {r : Num32} (h : numValue r ≤ 0) : r.truncInt = ⌈numValue r⌉ := by
  rw [Num32.truncInt_eq, abs_of_nonpos h, Int.floor_neg, neg_neg]
  split
  · rfl
  · next hs =>
    have hv := numValue_eq r
    rw [if_neg hs] at hv
    have h0 : numValue r = 0 := by linarith [magValue_nonneg r.mag]
    simp [h0]

theorem Num32.toInt_satTrunc32 {r : Num32} (h : isFinite r = true) :
    (Num32.satTrunc32 r).toInt = clampInt r.truncInt (-2 ^ 31) (2 ^ 31 - 1) := by
  obtain ⟨hlo, hhi⟩ := clampInt_bounds r.truncInt (lo := -2 ^ 31) (hi := 2 ^ 31 - 1) (by decide)
  simp only [Num32.satTrunc32, isNaN_of_isFinite h, isInf_of_isFinite h, Bool.false_eq_true, if_false]
  exact BitVec.toInt_ofInt_eq_self (by decide) hlo (Int.lt_of_le_sub_one hhi)

theorem Num32.satTrunc32_of_isNaN {r : Num32} (h : r.isNaN = true) : Num32.satTrunc32 r = 0 := by
  simp [Num32.satTrunc32, h]

/-- Settles O11: `lt` follows the exact values through the order of the numbers; the conversions by their lemmas. -/
theorem comparisonAndConversionsAreExact : Obligations.ComparisonAndConversionsAreExact :=
  ⟨fun _ _ => Num32.lt_iff_numValue, fun _ => Num32.lt_infinities, fun _ _ => Num32.lt_of_isNaN,
    fun x => ⟨roundRatio x.natAbs 1, rfl, rfl, Num32.ofInt_exact, Num32.isInf_ofInt_iff x⟩,
    fun _ h => ⟨Num32.truncInt_of_nonneg, Num32.truncInt_of_nonpos, Num32.toInt_satTrunc32 h⟩,
    fun _ => Num32.satTrunc32_of_isNaN, by decide, by decide⟩

/-! ## The clamp -/

/-- What `clampNum` compares under binary32. -/
theorem Num32.clampNum_eq (v lim : Num32) : Num32.ops.clampNum v lim =
    if Num32.lt (if Num32.lt lim v then lim else v) (Num32.neg lim) then Num32.neg lim
    else if Num32.lt lim v then lim else v := rfl

theorem Num32.clampNum_of_within {v lim : Num32}
    (hi : Num32.lt lim v = false) (lo : Num32.lt v (Num32.neg lim) = false) :
    Num32.ops.clampNum v lim = v := by
  simp [Num32.clampNum_eq, hi, lo]

section
variable {v m : Num32} (hm : isFinite m = true)
include hm

theorem numValue_clampNum (hv : isFinite v = true) : numValue (Num32.ops.clampNum v (Num32.abs m)) =
    max (-|numValue m|) (min (numValue v) |numValue m|) := by
  have hl : isFinite (Num32.abs m) = true := by rw [isFinite_abs, hm]
  have hn : isFinite (Num32.neg (Num32.abs m)) = true := by rw [isFinite_neg, hl]
  rw [Num32.clampNum_eq]
  by_cases hhi : Num32.lt (Num32.abs m) v = true
  · have hlt := (Num32.lt_iff_numValue hl hv).mp hhi
    have hno : ¬ Num32.lt (Num32.abs m) (Num32.neg (Num32.abs m)) = true := by
      rw [Num32.lt_iff_numValue hl hn]
      simp
    rw [numValue_abs] at hlt
    rw [if_pos hhi, if_neg hno, numValue_abs, min_eq_right hlt.le, max_eq_right (neg_le_self (abs_nonneg _))]
  · have hle := mt (Num32.lt_iff_numValue hl hv).mpr hhi
    rw [numValue_abs, not_lt] at hle
    rw [if_neg hhi, min_eq_left hle]
    by_cases hlo : Num32.lt v (Num32.neg (Num32.abs m)) = true
    · have hlt := (Num32.lt_iff_numValue hv hn).mp hlo
      rw [numValue_neg, numValue_abs] at hlt
      rw [if_pos hlo, numValue_neg, numValue_abs, max_eq_left hlt.le]
    · have hge := mt (Num32.lt_iff_numValue hv hn).mpr hlo
      rw [numValue_neg, numValue_abs, not_lt] at hge
      rw [if_neg hlo, max_eq_right hge]

theorem Num32.clampNum_of_abs_le (hv : isFinite v = true) (h : |numValue v| ≤ |numValue m|) :
    Num32.ops.clampNum v (Num32.abs m) = v := by
  have hl : isFinite (Num32.abs m) = true := by rw [isFinite_abs, hm]
  have hn : isFinite (Num32.neg (Num32.abs m)) = true := by rw [isFinite_neg, hl]
  obtain ⟨hlo, hhi⟩ := abs_le.mp h
  apply Num32.clampNum_of_within
  · rw [← Bool.not_eq_true, Num32.lt_iff_numValue hl hv, numValue_abs]
    exact not_lt.mpr hhi
  · rw [← Bool.not_eq_true, Num32.lt_iff_numValue hv hn, numValue_neg, numValue_abs]
    exact not_lt.mpr hlo

theorem Num32.clampNum_of_isInf (hv : v.isInf = true) : Num32.ops.clampNum v (Num32.abs m) =
    if v.sign then Num32.neg (Num32.abs m) else Num32.abs m := by
  have hl : (Num32.abs m).isNaN = false := isNaN_of_isFinite (by rw [isFinite_abs, hm])
  have hn : (Num32.neg (Num32.abs m)).isNaN = false := by rw [Num32.isNaN_neg, hl]
  have hvn := Num32.isNaN_of_isInf hv
  have hmlt := (isFinite_iff m).mp hm
  have hkey := v.orderKey_eq
  rw [v.isInf_iff.mp hv] at hkey
  rw [Num32.clampNum_eq]
  cases hs : v.sign
  · have hhi : Num32.lt (Num32.abs m) v = true := by
      rw [Num32.lt_iff_orderKey hl hvn, Num32.orderKey_abs, hkey, hs]
      simpa using hmlt
    have hno : ¬ Num32.lt (Num32.abs m) (Num32.neg (Num32.abs m)) = true := by
      rw [Num32.lt_iff_orderKey hl hn, Num32.orderKey_neg, Num32.orderKey_abs]
      omega
    rw [if_pos hhi, if_neg hno]
    rfl
  · have hhi : ¬ Num32.lt (Num32.abs m) v = true := by
      rw [Num32.lt_iff_orderKey hl hvn, Num32.orderKey_abs, hkey, hs, if_pos rfl]
      omega
    have hlo : Num32.lt v (Num32.neg (Num32.abs m)) = true := by
      rw [Num32.lt_iff_orderKey hvn hn, Num32.orderKey_neg, Num32.orderKey_abs, hkey, hs, if_pos rfl]
      omega
    rw [if_neg hhi, if_pos hlo]
    rfl

end

/-- Nothing is beyond an infinite limit, and nothing compares with a NaN. -/
theorem Num32.clampNum_of_no_bound {v m : Num32} (h : m.isNaN = true ∨ m.isInf = true ∨ v.isNaN = true) :
    Num32.ops.clampNum v (Num32.abs m) = v := by
  by_cases hnan : m.isNaN = true ∨ v.isNaN = true
  · exact Num32.clampNum_of_within (Num32.lt_of_isNaN (by simpa [Num32.abs_isNaN] using hnan))
      (Num32.lt_of_isNaN (by simpa [Num32.abs_isNaN] using hnan.symm))
  · obtain ⟨hm, hv⟩ := not_or.mp hnan
    have hinf : m.mag = infBits := m.isInf_iff.mp ((h.resolve_left hm).resolve_right hv)
    have hlim : Num32.abs m = Num32.pack false infBits :=
      Num32.ext_sign_mag (by rw [Num32.sign_abs, Num32.sign_pack _ le_rfl])
        (by rw [Num32.mag_abs, hinf, Num32.mag_pack _ le_rfl])
    have hneg : Num32.neg (Num32.abs m) = Num32.pack true infBits := by
      rw [hlim]
      decide
    obtain ⟨-, -, hhi, hlo⟩ := Num32.lt_infinities (Bool.not_eq_true _ ▸ hv)
    exact Num32.clampNum_of_within (by rw [hlim, hhi]) (by rw [hneg, hlo])

/-- Settles O12: the sign rules of `neg` and `abs`, and the clamp by cases of value and limit. -/
theorem clampAndMagnitude : Obligations.ClampAndMagnitude := by
  refine ⟨fun a => ⟨Num32.abs_toNat a, Num32.mag_neg a, Num32.sign_neg a, fun _ => numValue_abs a⟩, ?_⟩
  intro s v m hnum
  have hops : s.num = Num32.ops := Config.arith_binary32 hnum
  rw [hops]
  exact ⟨rfl, fun hm hv => ⟨numValue_clampNum hm hv, Num32.clampNum_of_abs_le hm hv⟩, Num32.clampNum_of_isInf,
    Num32.clampNum_of_no_bound⟩

end Sys2Proof
end

section
/-! The tracker: 41_tracker.md R121 to R125, at every counter and accumulator width. -/

namespace Sys2Proof
open Sys2Proof.Machine

/-! ## Movements of a counter -/

theorem fitsS_iff_smallMove (w : Nat) (x : ℤ) : fitsS w x = true ↔ smallMove w x := by
  simp only [fitsS, smallMove, Bool.and_eq_true, decide_eq_true_eq]

theorem Config.wf_widths {c : Config} (h : c.wf = true) : 1 ≤ c.cntW ∧ 1 ≤ c.accW := by
  simp only [Config.wf, Bool.and_eq_true, decide_eq_true_eq] at h
  omega

/-- The delta is in the half range, and congruent to the difference of the samples. -/
theorem rawDelta_spec {c : Config} (h : c.wf = true) (new last : Count) :
    smallMove c.cntW (rawDelta c new last) ∧ (2 : ℤ) ^ c.cntW ∣ (new : ℤ) - last - rawDelta c new last :=
  ⟨(fitsS_iff_smallMove _ _).mp (fitsS_wrapS (Config.wf_widths h).1 _), dvd_sub_wrapS _ _⟩

/-- Between two true positions the delta is the movement, wrapped to the counter's width. -/
theorem rawDelta_rawAt (c : Config) (x y : ℤ) :
    rawDelta c (rawAt c.cntW y) (rawAt c.cntW x) = wrapS c.cntW (y - x) := by
  have hraw (z : ℤ) : (rawAt c.cntW z : ℤ) = z % (2 ^ c.cntW : Nat) := by
    rw [rawAt, Int.toNat_of_nonneg (Int.emod_nonneg _ (by positivity))]
    push_cast
    rfl
  rw [rawDelta, hraw, hraw, wrapS, Int.emod_sub_bmod, Int.sub_emod_bmod, wrapS]

theorem rawDelta_of_smallMove {c : Config} {x y : ℤ} (h : smallMove c.cntW (y - x)) :
    rawDelta c (rawAt c.cntW y) (rawAt c.cntW x) = y - x := by
  rw [rawDelta_rawAt, wrapS_of_fitsS ((fitsS_iff_smallMove _ _).mpr h)]

/-! ## TRACK -/

theorem dvd_sub_wrapAcc (c : Config) (x : ℤ) : (2 : ℤ) ^ c.accW ∣ x - c.wrapAcc x := dvd_sub_wrapS _ _

theorem fitsS_wrapAcc {c : Config} (h : c.wf = true) (x : ℤ) : fitsS c.accW (c.wrapAcc x) = true :=
  fitsS_wrapS (Config.wf_widths h).2 x

theorem wrapAcc_wrapAcc (c : Config) (x : ℤ) : c.wrapAcc (c.wrapAcc x) = c.wrapAcc x := Int.bmod_bmod

/-- Settles O13: the two deltas of TRACK, each wrapped into its accumulator. -/
theorem trackAddsTheSignedDeltas : Obligations.TrackAddsTheSignedDeltas := by
  intro c f s hwf
  refine ⟨rawDelta s.cfg c s.trk.lastCmdRaw, rawDelta s.cfg f s.trk.lastFbRaw, rawDelta_spec hwf _ _,
    rawDelta_spec hwf _ _, fitsS_wrapAcc hwf _, fitsS_wrapAcc hwf _, dvd_sub_wrapAcc _ _, fun hoff => ?_, fun hon => ?_,
    rfl, rfl, rfl⟩
  · have hd : s.cmdDelta c = rawDelta s.cfg c s.trk.lastCmdRaw := by simp [State.cmdDelta, hoff]
    rw [← hd]
    exact dvd_sub_wrapAcc _ _
  · have hd : s.cmdDelta c = s.par.cmdMultiplier.toInt * rawDelta s.cfg c s.trk.lastCmdRaw := by
      simp [State.cmdDelta, hon]
    rw [← hd]
    exact dvd_sub_wrapAcc _ _

/-- The last samples are the raw counters at these true positions. -/
def SampledAt (p : ℤ × ℤ) (s : State) : Prop :=
  s.trk.lastCmdRaw = rawAt s.cfg.cntW p.1 ∧ s.trk.lastFbRaw = rawAt s.cfg.cntW p.2

theorem sampledAt_track (q : ℤ × ℤ) (s : State) :
    SampledAt q (s.track (rawAt s.cfg.cntW q.1) (rawAt s.cfg.cntW q.2)) := ⟨rfl, rfl⟩

theorem sampledAt_arm (p : ℤ × ℤ) (s : State) :
    SampledAt p (s.arm (rawAt s.cfg.cntW p.1) (rawAt s.cfg.cntW p.2)) := ⟨rfl, rfl⟩

/-- TRACK after a small movement adds the movement. -/
theorem track_of_smallMove {p q : ℤ × ℤ} {s : State} (hopt : s.cfg.optCmdMult = false) (hs : SampledAt p s)
    (hc : smallMove s.cfg.cntW (q.1 - p.1)) (hf : smallMove s.cfg.cntW (q.2 - p.2)) :
    (s.track (rawAt s.cfg.cntW q.1) (rawAt s.cfg.cntW q.2)).ctl.cmdAcc = s.cfg.wrapAcc (s.ctl.cmdAcc + (q.1 - p.1)) ∧
    (s.track (rawAt s.cfg.cntW q.1) (rawAt s.cfg.cntW q.2)).ctl.fbAcc = s.cfg.wrapAcc (s.ctl.fbAcc + (q.2 - p.2)) := by
  obtain ⟨hlc, hlf⟩ := hs
  have hd : s.cmdDelta (rawAt s.cfg.cntW q.1) = q.1 - p.1 := by
    rw [State.cmdDelta, hopt, hlc, rawDelta_of_smallMove hc]
    rfl
  rw [State.track_ctl_cmdAcc, State.track_ctl_fbAcc, hd, hlf, rawDelta_of_smallMove hf]
  exact ⟨rfl, rfl⟩

/-- The wraps of two movements in a row are one wrap of their sum. -/
theorem wrapAcc_add_movements (c : Config) (acc x y z : ℤ) :
    c.wrapAcc (c.wrapAcc (acc + (y - x)) + (z - y)) = c.wrapAcc (acc + (z - x)) := by
  rw [Config.wrapAcc, Config.wrapAcc, wrapS_add_left, Config.wrapAcc]
  congr 1
  ring

/-- TRACK at every one of a sequence of small movements adds up to the whole distance. -/
theorem trackAll_of_smallMoves (p : ℤ × ℤ) (ps : List (ℤ × ℤ)) (s : State) (hopt : s.cfg.optCmdMult = false)
    (hmoves : smallMoves s.cfg.cntW p ps) (hs : SampledAt p s) (hcmd : s.cfg.wrapAcc s.ctl.cmdAcc = s.ctl.cmdAcc)
    (hfb : s.cfg.wrapAcc s.ctl.fbAcc = s.ctl.fbAcc) :
    (trackAll ps s).ctl.cmdAcc = s.cfg.wrapAcc (s.ctl.cmdAcc + (((p :: ps).getLast (by simp)).1 - p.1)) ∧
    (trackAll ps s).ctl.fbAcc = s.cfg.wrapAcc (s.ctl.fbAcc + (((p :: ps).getLast (by simp)).2 - p.2)) := by
  induction ps generalizing p s with
  | nil => simp [trackAll, hcmd, hfb]
  | cons q qs ih =>
    obtain ⟨hc, hf, hrest⟩ := hmoves
    obtain ⟨hcmd', hfb'⟩ := track_of_smallMove hopt hs hc hf
    have := ih q (s.track (rawAt s.cfg.cntW q.1) (rawAt s.cfg.cntW q.2)) hopt hrest (sampledAt_track q s)
      (by rw [hcmd']; exact wrapAcc_wrapAcc _ _) (by rw [hfb']; exact wrapAcc_wrapAcc _ _)
    rw [hcmd', hfb', State.track_cfg, wrapAcc_add_movements, wrapAcc_add_movements] at this
    rw [trackAll, List.getLast_cons_cons]
    exact this

/-- The accumulators of a state in its widths are wrapped. -/
theorem wrapAcc_of_inWidths {s : State} (h : s.inWidths = true) :
    s.cfg.wrapAcc s.ctl.cmdAcc = s.ctl.cmdAcc ∧ s.cfg.wrapAcc s.ctl.fbAcc = s.ctl.fbAcc := by
  simp only [State.inWidths, List.all_cons, Bool.and_eq_true] at h
  obtain ⟨⟨⟨hcmd, hfb, -⟩, -⟩, -⟩ := h
  exact ⟨wrapS_of_fitsS hcmd, wrapS_of_fitsS hfb⟩

/-- Settles O14, by induction on the positions. -/
theorem trackingGuarantee : Obligations.TrackingGuarantee := by
  intro p ps s _ hopt hmoves
  refine ⟨fun hlc hlf hin => ?_, ?_⟩
  · obtain ⟨hcmd, hfb⟩ := wrapAcc_of_inWidths hin
    exact trackAll_of_smallMoves p ps s hopt hmoves ⟨hlc, hlf⟩ hcmd hfb
  · have h := trackAll_of_smallMoves p ps (s.arm (rawAt s.cfg.cntW p.1) (rawAt s.cfg.cntW p.2)) hopt hmoves
      (sampledAt_arm p s) (wrapS_zero _) (wrapS_zero _)
    simpa using h

/-- Settles O15: the delta is the movement wrapped, and TRACK touches no flag and no record. -/
theorem largeMovementsAlias : Obligations.LargeMovementsAlias := by
  refine ⟨fun c x m hwf => ⟨_, rfl, ?_⟩, fun c f s => ⟨rfl, rfl, rfl, rfl⟩⟩
  rw [rawDelta_rawAt, add_sub_cancel_left]
  have hsmall : smallMove c.cntW (wrapS c.cntW m) :=
    (fitsS_iff_smallMove _ _).mp (fitsS_wrapS (Config.wf_widths hwf).1 m)
  have hdvd := dvd_sub_wrapS c.cntW m
  refine ⟨hsmall, hdvd, fun h => wrapS_of_fitsS ((fitsS_iff_smallMove _ _).mpr h),
    fun h he => h (he ▸ hsmall), ?_⟩
  intro hw
  rw [hw] at hsmall hdvd ⊢
  simp only [smallMove] at hsmall
  exact ⟨hdvd, fun hm => by omega⟩

end Sys2Proof
end

section
/-! FG's turn: the micro-steps of the commands, each named once, and what a micro-step of FG may write
(46_commands.md R240, 10_state.md R31, 60_exceptions.md R318). -/

namespace Sys2Proof.Machine

/-! ## The micro-steps of the commands -/

/-- The micro-steps that the commands are made of, each with the command it belongs to where it writes a register of
`S`. `microStep_of_mem` ties it to the bodies. -/
inductive MicroStep (n : NumOps) : Instr → (State → State) → Prop where
  | writeFloat {i : Instr} (r : FloatReg) (d : Decimal) : MicroStep n i (State.writeFloat r (n.decToNum d))
  | writeMultiplier {i : Instr} (d : Decimal) : MicroStep n i (State.writeMultiplier (clampOperand d 1 22))
  | writeTicks {i : Instr} (d : Decimal) : MicroStep n i (State.writeTicks (clampOperand d 1 100))
  | writeChecksum {i : Instr} : MicroStep n i State.writeChecksum
  | saveImage {i : Instr} : MicroStep n i State.saveImage
  | writeJerk {i : Instr} (d : Decimal) : MicroStep n i (State.writeJerk (n.decToNum d))
  | sampleFeedback {i : Instr} : MicroStep n i State.sampleFeedback
  | emit {i : Instr} (ev : State → TxEvent) : MicroStep n i (fun s => s.emit (ev s))
  | emitHelp {i : Instr} (first : Option Byte) : MicroStep n i (State.emitHelp first)
  | lineReset {i : Instr} : MicroStep n i State.lineReset
  | zeroIntegral (q : Option Decimal) : MicroStep n (.seti q) State.zeroIntegral
  | ofStat {f : State → State} (h : f ∈ statSpan) : MicroStep n .stat f
  | ofZero {f : State → State} (h : f ∈ zeroSpan) : MicroStep n .zero f

theorem microStep_emitDump (n : NumOps) (i : Instr) : MicroStep n i State.emitDump := .emit fun s => .dump s.par

theorem microStep_epilogue (n : NumOps) (i : Instr) : ∀ f ∈ epilogue i, MicroStep n i f := by
  have hend : ∀ f ∈ [State.lineReset, State.emit .prompt], MicroStep n i f := by
    simpa using ⟨MicroStep.lineReset, MicroStep.emit fun _ => .prompt⟩
  unfold epilogue
  split
  · simpa using ⟨microStep_emitDump n i, by simpa using hend⟩
  · exact hend

theorem microStep_setReg (n : NumOps) (i : Instr) (r : FloatReg) (q : Option Decimal) :
    ∀ f ∈ (setReg n r q).span ++ (setReg n r q).rest, MicroStep n i f := by
  cases q with
  | none => simp [setReg]
  | some d => simpa [setReg] using ⟨MicroStep.writeFloat r d, MicroStep.writeChecksum, MicroStep.saveImage⟩

theorem microStep_setInt {n : NumOps} {i : Instr} {write : Half → State → State} {lo hi : Int}
    (hw : ∀ d, MicroStep n i (write (clampOperand d lo hi))) (q : Option Decimal) :
    ∀ f ∈ (setInt write lo hi q).span ++ (setInt write lo hi q).rest, MicroStep n i f := by
  cases q with
  | none => simp [setInt]
  | some d => simpa [setInt] using ⟨hw d, MicroStep.writeChecksum, MicroStep.saveImage⟩

theorem microStep_body (n : NumOps) (i : Instr) :
    ∀ f ∈ (Instr.body n i).span ++ (Instr.body n i).rest, MicroStep n i f := by
  cases i with
  | setp q => exact microStep_setReg n _ .pgain q
  | setd q => exact microStep_setReg n _ .dgain q
  | setff0 q => exact microStep_setReg n _ .ff0gain q
  | setff1 q => exact microStep_setReg n _ .ff1gain q
  | setb q => exact microStep_setReg n _ .deadband q
  | setm q => exact microStep_setReg n _ .maxOutput q
  | setf q => exact microStep_setReg n _ .maxError q
  | setx q => exact microStep_setInt .writeMultiplier q
  | sett q => exact microStep_setInt .writeTicks q
  | seti q =>
    cases q with
    | none => simp [Instr.body, setiBody]
    | some d =>
      simpa [Instr.body, setiBody] using ⟨MicroStep.zeroIntegral (some d), MicroStep.writeFloat .igain d,
        MicroStep.writeChecksum, MicroStep.saveImage⟩
  | setj q =>
    cases q with
    | none => simp [Instr.body, setjBody]
    | some d => simpa [Instr.body, setjBody] using MicroStep.writeJerk d
  | rdfb => simpa [Instr.body] using ⟨MicroStep.sampleFeedback, MicroStep.emit fun s => .feedback s.fg.fbSample⟩
  | list => simpa [Instr.body] using microStep_emitDump n .list
  | stat =>
    have hemit : MicroStep n .stat State.emitStat := .emit fun _ => .stat _ _ _ _ _ _ _
    exact List.forall_mem_append.mpr ⟨fun f hf => .ofStat hf, by simpa [Instr.body] using hemit⟩
  | zero => exact List.forall_mem_append.mpr ⟨fun f hf => .ofZero hf, by simp [Instr.body]⟩
  | help first => simpa [Instr.body] using MicroStep.emitHelp first

/-- What every micro-step of a command keeps, a call of the command keeps, up to FG's phase and decoded line; FG then
stands inside the command or at the jerk test. -/
theorem exec_induct {P : State → Prop} {i : Instr} {s t : State} (h : exec i s = .next t) (hs : P s)
    (hstep : ∀ f, MicroStep s.num i f → ∀ u, P u → P (f u)) :
    ∃ u p j, P u ∧ t = u.withProgress p j ∧ (p = .jerkTest ∨ ∃ k, p = .command k) := by
  rw [exec_eq] at h
  have hmem : ∀ f ∈ (Instr.body s.num i).span ++ ((Instr.body s.num i).rest ++ epilogue i),
      MicroStep s.num i f := by
    rw [← List.append_assoc]
    exact List.forall_mem_append.mpr ⟨microStep_body s.num i, microStep_epilogue s.num i⟩
  obtain ⟨u, hu, ⟨n, k, rfl⟩ | rfl⟩ := runCommand_induct h (fun f hf => hstep f (hmem f hf)) hs
  · refine ⟨u, _, i, hu, rfl, ?_⟩
    split
    · exact .inr ⟨_, rfl⟩
    · exact .inl rfl
  · exact ⟨u, .jerkTest, u.fg.instr, hu, rfl, .inl rfl⟩

/-- Every command answers a next state. -/
theorem exec_next (i : Instr) (s : State) : ∃ t, exec i s = .next t := by
  rw [exec_eq]
  rcases runCommand_cases i (Instr.body s.num i) s with ⟨f, -, h⟩ | ⟨-, h⟩
  · exact ⟨_, h⟩
  · exact ⟨_, h⟩

/-! ## Turns -/

theorem State.turn_eq_take {e : Event} (h : e ≠ .fg) (s : State) : s.turn e = s.take e := if_neg h

theorem State.turn_fg_halted {s : State} (h : s.halted = true) : s.turn .fg = .next s := by simp [State.turn, h]

theorem State.turn_fg_running {s : State} (h : s.halted = false) : s.turn .fg = fgStep s := by simp [State.turn, h]

theorem fgStep_cases (s : State) :
    (∃ i, s.fetch = some i ∧ fgStep s = exec i s) ∨ (s.fetch = none ∧ fgStep s = .next s.supervise) := by
  cases h : s.fetch with
  | some i => exact .inl ⟨i, rfl, by simp only [fgStep, h]⟩
  | none => exact .inr ⟨rfl, by simp only [fgStep, h]⟩

/-- FG's turn: nothing in the halt, else a micro-step of a command or of the program outside the commands. -/
theorem State.turn_fg_cases {s t : State} (h : s.turn .fg = .next t) :
    t = s ∨ (s.halted = false ∧ ∃ i, s.fetch = some i ∧ exec i s = .next t) ∨
      (s.halted = false ∧ s.fetch = none ∧ t = s.supervise) := by
  by_cases hh : s.halted = true
  · rw [State.turn_fg_halted hh] at h
    exact .inl (Host.Outcome.next.inj h).symm
  · rw [Bool.not_eq_true] at hh
    rw [State.turn_fg_running hh] at h
    rcases fgStep_cases s with ⟨i, hi, he⟩ | ⟨hn, he⟩
    · exact .inr (.inl ⟨hh, i, hi, he ▸ h⟩)
    · exact .inr (.inr ⟨hh, hn, (Host.Outcome.next.inj (he ▸ h)).symm⟩)

theorem fgStep_next (s : State) : ∃ t, fgStep s = .next t := by
  rcases fgStep_cases s with ⟨i, -, h⟩ | ⟨-, h⟩
  · exact h ▸ exec_next i s
  · exact ⟨_, h⟩

/-- A line taken: what a next state tells. -/
theorem State.deliverLine_next {s t : State} {bytes : List Byte} (h : s.deliverLine bytes = .next t) :
    t = s ∨ (bytes.length ≤ s.cfg.lineMax ∧ t = { s with lineBuf := bytes, lineReady := true }) := by
  unfold State.deliverLine at h
  split at h
  · exact .inl (Host.Outcome.next.inj h).symm
  split at h
  · cases h
  split at h
  · cases h
  · next hlen => exact .inr ⟨Nat.le_of_not_lt hlen, (Host.Outcome.next.inj h).symm⟩

/-- Settles O55, by cases on the event and along the conditions of the delivery. -/
theorem onlyLinesAreRefused : Obligations.OnlyLinesAreRefused := by
  refine ⟨fun s e he => ?_, fun s bytes => ?_⟩
  · cases e with
    | line bytes => exact absurd rfl (he bytes)
    | fg =>
      by_cases hh : s.halted = true
      · exact ⟨s, State.turn_fg_halted hh⟩
      · rw [State.turn_fg_running (by simpa using hh)]
        exact fgStep_next s
    | _ => exact ⟨_, rfl⟩
  · have hturn : s.turn (.line bytes) = s.deliverLine bytes := rfl
    rw [hturn, State.deliverLine]
    refine ⟨fun hh => by simp [hh], fun hh hr => by simp [hh, hr], fun hh hr hl => by simp [hh, hr, hl],
      fun hh hr hl => ?_⟩
    have hfits : ¬ s.cfg.lineMax < bytes.length := Nat.not_lt.mpr hl
    simp [hh, hr, hfits]

end Sys2Proof.Machine
end

section
/-! What a micro-step of FG, a secondary tick and a tick may write (10_state.md R31, 60_exceptions.md R315, R318). -/

namespace Sys2Proof.Machine

/-! ## What a command may write -/

/-- What micro-steps of the command `i` may have written: nothing outside the command frame, of `S` a zero in the
registers that 10_state.md R31 gives to `i`, and `L.ready` only cleared. -/
structure CommandWrites (i : Instr) (s t : State) : Prop where
  frame : CommandFrame s t
  ready : t.lineReady = true → s.lineReady = true
  errorIntegral : t.ctl.errorIntegral = s.ctl.errorIntegral ∨ (t.ctl.errorIntegral = 0 ∧ ∃ q, i = .seti q)
  cmdAcc : t.ctl.cmdAcc = s.ctl.cmdAcc ∨ (t.ctl.cmdAcc = 0 ∧ i = .zero)
  fbAcc : t.ctl.fbAcc = s.ctl.fbAcc ∨ (t.ctl.fbAcc = 0 ∧ i = .zero)
  error : t.ctl.error = s.ctl.error ∨ (t.ctl.error = 0 ∧ i = .zero)
  maxObservedError : t.ctl.maxObservedError = s.ctl.maxObservedError ∨ (t.ctl.maxObservedError = 0 ∧ i = .stat)

/-- A register kept or zeroed, and then again kept or zeroed. -/
theorem kept_or_zeroed_trans {α : Type} {a b c z : α} {p : Prop} (h1 : b = a ∨ (b = z ∧ p))
    (h2 : c = b ∨ (c = z ∧ p)) : c = a ∨ (c = z ∧ p) := by
  rcases h2 with rfl | h2
  · exact h1
  · exact .inr h2

theorem CommandFrame.refl (s : State) : CommandFrame s s := by constructor <;> rfl

theorem CommandFrame.trans {s t u : State} (h1 : CommandFrame s t) (h2 : CommandFrame t u) : CommandFrame s u where
  cfg := h2.cfg.trans h1.cfg
  trk := h2.trk.trans h1.trk
  jI := h2.jI.trans h1.jI
  readValue := h2.readValue.trans h1.readValue
  lvl := h2.lvl.trans h1.lvl
  img := h2.img.trans h1.img
  cfgMissing := h2.cfgMissing.trans h1.cfgMissing
  delayCnt := h2.delayCnt.trans h1.delayCnt
  lineBuf := h2.lineBuf.trans h1.lineBuf
  ind := h2.ind.trans h1.ind
  isrOn := h2.isrOn.trans h1.isrOn
  halted := h2.halted.trans h1.halted
  pwmPos := h2.pwmPos.trans h1.pwmPos
  pwmNeg := h2.pwmNeg.trans h1.pwmNeg
  dutyTrace := h2.dutyTrace.trans h1.dutyTrace
  cmdCnt := h2.cmdCnt.trans h1.cmdCnt
  fbCnt := h2.fbCnt.trans h1.fbCnt
  enIn := h2.enIn.trans h1.enIn
  script := h2.script.trans h1.script
  prevCommand := h2.prevCommand.trans h1.prevCommand
  prevError := h2.prevError.trans h1.prevError
  errorDerivative := h2.errorDerivative.trans h1.errorDerivative
  commandDerivative := h2.commandDerivative.trans h1.commandDerivative
  output := h2.output.trans h1.output
  enabled := h2.enabled.trans h1.enabled
  inLimit := h2.inLimit.trans h1.inLimit
  fault := h2.fault.trans h1.fault

theorem CommandWrites.of_ctl_eq {i : Instr} {s t : State} (hframe : CommandFrame s t) (hctl : t.ctl = s.ctl)
    (hready : t.lineReady = true → s.lineReady = true) : CommandWrites i s t where
  frame := hframe
  ready := hready
  errorIntegral := .inl (congrArg _ hctl)
  cmdAcc := .inl (congrArg _ hctl)
  fbAcc := .inl (congrArg _ hctl)
  error := .inl (congrArg _ hctl)
  maxObservedError := .inl (congrArg _ hctl)

theorem CommandWrites.refl (i : Instr) (s : State) : CommandWrites i s s := .of_ctl_eq (.refl s) rfl id

theorem CommandWrites.trans {i : Instr} {s t u : State} (h1 : CommandWrites i s t) (h2 : CommandWrites i t u) :
    CommandWrites i s u where
  frame := h1.frame.trans h2.frame
  ready := h1.ready ∘ h2.ready
  errorIntegral := kept_or_zeroed_trans h1.errorIntegral h2.errorIntegral
  cmdAcc := kept_or_zeroed_trans h1.cmdAcc h2.cmdAcc
  fbAcc := kept_or_zeroed_trans h1.fbAcc h2.fbAcc
  error := kept_or_zeroed_trans h1.error h2.error
  maxObservedError := kept_or_zeroed_trans h1.maxObservedError h2.maxObservedError

theorem MicroStep.frame {n : NumOps} {i : Instr} {f : State → State} (h : MicroStep n i f) (s : State) :
    CommandFrame s (f s) := by
  cases h with
  | ofStat hf =>
    simp only [statSpan, List.mem_cons, List.not_mem_nil, or_false] at hf
    rcases hf with rfl | rfl | rfl | rfl | rfl | rfl | rfl | rfl <;> constructor <;> rfl
  | ofZero hf =>
    simp only [zeroSpan, List.mem_cons, List.not_mem_nil, or_false] at hf
    rcases hf with rfl | rfl | rfl <;> constructor <;> rfl
  | _ => constructor <;> rfl

theorem MicroStep.writes {n : NumOps} {i : Instr} {f : State → State} (h : MicroStep n i f) (s : State) :
    CommandWrites i s (f s) := by
  have hframe := h.frame s
  cases h with
  | lineReset => exact .of_ctl_eq hframe rfl (by simp)
  | zeroIntegral q => exact ⟨hframe, id, .inr ⟨rfl, q, rfl⟩, .inl rfl, .inl rfl, .inl rfl, .inl rfl⟩
  | ofStat hf =>
    simp only [statSpan, List.mem_cons, List.not_mem_nil, or_false] at hf
    rcases hf with rfl | rfl | rfl | rfl | rfl | rfl | rfl | rfl
    case inr.inr.inr.inr.inr.inr.inr =>
      exact ⟨hframe, id, .inl rfl, .inl rfl, .inl rfl, .inl rfl, .inr ⟨rfl, rfl⟩⟩
    all_goals exact .of_ctl_eq hframe rfl id
  | ofZero hf =>
    simp only [zeroSpan, List.mem_cons, List.not_mem_nil, or_false] at hf
    rcases hf with rfl | rfl | rfl
    · exact ⟨hframe, id, .inl rfl, .inr ⟨rfl, rfl⟩, .inl rfl, .inl rfl, .inl rfl⟩
    · exact ⟨hframe, id, .inl rfl, .inl rfl, .inr ⟨rfl, rfl⟩, .inl rfl, .inl rfl⟩
    · exact ⟨hframe, id, .inl rfl, .inl rfl, .inl rfl, .inr ⟨rfl, rfl⟩, .inl rfl⟩
  | _ => exact .of_ctl_eq hframe rfl id

theorem commandWrites_withProgress (i : Instr) (s : State) (p : Phase) (j : Instr) :
    CommandWrites i s (s.withProgress p j) :=
  .of_ctl_eq (by constructor <;> rfl) rfl id

theorem exec_writes {i : Instr} {s t : State} (h : exec i s = .next t) : CommandWrites i s t := by
  obtain ⟨u, p, j, hu, rfl, -⟩ := exec_induct (P := CommandWrites i s) h (.refl i s) fun f hf v hv =>
    hv.trans (hf.writes v)
  exact hu.trans (commandWrites_withProgress i u p j)

/-! ## What the foreground program writes -/

/-- The program outside the commands writes `P`, FG's own registers, the indicator, the text and the log, and of `S`
only `cmdAcc` and `enabled`. -/
theorem State.supervise_eq (s : State) :
    s.supervise = { s with
      par := s.supervise.par
      ctl := { s.ctl with cmdAcc := s.supervise.ctl.cmdAcc, enabled := s.supervise.ctl.enabled }
      fg := s.supervise.fg, delayCnt := s.supervise.delayCnt, ind := s.supervise.ind, isrOn := s.supervise.isrOn
      tx := s.supervise.tx, xlog := s.supervise.xlog } := by
  cases h : s.fg.phase with
  | delayTest d =>
    simp only [State.supervise, h]
    split <;> rfl
  | jerkTest =>
    simp only [State.supervise, h, State.jerkTest]
    split <;> rfl
  | jerkWrite sub => cases sub <;> simp only [State.supervise, h] <;> rfl
  | _ => simp only [State.supervise, h] <;> rfl

/-- Outside the commands only the jerk test writes the command accumulator. -/
theorem State.supervise_cmdAcc {s : State} (h : s.supervise.ctl.cmdAcc ≠ s.ctl.cmdAcc) :
    ∃ sub, s.fg.phase = .jerkWrite sub := by
  cases hp : s.fg.phase with
  | jerkWrite sub => exact ⟨sub, rfl⟩
  | delayTest d =>
    refine absurd ?_ h
    simp only [State.supervise, hp]
    split <;> rfl
  | jerkTest =>
    refine absurd ?_ h
    simp only [State.supervise, hp, State.jerkTest]
    split <;> rfl
  | _ => exact absurd (by simp only [State.supervise, hp] <;> rfl) h

/-- No FG micro-step writes outside these registers, nor sets `L.ready`. -/
theorem State.turn_fg_frame {s t : State} (h : s.turn .fg = .next t) :
    t = { s with par := t.par, jerk := t.jerk, ctl := t.ctl, fg := t.fg, delayCnt := t.delayCnt,
                 lineReady := t.lineReady, ind := t.ind, isrOn := t.isrOn, tx := t.tx, xlog := t.xlog,
                 nvm := t.nvm } ∧
    (t.lineReady = true → s.lineReady = true) ∧
    t.ctl = { s.ctl with cmdAcc := t.ctl.cmdAcc, fbAcc := t.ctl.fbAcc, error := t.ctl.error,
                         errorIntegral := t.ctl.errorIntegral, maxObservedError := t.ctl.maxObservedError,
                         enabled := t.ctl.enabled } := by
  rcases State.turn_fg_cases h with rfl | ⟨-, i, -, he⟩ | ⟨-, -, rfl⟩
  · exact ⟨rfl, id, rfl⟩
  · have hw := exec_writes he
    refine ⟨?_, hw.ready, ?_⟩
    · ext1 <;> simp [hw.frame.cfg, hw.frame.trk, hw.frame.lineBuf, hw.frame.halted, hw.frame.pwmPos, hw.frame.pwmNeg,
        hw.frame.dutyTrace, hw.frame.cmdCnt, hw.frame.fbCnt, hw.frame.enIn, hw.frame.script]
    · ext1 <;> simp [hw.frame.prevCommand, hw.frame.prevError, hw.frame.errorDerivative, hw.frame.commandDerivative,
        hw.frame.output, hw.frame.inLimit, hw.frame.fault]
  · rw [State.supervise_eq]
    exact ⟨rfl, id, rfl⟩

/-- The five places of 10_state.md R31 where FG writes a register of `S` other than `enabled`. -/
theorem State.turn_fg_places {s t : State} (h : s.turn .fg = .next t) :
    (t.ctl.errorIntegral ≠ s.ctl.errorIntegral → t.ctl.errorIntegral = 0 ∧ ∃ q, s.fetch = some (.seti q)) ∧
    (t.ctl.fbAcc ≠ s.ctl.fbAcc → t.ctl.fbAcc = 0 ∧ s.fetch = some .zero) ∧
    (t.ctl.error ≠ s.ctl.error → t.ctl.error = 0 ∧ s.fetch = some .zero) ∧
    (t.ctl.maxObservedError ≠ s.ctl.maxObservedError → t.ctl.maxObservedError = 0 ∧ s.fetch = some .stat) ∧
    (t.ctl.cmdAcc ≠ s.ctl.cmdAcc →
      (t.ctl.cmdAcc = 0 ∧ s.fetch = some .zero) ∨ ∃ sub, s.fg.phase = .jerkWrite sub) := by
  rcases State.turn_fg_cases h with rfl | ⟨-, i, hi, he⟩ | ⟨-, -, rfl⟩
  · exact ⟨absurd rfl, absurd rfl, absurd rfl, absurd rfl, absurd rfl⟩
  · have hw := exec_writes he
    rw [hi]
    simp only [Option.some.injEq]
    exact ⟨hw.errorIntegral.resolve_left, hw.fbAcc.resolve_left, hw.error.resolve_left,
      hw.maxObservedError.resolve_left, fun hne => .inl (hw.cmdAcc.resolve_left hne)⟩
  · refine ⟨?_, ?_, ?_, ?_, fun hne => .inr (State.supervise_cmdAcc hne)⟩ <;>
      exact absurd (by rw [State.supervise_eq])

/-! ## What the interrupt steps write -/

theorem State.tick2_cases (s : State) :
    s.tick2 = s ∨ (0 < s.delayCnt ∧ s.tick2 = { s with delayCnt := s.delayCnt - 1 }) := by
  unfold State.tick2
  split
  · exact .inl rfl
  split
  · next hpos => exact .inr ⟨hpos, rfl⟩
  · exact .inl rfl

/-- A control cycle writes `S` but for `enabled`, `T` but for the count, the duty registers and the log. -/
theorem State.controlCycle_frame (s : State) :
    s.controlCycle = { s with
      ctl := s.controlCycle.ctl, trk := s.controlCycle.trk, pwmPos := s.controlCycle.pwmPos
      pwmNeg := s.controlCycle.pwmNeg, dutyTrace := s.controlCycle.dutyTrace, xlog := s.controlCycle.xlog } ∧
    s.controlCycle.ctl.enabled = s.ctl.enabled ∧ s.controlCycle.trk.cycleCount = s.trk.cycleCount := by
  obtain ⟨c, k, hedge, hen, hcount, -, -⟩ := s.edgeCheck_eq
  obtain ⟨c', x, hpid, hen', -⟩ := (s.edgeCheck.track s.cmdCnt s.fbCnt).pid_eq
  obtain ⟨p, n, w, hmap, -⟩ := (s.edgeCheck.track s.cmdCnt s.fbCnt).pid.map_eq s.ctl.enabled
  unfold State.controlCycle
  rw [hmap, hpid, hedge]
  rw [hedge] at hen'
  exact ⟨rfl, hen'.trans hen, hcount⟩

theorem State.tick_frame (s : State) :
    s.tick = { s with
      ctl := s.tick.ctl, trk := s.tick.trk, pwmPos := s.tick.pwmPos, pwmNeg := s.tick.pwmNeg
      dutyTrace := s.tick.dutyTrace, xlog := s.tick.xlog } ∧
    s.tick.ctl.enabled = s.ctl.enabled := by
  rcases s.tick_cases with ⟨-, h⟩ | ⟨-, -, -, h⟩ | ⟨-, -, -, h⟩
  · rw [h]
    exact ⟨rfl, rfl⟩
  · obtain ⟨hframe, hen, -⟩ := (s.setCycleCount 0).controlCycle_frame
    rw [h]
    exact ⟨hframe, hen⟩
  · rw [h]
    exact ⟨rfl, rfl⟩

/-- No turn but FG's and reset writes `P`. -/
theorem State.turn_par {s t : State} {e : Event} (h : s.turn e = .next t) (hfg : e ≠ .fg) (hreset : e ≠ .reset) :
    t.par = s.par := by
  rw [State.turn_eq_take hfg] at h
  cases e with
  | fg => exact absurd rfl hfg
  | reset => exact absurd rfl hreset
  | envFault =>
    cases h
    split <;> rfl
  | tick =>
    cases h
    rw [s.tick_frame.1]
  | tick2 =>
    cases h
    rcases s.tick2_cases with h | ⟨-, h⟩ <;> rw [h]
  | line bytes =>
    rcases State.deliverLine_next h with rfl | ⟨-, rfl⟩ <;> rfl
  | _ =>
    cases h
    rfl

/-- Settles O57, one agent at a time. -/
theorem writeOwnership : Obligations.WriteOwnership := by
  refine ⟨fun s t h => ?_, fun s t h => ?_, fun s t h => ?_, fun s t e h => State.turn_par h,
    fun s v b => ⟨rfl, rfl, rfl⟩⟩
  · cases h
    exact s.tick_frame
  · cases h
    rcases s.tick2_cases with h | ⟨hpos, h⟩
    · simp [h]
    · rw [h]
      exact ⟨rfl, by bv_omega⟩
  · obtain ⟨hframe, hready, hctl⟩ := State.turn_fg_frame h
    exact ⟨hframe, hready, hctl, State.turn_fg_places h⟩

end Sys2Proof.Machine
end

section
/-! The fault latch over every turn (10_state.md R32), and the registers that no tick of the reference behaviour reads
(10_state.md R25, R26, R27). -/

namespace Sys2Proof.Machine

/-! ## The fault latch -/

/-- The engine sets the latch, with its record, exactly where its own error exceeds the threshold. -/
theorem State.pid_latch (s : State) :
    (s.pid.ctl.fault = true ∧ s.pid.xlog = s.xlog ++ [.positionFault s.pid.ctl.error] ∧
      s.num.gt (s.num.ofInt s.pid.ctl.error.natAbs) s.faultThreshold = true) ∨ s.pid.ctl.fault = s.ctl.fault := by
  obtain ⟨c, hbody, -, -, -, -, -, hfault⟩ := s.pidBody_eq
  unfold State.pid
  rw [hbody]
  rcases State.pidFault_eq { s with ctl := c } with ⟨hcond, h⟩ | ⟨-, h⟩
  · rw [h]
    exact .inl ⟨rfl, rfl, hcond⟩
  · rw [h]
    exact .inr hfault

/-- A control cycle sets the latch by its fault check, clears it by the optional edge, or keeps it. -/
theorem State.controlCycle_latch (s : State) :
    (s.controlCycle.ctl.fault = true ∧ s.controlCycle.xlog = s.xlog ++ [.positionFault s.controlCycle.ctl.error] ∧
      s.num.gt (s.num.ofInt s.controlCycle.ctl.error.natAbs) s.faultThreshold = true) ∨
    s.controlCycle.ctl.fault = s.ctl.fault ∨
    (s.controlCycle.ctl.fault = false ∧ s.cfg.optFaultClearOnEnable = true ∧ s.ctl.enabled = true ∧
      s.trk.prevEnabled = false) := by
  obtain ⟨c, k, hedge, -, -, -, hfault⟩ := s.edgeCheck_eq
  obtain ⟨p, n, w, hmap, -⟩ := (s.edgeCheck.track s.cmdCnt s.fbCnt).pid.map_eq s.ctl.enabled
  have hlatch := (s.edgeCheck.track s.cmdCnt s.fbCnt).pid_latch
  unfold State.controlCycle
  rw [hmap]
  rw [hedge] at hlatch ⊢
  rcases hlatch with hset | hkept
  · exact .inl hset
  · right
    rcases hfault with heq | ⟨hclear, hedge⟩
    · exact .inl (hkept.trans heq)
    · exact .inr ⟨hkept.trans hclear, hedge⟩

/-- Only a tick and reset write the latch. -/
theorem State.turn_fault_eq {s t : State} {e : Event} (h : s.turn e = .next t) (htick : e ≠ .tick)
    (hreset : e ≠ .reset) : t.ctl.fault = s.ctl.fault := by
  cases e with
  | tick => exact absurd rfl htick
  | reset => exact absurd rfl hreset
  | fg => rw [(State.turn_fg_frame h).2.2]
  | envFault =>
    cases h
    split <;> rfl
  | tick2 =>
    cases h
    rcases s.tick2_cases with h | ⟨-, h⟩ <;> rw [h]
  | line bytes => rcases State.deliverLine_next h with rfl | ⟨-, rfl⟩ <;> rfl
  | _ =>
    cases h
    rfl

/-- A latch that is kept neither falls nor rises. -/
theorem no_edge_of_kept {a b : Bool} {p q : Prop} (h : b = a) :
    (a = true → b = false → p) ∧ (a = false → b = true → q) := by
  subst h
  cases b <;> simp

/-- Settles O18, by what a tick, a reset and every other turn do to the latch. -/
theorem faultLatchIsSticky : Obligations.FaultLatchIsSticky := by
  intro s t e h
  by_cases hreset : e = .reset
  · subst hreset
    cases h
    exact ⟨fun _ _ => .inl rfl, fun _ hset => Bool.noConfusion hset⟩
  by_cases htick : e = .tick
  · subst htick
    cases h
    rcases s.tick_cases with ⟨-, h⟩ | ⟨hh, hon, hgate, h⟩ | ⟨-, -, -, h⟩
    · exact no_edge_of_kept (by rw [h])
    · rw [h]
      rcases (s.setCycleCount 0).controlCycle_latch with ⟨hset, hrecord⟩ | hkept | ⟨hclear, hedge⟩
      · exact ⟨fun _ hfalse => Bool.noConfusion (hset.symm.trans hfalse),
          fun _ _ => ⟨rfl, hh, hon, hgate, hrecord⟩⟩
      · exact no_edge_of_kept hkept
      · exact ⟨fun _ _ => .inr ⟨rfl, hedge⟩, fun _ htrue => Bool.noConfusion (hclear.symm.trans htrue)⟩
    · exact no_edge_of_kept (by rw [h]; rfl)
  · exact no_edge_of_kept (State.turn_fault_eq h htick hreset)

/-! ## Registers that the reference tick does not read -/

/-- `s` with the registers that the reference tick does not read taken from `u`: the deadband, the integral and
derivative limits, the multiplier and the checksum. -/
def State.withUnused (u : Params) (s : State) : State :=
  { s with par := { s.par with
      deadband := u.deadband, maxIntegralError := u.maxIntegralError, maxDerivError := u.maxDerivError
      maxCmdDeriv := u.maxCmdDeriv, cmdMultiplier := u.cmdMultiplier, checksum := u.checksum } }

section
variable (u : Params) (s : State)

theorem State.errorUsed_withUnused (h : s.cfg.optDeadband = false) : (s.withUnused u).errorUsed = s.errorUsed := by
  simp [State.errorUsed, State.withUnused, h]

theorem State.track_withUnused (c f : Count) (h : s.cfg.optCmdMult = false) :
    (s.withUnused u).track c f = (s.track c f).withUnused u := by
  simp [State.track, State.cmdDelta, State.withUnused, h]

theorem State.pidIntegral_withUnused (hdb : s.cfg.optDeadband = false) (hcl : s.cfg.optIntClamp = false) :
    (s.withUnused u).pidIntegral = s.pidIntegral.withUnused u := by
  unfold State.pidIntegral
  rw [s.errorUsed_withUnused u hdb]
  simp only [State.withUnused, hcl]
  rfl

theorem State.pidErrorDerivative_withUnused (hdb : s.cfg.optDeadband = false) (hcl : s.cfg.optDerivClamp = false) :
    (s.withUnused u).pidErrorDerivative = s.pidErrorDerivative.withUnused u := by
  unfold State.pidErrorDerivative
  rw [s.errorUsed_withUnused u hdb]
  simp only [State.withUnused, hcl]
  rfl

theorem State.pidCommandDerivative_withUnused (hcl : s.cfg.optDerivClamp = false) :
    (s.withUnused u).pidCommandDerivative = s.pidCommandDerivative.withUnused u := by
  simp only [State.pidCommandDerivative, State.withUnused, hcl]
  rfl

theorem State.pidSum_withUnused (hdb : s.cfg.optDeadband = false) : (s.withUnused u).pidSum = s.pidSum := by
  unfold State.pidSum
  rw [s.errorUsed_withUnused u hdb]
  rfl

theorem State.pidOutput_withUnused (hdb : s.cfg.optDeadband = false) (hcl : s.cfg.optOutClamp = false) :
    (s.withUnused u).pidOutput = s.pidOutput.withUnused u := by
  unfold State.pidOutput
  rw [s.pidSum_withUnused u hdb]
  simp only [State.withUnused, hcl]
  rfl

theorem State.pidFault_withUnused : (s.withUnused u).pidFault = s.pidFault.withUnused u := by
  have hcond : (s.withUnused u).positionFault = s.positionFault := rfl
  unfold State.pidFault
  rw [hcond]
  split <;> rfl

theorem State.writeDuty_withUnused (dir : Direction) (mag : Half) :
    (s.withUnused u).writeDuty dir mag = (s.writeDuty dir mag).withUnused u := by
  cases dir <;> rfl

theorem State.gateDuty_withUnused (en : Bool) : (s.withUnused u).gateDuty en = (s.gateDuty en).withUnused u := by
  simp only [State.gateDuty, apply_ite (State.withUnused u), ← State.writeDuty_withUnused]
  rfl

theorem State.map_withUnused (en : Bool) : (s.withUnused u).map en = (s.map en).withUnused u :=
  State.gateDuty_withUnused u { s with ctl := { s.ctl with inLimit := s.dutyInLimit } } en

theorem State.edgeCheck_withUnused : (s.withUnused u).edgeCheck = s.edgeCheck.withUnused u := by
  have hcond : ((s.withUnused u).ctl.enabled && !(s.withUnused u).trk.prevEnabled) =
    (s.ctl.enabled && !s.trk.prevEnabled) := rfl
  unfold State.edgeCheck
  rw [hcond]
  split <;> rfl

theorem State.pid_withUnused (href : Config.referenceCycle s.cfg) : (s.withUnused u).pid = s.pid.withUnused u := by
  obtain ⟨hdeadband, hint, hder, hout, -⟩ := href
  have herror : (s.withUnused u).pidError.pidMaxError = s.pidError.pidMaxError.withUnused u := rfl
  unfold State.pid
  rw [herror, State.pidIntegral_withUnused _ _ (by simpa) (by simpa),
    State.pidErrorDerivative_withUnused _ _ (by simpa) (by simpa), State.pidCommandDerivative_withUnused _ _ (by simpa),
    State.pidOutput_withUnused _ _ (by simpa) (by simpa), State.pidFault_withUnused]

theorem State.controlCycle_withUnused (href : Config.referenceCycle s.cfg) :
    (s.withUnused u).controlCycle = s.controlCycle.withUnused u := by
  have hcfg : s.edgeCheck.cfg = s.cfg := by
    obtain ⟨c, k, hedge, -⟩ := s.edgeCheck_eq
    rw [hedge]
  have hmult : s.edgeCheck.cfg.optCmdMult = false := by
    obtain ⟨-, -, -, -, -, -, -, -, hoff⟩ := href
    rw [hcfg, hoff]
  have hsample : (s.withUnused u).edgeCheck.track s.cmdCnt s.fbCnt =
      (s.edgeCheck.track s.cmdCnt s.fbCnt).withUnused u := by
    rw [State.edgeCheck_withUnused, State.track_withUnused _ _ _ _ hmult]
  calc (s.withUnused u).controlCycle
      = (((s.withUnused u).edgeCheck.track s.cmdCnt s.fbCnt).pid).map s.ctl.enabled := rfl
    _ = s.controlCycle.withUnused u := by
      rw [hsample, State.pid_withUnused _ _ (by simpa [hcfg]), State.map_withUnused]
      rfl

/-- A tick of the reference behaviour commutes with a change of the registers it does not read. -/
theorem State.tick_withUnused (href : Config.referenceCycle s.cfg) : (s.withUnused u).tick = s.tick.withUnused u := by
  have hcycle : ((s.withUnused u).setCycleCount 0).controlCycle = ((s.setCycleCount 0).controlCycle).withUnused u :=
    (s.setCycleCount 0).controlCycle_withUnused u href
  have hisr : (s.withUnused u).isr1 = s.isr1.withUnused u := by
    simp only [State.isr1, hcycle, apply_ite (State.withUnused u)]
    rfl
  simp only [State.tick, hisr, apply_ite (State.withUnused u)]
  rfl

end

/-- Settles O25: a tick commutes with the change, and leaves `P` alone. -/
theorem unusedRegistersDoNotReachTheTick : Obligations.UnusedRegistersDoNotReachTheTick := by
  intro s deadband mi md mc mult cs href
  have h := s.tick_withUnused
    { s.par with
      deadband := deadband, maxIntegralError := mi, maxDerivError := md, maxCmdDeriv := mc
      cmdMultiplier := mult, checksum := cs } href
  have hpar : s.tick.par = s.par := by rw [s.tick_frame.1]
  simpa only [State.withUnused, hpar] using h

end Sys2Proof.Machine
end

section
/-! The block's invariant `Inv`, kept by every step: its clauses about values (`DataInv`), kept by every micro-step and
every interrupt step, and its clauses about where FG stands (`StandInv`), kept along the edges of FG's program. -/

namespace Sys2Proof.Machine

/-! ## The two halves of the invariant -/

/-- The clauses of `Inv` that read no phase and no flag of FG. -/
def DataInv (s : State) : Prop :=
  s.cfg.wf = true ∧ s.par.toParamVals.inRange = true ∧ s.trk.cycleCount.toNat < 100 ∧ Memory.wf s.nvm = true ∧
    s.lineBuf.length ≤ s.cfg.lineMax ∧ s.inWidths = true ∧ (s.cfg.num = .binary32 → s.jerk.isNaN = false)

/-- The clauses of `Inv` about where FG stands, on the phase and the flags they read. -/
structure PhaseInv (p : Phase) (enabled ind missing isrOn halted ready : Bool) : Prop where
  disabledInBoot : p.inBoot = true ∨ p.inHold = true → enabled = false
  indOnlyInHold : ind = true → p.inBlink = true
  missingOnlyInHold : missing = true → p.inHold = true
  isrOffOnlyInBoot : isrOn = false → halted = true ∨ p.beforeIsr = true
  dispatchPending : p = .dispatch → ready = true
  haltMasksIsr : halted = true → isrOn = false

/-- `PhaseInv` of a state. -/
def StandInv (s : State) : Prop :=
  PhaseInv s.fg.phase s.ctl.enabled s.ind s.fg.cfgMissing s.isrOn s.halted s.lineReady

theorem inv_iff (s : State) : Inv s ↔ DataInv s ∧ StandInv s := by
  constructor
  · intro h
    exact ⟨⟨h.cfgWf, h.paramsInRange, h.cycleBelow, h.nvmCanonical, h.lineFits, h.inWidths, h.jerkNotNaN⟩,
      ⟨h.disabledInBoot, h.indOnlyInHold, h.missingOnlyInHold, h.isrOffOnlyInBoot, h.dispatchPending,
        h.haltMasksIsr⟩⟩
  · rintro ⟨⟨hwf, hrange, hcount, hnvm, hline, hwidths, hjerk⟩, h⟩
    exact ⟨hwf, hrange, hcount, hnvm, hline, hwidths, hjerk, h.disabledInBoot, h.indOnlyInHold, h.missingOnlyInHold,
      h.isrOffOnlyInBoot, h.dispatchPending, h.haltMasksIsr⟩

/-! ## Widths, register group by register group -/

/-- The registers of `S` of `ACC_W` bits hold values of that width. -/
structure Control.Fits (w : Nat) (c : Control) : Prop where
  cmdAcc : fitsS w c.cmdAcc = true
  fbAcc : fitsS w c.fbAcc = true
  prevCommand : fitsS w c.prevCommand = true
  error : fitsS w c.error = true
  prevError : fitsS w c.prevError = true
  maxObservedError : fitsU w c.maxObservedError = true

/-- FG's copies of registers and its feedback sample hold values of their widths. -/
structure Foreground.Fits (c : Config) (f : Foreground) : Prop where
  t : fitsS c.accW f.t = true
  statError : fitsS c.accW f.statError = true
  statMax : fitsU c.accW f.statMax = true
  fbSample : fitsU c.cntW f.fbSample = true

/-- The last samples hold values of the counters' width. -/
structure Tracker.Fits (w : Nat) (k : Tracker) : Prop where
  lastCmdRaw : fitsU w k.lastCmdRaw = true
  lastFbRaw : fitsU w k.lastFbRaw = true

theorem State.inWidths_iff (s : State) :
    s.inWidths = true ↔ s.ctl.Fits s.cfg.accW ∧ s.fg.Fits s.cfg ∧ s.trk.Fits s.cfg.cntW ∧
      fitsU s.cfg.cntW s.cmdCnt = true ∧ fitsU s.cfg.cntW s.fbCnt = true := by
  simp only [State.inWidths, List.all_cons, List.all_nil, Bool.and_true, Bool.and_eq_true]
  constructor
  · rintro ⟨⟨⟨hcmd, hfb, hprev, herr, hperr, ht, hstat⟩, hmax, hsmax⟩, hlc, hlf, hc, hf, hsample⟩
    exact ⟨⟨hcmd, hfb, hprev, herr, hperr, hmax⟩, ⟨ht, hstat, hsmax, hsample⟩, ⟨hlc, hlf⟩, hc, hf⟩
  · rintro ⟨hctl, hfg, htrk, hc, hf⟩
    exact ⟨⟨⟨hctl.cmdAcc, hctl.fbAcc, hctl.prevCommand, hctl.error, hctl.prevError, hfg.t, hfg.statError⟩,
      hctl.maxObservedError, hfg.statMax⟩, htrk.lastCmdRaw, htrk.lastFbRaw, hc, hf, hfg.fbSample⟩

@[simp] theorem fitsS_zero (w : Nat) : fitsS w 0 = true := by simp [fitsS]

@[simp] theorem fitsU_zero (w : Nat) : fitsU w 0 = true := by simp [fitsU]

/-- The magnitude of a signed value of a width is an unsigned value of it (10_state.md R35). -/
theorem fitsU_absInt {w : Nat} {x : Int} (h : fitsS w x = true) : fitsU w (absInt x) = true := by
  simp only [fitsS, Bool.and_eq_true, decide_eq_true_eq] at h
  obtain ⟨hlo, hhi⟩ := h
  refine decide_eq_true ?_
  have hpos : (0 : Int) < 2 ^ w := by positivity
  have habs : ((absInt x : Nat) : Int) < 2 ^ w := by
    rw [absInt, Int.natCast_natAbs, abs_lt]
    constructor <;> linarith
  exact_mod_cast habs

theorem fitsU_max {w a b : Nat} (ha : fitsU w a = true) (hb : fitsU w b = true) : fitsU w (max a b) = true := by
  simp only [fitsU, decide_eq_true_eq] at ha hb ⊢
  exact max_lt ha hb

theorem controlFits_atReset (w : Nat) : Control.atReset.Fits w := by
  constructor <;> simp [Control.atReset]

/-! ## Parameters in range -/

theorem ParamVals.inRange_iff (v : ParamVals) :
    v.inRange = true ↔ (1 ≤ v.cmdMultiplier.toInt ∧ v.cmdMultiplier.toInt ≤ 22) ∧
      1 ≤ v.ticksPerServoCycle.toInt ∧ v.ticksPerServoCycle.toInt ≤ 100 := by
  simp only [ParamVals.inRange, Bool.and_eq_true, decide_eq_true_eq, and_assoc]

theorem Params.setFloat_inRange (p : Params) (r : FloatReg) (v : Num32) :
    (p.setFloat r v).toParamVals.inRange = p.toParamVals.inRange := by
  cases r <;> rfl

/-- A value clamped within 16 bits is written as it is. -/
theorem toInt_ofInt_clampInt (x : Int) {lo hi : Int} (hlo : -(2 ^ 15) ≤ lo) (hle : lo ≤ hi) (hhi : hi < 2 ^ 15) :
    (BitVec.ofInt 16 (clampInt x lo hi)).toInt = clampInt x lo hi := by
  obtain ⟨h1, h2⟩ := clampInt_bounds x hle
  rw [BitVec.toInt_ofInt]
  exact Int.bmod_eq_of_le (by norm_num at *; omega) (by norm_num at *; omega)

theorem inRange_withMultiplier {p : Params} (h : p.toParamVals.inRange = true) (x : Int) :
    ({ p with cmdMultiplier := BitVec.ofInt 16 (clampInt x 1 22) } : Params).toParamVals.inRange = true := by
  obtain ⟨-, hticks⟩ := (ParamVals.inRange_iff _).mp h
  refine (ParamVals.inRange_iff _).mpr ⟨?_, hticks⟩
  rw [toInt_ofInt_clampInt x (by decide) (by decide) (by decide)]
  exact clampInt_bounds x (by decide)

theorem inRange_withTicks {p : Params} (h : p.toParamVals.inRange = true) (x : Int) :
    ({ p with ticksPerServoCycle := BitVec.ofInt 16 (clampInt x 1 100) } : Params).toParamVals.inRange = true := by
  obtain ⟨hmult, -⟩ := (ParamVals.inRange_iff _).mp h
  refine (ParamVals.inRange_iff _).mpr ⟨hmult, ?_⟩
  rw [toInt_ofInt_clampInt x (by decide) (by decide) (by decide)]
  exact clampInt_bounds x (by decide)

/-- A `ticksPerServoCycle` in range is at most 100 unsigned too (43_scheduler.md R171). -/
theorem ticks_toNat_le {v : ParamVals} (h : v.inRange = true) : v.ticksPerServoCycle.toNat ≤ 100 := by
  obtain ⟨-, hlo, hhi⟩ := (ParamVals.inRange_iff v).mp h
  rw [BitVec.toInt_eq_toNat_cond] at hlo hhi
  have hlt := v.ticksPerServoCycle.isLt
  split at hlo <;> omega

theorem Config.defaults_inRange {c : Config} (h : c.wf = true) : c.defaults.inRange = true := by
  simp only [Config.wf, Bool.and_eq_true] at h
  obtain ⟨⟨-, hrange⟩, -⟩ := h
  exact hrange

/-- No operand is a NaN under binary32 (47_supervisor.md R285). -/
theorem Config.decToNum_isNaN {c : Config} (h : c.num = .binary32) (d : Decimal) :
    (c.arith.decToNum d).isNaN = false := by
  rw [Config.arith_binary32 h]
  exact Num32.ofDecimal_isNaN _ _ _

/-! ## Writes that keep `DataInv` -/

section
variable {s : State} (h : DataInv s)
include h

theorem DataInv.wf : s.cfg.wf = true := by
  obtain ⟨hwf, -⟩ := h
  exact hwf

theorem DataInv.inRange : s.par.toParamVals.inRange = true := by
  obtain ⟨-, hrange, -⟩ := h
  exact hrange

theorem DataInv.widths : s.ctl.Fits s.cfg.accW ∧ s.fg.Fits s.cfg ∧ s.trk.Fits s.cfg.cntW ∧
    fitsU s.cfg.cntW s.cmdCnt = true ∧ fitsU s.cfg.cntW s.fbCnt = true := by
  obtain ⟨-, -, -, -, -, hwidths, -⟩ := h
  exact s.inWidths_iff.mp hwidths

theorem DataInv.withPar {p : Params} (hp : p.toParamVals.inRange = true) : DataInv { s with par := p } := by
  obtain ⟨hwf, -, hrest⟩ := h
  exact ⟨hwf, hp, hrest⟩

theorem DataInv.withJerk {v : Num32} (hv : s.cfg.num = .binary32 → v.isNaN = false) :
    DataInv { s with jerk := v } := by
  obtain ⟨hwf, hrange, hcount, hnvm, hline, hwidths, -⟩ := h
  exact ⟨hwf, hrange, hcount, hnvm, hline, hwidths, hv⟩

theorem DataInv.withNvm {m : Memory} (hm : Memory.wf m = true) : DataInv { s with nvm := m } := by
  obtain ⟨hwf, hrange, hcount, -, hrest⟩ := h
  exact ⟨hwf, hrange, hcount, hm, hrest⟩

theorem DataInv.withWidths {c : Control} {f : Foreground} {k : Tracker} {a b : Count} (hk : k.cycleCount.toNat < 100)
    (hw : c.Fits s.cfg.accW ∧ f.Fits s.cfg ∧ k.Fits s.cfg.cntW ∧ fitsU s.cfg.cntW a = true ∧
      fitsU s.cfg.cntW b = true) :
    DataInv { s with ctl := c, fg := f, trk := k, cmdCnt := a, fbCnt := b } := by
  obtain ⟨hwf, hrange, -, hnvm, hline, -, hjerk⟩ := h
  exact ⟨hwf, hrange, hk, hnvm, hline, (State.inWidths_iff _).mpr hw, hjerk⟩

theorem DataInv.count : s.trk.cycleCount.toNat < 100 := by
  obtain ⟨-, -, hcount, -⟩ := h
  exact hcount

theorem DataInv.withCtl {c : Control} (hc : c.Fits s.cfg.accW) : DataInv { s with ctl := c } :=
  h.withWidths h.count ⟨hc, h.widths.2⟩

theorem DataInv.withFg {f : Foreground} (hf : f.Fits s.cfg) : DataInv { s with fg := f } :=
  h.withWidths h.count ⟨h.widths.1, hf, h.widths.2.2⟩

theorem DataInv.withCount {n : Half} (hn : n.toNat < 100) : DataInv (s.setCycleCount n) := by
  obtain ⟨hctl, hfg, htrk, hports⟩ := h.widths
  exact h.withWidths hn ⟨hctl, hfg, ⟨htrk.lastCmdRaw, htrk.lastFbRaw⟩, hports⟩

end

/-! ## The interrupt steps keep `DataInv` -/

theorem DataInv.edgeCheck {s : State} (h : DataInv s) : DataInv s.edgeCheck := by
  obtain ⟨hctl, hfg, htrk, hc, hf⟩ := h.widths
  unfold State.edgeCheck
  split
  · refine h.withWidths h.count ⟨?_, hfg, ⟨hc, hf⟩, hc, hf⟩
    constructor <;> simp
  · exact h.withWidths h.count ⟨hctl, hfg, ⟨htrk.lastCmdRaw, htrk.lastFbRaw⟩, hc, hf⟩

theorem DataInv.track {s : State} {c f : Count} (h : DataInv s) (hc : fitsU s.cfg.cntW c = true)
    (hf : fitsU s.cfg.cntW f = true) : DataInv (s.track c f) := by
  obtain ⟨hctl, hfg, -, hports⟩ := h.widths
  exact h.withWidths h.count
    ⟨{ hctl with cmdAcc := fitsS_wrapAcc h.wf _, fbAcc := fitsS_wrapAcc h.wf _ }, hfg, ⟨hc, hf⟩, hports⟩

theorem DataInv.errorUsed {s : State} (h : DataInv s) : fitsS s.cfg.accW s.errorUsed = true := by
  obtain ⟨hctl, -⟩ := h.widths
  unfold State.errorUsed
  split
  · exact fitsS_zero _
  · exact hctl.error

theorem DataInv.pidError {s : State} (h : DataInv s) : DataInv s.pidError := by
  obtain ⟨hctl, -⟩ := h.widths
  exact h.withCtl { hctl with error := fitsS_wrapAcc h.wf _ }

theorem DataInv.pidMaxError {s : State} (h : DataInv s) : DataInv s.pidMaxError := by
  obtain ⟨hctl, -⟩ := h.widths
  exact h.withCtl { hctl with maxObservedError := fitsU_max hctl.maxObservedError (fitsU_absInt hctl.error) }

theorem DataInv.pidErrorDerivative {s : State} (h : DataInv s) : DataInv s.pidErrorDerivative := by
  obtain ⟨hctl, -⟩ := h.widths
  exact h.withCtl { hctl with prevError := h.errorUsed }

theorem DataInv.pidCommandDerivative {s : State} (h : DataInv s) : DataInv s.pidCommandDerivative := by
  obtain ⟨hctl, -⟩ := h.widths
  exact h.withCtl { hctl with prevCommand := hctl.cmdAcc }

theorem DataInv.pid {s : State} (h : DataInv s) : DataInv s.pid := by
  have hint : DataInv s.pidError.pidMaxError.pidIntegral := h.pidError.pidMaxError
  have hout : DataInv s.pidError.pidMaxError.pidIntegral.pidErrorDerivative.pidCommandDerivative.pidOutput :=
    hint.pidErrorDerivative.pidCommandDerivative
  unfold State.pid
  rcases State.pidFault_eq s.pidError.pidMaxError.pidIntegral.pidErrorDerivative.pidCommandDerivative.pidOutput with
    ⟨-, hf⟩ | ⟨-, hf⟩
  · rw [hf]
    exact hout
  · rw [hf]
    exact hout

theorem DataInv.controlCycle {s : State} (h : DataInv s) : DataInv s.controlCycle := by
  obtain ⟨c, k, hedge, -⟩ := s.edgeCheck_eq
  obtain ⟨-, -, -, hc, hf⟩ := h.widths
  have hpid : DataInv (s.edgeCheck.track s.cmdCnt s.fbCnt).pid :=
    (h.edgeCheck.track (by rwa [hedge]) (by rwa [hedge])).pid
  obtain ⟨p, n, w, hmap, -⟩ := (s.edgeCheck.track s.cmdCnt s.fbCnt).pid.map_eq s.ctl.enabled
  unfold State.controlCycle
  rw [hmap]
  exact hpid

theorem DataInv.tick {s : State} (h : DataInv s) : DataInv s.tick := by
  rcases s.tick_cases with ⟨-, ht⟩ | ⟨-, -, -, ht⟩ | ⟨-, -, hgate, ht⟩
  · rw [ht]
    exact h
  · rw [ht]
    exact (h.withCount (by decide)).controlCycle
  · rw [ht]
    refine h.withCount (lt_of_lt_of_le ?_ (ticks_toNat_le h.inRange))
    exact BitVec.lt_def.mp (BitVec.not_le.mp hgate)

/-! ## FG's micro-steps keep `DataInv` -/

theorem DataInv.saveImage {s : State} (h : DataInv s) : DataInv s.saveImage := by
  obtain ⟨-, -, -, hnvm, -⟩ := id h
  exact h.withNvm (s.nvmSave_wf (image s.par) (image_length _) hnvm)

theorem DataInv.ofStat {s : State} {f : State → State} (h : DataInv s) (hf : f ∈ statSpan) : DataInv (f s) := by
  obtain ⟨hctl, hfg, -⟩ := h.widths
  simp only [statSpan, List.mem_cons, List.not_mem_nil, or_false] at hf
  rcases hf with rfl | rfl | rfl | rfl | rfl | rfl | rfl | rfl
  case inl => exact h.withFg { hfg with statError := hctl.error }
  case inr.inr.inr.inr.inr.inr.inl => exact h.withFg { hfg with statMax := hctl.maxObservedError }
  case inr.inr.inr.inr.inr.inr.inr => exact h.withCtl { hctl with maxObservedError := fitsU_zero _ }
  all_goals exact h

theorem DataInv.ofZero {s : State} {f : State → State} (h : DataInv s) (hf : f ∈ zeroSpan) : DataInv (f s) := by
  obtain ⟨hctl, -⟩ := h.widths
  simp only [zeroSpan, List.mem_cons, List.not_mem_nil, or_false] at hf
  rcases hf with rfl | rfl | rfl
  · exact h.withCtl { hctl with cmdAcc := fitsS_zero _ }
  · exact h.withCtl { hctl with fbAcc := fitsS_zero _ }
  · exact h.withCtl { hctl with error := fitsS_zero _ }

theorem MicroStep.dataInv {n : NumOps} {i : Instr} {f : State → State} (hf : MicroStep n i f) {s : State}
    (hn : s.num = n) (h : DataInv s) : DataInv (f s) := by
  cases hf with
  | writeFloat r d => exact h.withPar ((Params.setFloat_inRange _ _ _).trans h.inRange)
  | writeMultiplier d => exact h.withPar (inRange_withMultiplier h.inRange _)
  | writeTicks d => exact h.withPar (inRange_withTicks h.inRange _)
  | writeChecksum => exact h.withPar h.inRange
  | saveImage => exact h.saveImage
  | writeJerk d =>
    subst hn
    exact h.withJerk fun hb => Config.decToNum_isNaN hb d
  | sampleFeedback =>
    obtain ⟨-, hfg, -, -, hfb⟩ := h.widths
    exact h.withFg { hfg with fbSample := hfb }
  | ofStat hmem => exact h.ofStat hmem
  | ofZero hmem => exact h.ofZero hmem
  | _ => exact h

theorem DataInv.exec {i : Instr} {s t : State} (h : DataInv s) (ht : exec i s = .next t) : DataInv t := by
  obtain ⟨u, p, j, ⟨-, hu⟩, rfl, -⟩ := exec_induct (P := fun u => u.num = s.num ∧ DataInv u) ht ⟨rfl, h⟩
    fun f hf u ⟨hn, hu⟩ => ⟨(congrArg Config.arith (hf.frame u).cfg).trans hn, hf.dataInv hn hu⟩
  exact hu

theorem DataInv.supervise {s : State} (h : DataInv s) : DataInv s.supervise := by
  obtain ⟨hctl, hfg, -⟩ := h.widths
  cases hp : s.fg.phase <;> simp only [State.supervise, hp]
  case boot0 => exact h.withPar (Config.defaults_inRange h.wf)
  case loadFloat r => exact h.withPar ((Params.setFloat_inRange _ _ _).trans h.inRange)
  case loadMultiplier => exact h.withPar (inRange_withMultiplier h.inRange _)
  case loadTicks => exact h.withPar (inRange_withTicks h.inRange _)
  case loadChecksum => exact h.withPar h.inRange
  case jerkRead sub => exact h.withFg { hfg with t := hctl.cmdAcc }
  case jerkWrite sub =>
    cases sub <;> exact h.withCtl { hctl with cmdAcc := fitsS_wrapAcc h.wf _ }
  case delayTest d => split <;> exact h
  case jerkTest =>
    unfold State.jerkTest
    split <;> exact h
  all_goals exact h

theorem DataInv.doReset {s : State} (h : DataInv s) : DataInv s.doReset := by
  obtain ⟨hwf, -, -, hnvm, -⟩ := id h
  obtain ⟨-, -, -, hports⟩ := h.widths
  refine ⟨hwf, Config.defaults_inRange hwf, show (0 : Half).toNat < 100 by decide, hnvm, Nat.zero_le _, ?_,
    fun _ => show Num32.isNaN 0 = false by decide⟩
  exact (State.inWidths_iff _).mpr ⟨controlFits_atReset _,
    ⟨fitsS_zero _, fitsS_zero _, fitsU_zero _, fitsU_zero _⟩, ⟨fitsU_zero _, fitsU_zero _⟩, hports⟩

theorem DataInv.withLine {s : State} {bytes : List Byte} (h : DataInv s) (hlen : bytes.length ≤ s.cfg.lineMax) :
    DataInv { s with lineBuf := bytes, lineReady := true } := by
  obtain ⟨hwf, hrange, hcount, hnvm, -, hrest⟩ := h
  exact ⟨hwf, hrange, hcount, hnvm, hlen, hrest⟩

/-- Every turn of every agent keeps the values' half of the invariant. -/
theorem DataInv.turn {s t : State} {e : Event} (h : DataInv s) (ht : s.turn e = .next t) : DataInv t := by
  obtain ⟨hctl, hfg, htrk, hc, hf⟩ := h.widths
  cases e with
  | reset =>
    cases ht
    exact h.doReset
  | envFault =>
    cases ht
    split <;> exact h
  | tick =>
    cases ht
    exact h.tick
  | tick2 =>
    cases ht
    rcases s.tick2_cases with h2 | ⟨-, h2⟩
    · rwa [h2]
    · rw [h2]
      exact h
  | line bytes =>
    rcases State.deliverLine_next ht with rfl | ⟨hlen, rfl⟩
    · exact h
    · exact h.withLine hlen
  | cmdCnt v =>
    cases ht
    exact h.withWidths h.count ⟨hctl, hfg, htrk, fitsU_wrapU _ v, hf⟩
  | fbCnt v =>
    cases ht
    exact h.withWidths h.count ⟨hctl, hfg, htrk, hc, fitsU_wrapU _ v⟩
  | en v =>
    cases ht
    exact h
  | fg =>
    rcases State.turn_fg_cases ht with rfl | ⟨-, i, -, he⟩ | ⟨-, -, rfl⟩
    · exact h
    · exact h.exec he
    · exact h.supervise

/-! ## The edges of FG's program -/

/-- FG may go from `p` to `q` with its flags as they are: what `q` asks of them, `p` asks too. -/
def Phase.admits (p q : Phase) : Bool :=
  (!(q.inBoot || q.inHold) || (p.inBoot || p.inHold)) && (!p.inBlink || q.inBlink) && (!p.inHold || q.inHold) &&
    (!p.beforeIsr || q.beforeIsr)

theorem Phase.admits_iff (p q : Phase) :
    p.admits q = true ↔ (q.inBoot = true ∨ q.inHold = true → p.inBoot = true ∨ p.inHold = true) ∧
      (p.inBlink = true → q.inBlink = true) ∧ (p.inHold = true → q.inHold = true) ∧
      (p.beforeIsr = true → q.beforeIsr = true) := by
  simp only [Phase.admits, Bool.and_eq_true, Bool.or_eq_true, Bool.not_eq_true', ← Bool.not_eq_true, imp_iff_not_or,
    and_assoc]

theorem PhaseInv.move {p q : Phase} {enabled ind missing isrOn halted ready ready' : Bool}
    (h : PhaseInv p enabled ind missing isrOn halted ready) (ha : p.admits q = true)
    (hd : q = .dispatch → ready' = true) :
    PhaseInv q enabled ind missing isrOn halted ready' := by
  obtain ⟨hboot, hblink, hhold, hisr⟩ := (Phase.admits_iff p q).mp ha
  exact ⟨h.disabledInBoot ∘ hboot, hblink ∘ h.indOnlyInHold, hhold ∘ h.missingOnlyInHold,
    fun ho => (h.isrOffOnlyInBoot ho).imp_right hisr, hd, h.haltMasksIsr⟩

theorem fetch_phase {s : State} {i : Instr} (h : s.fetch = some i) :
    s.fg.phase = .dispatch ∨ ∃ k, s.fg.phase = .command k := by
  unfold State.fetch at h
  split at h
  · next hp => exact .inl hp
  · next k hp => exact .inr ⟨k, hp⟩
  · cases h

theorem StandInv.exec {i : Instr} {s t : State} (h : StandInv s) (hf : s.fetch = some i) (ht : exec i s = .next t) :
    StandInv t := by
  obtain ⟨u, q, j, hu, rfl, hq⟩ := exec_induct (P := CommandFrame s) ht (.refl s) fun f hf v hv =>
    hv.trans (hf.frame v)
  have hadmits : s.fg.phase.admits q = true := by
    rcases fetch_phase hf with hp | ⟨k, hp⟩ <;> rcases hq with rfl | ⟨k', rfl⟩ <;> rw [hp] <;> rfl
  have hne : q = .dispatch → u.lineReady = true := by
    rcases hq with rfl | ⟨k', rfl⟩ <;> exact nofun
  have hmove := h.move hadmits hne
  rw [← hu.enabled, ← hu.ind, ← hu.cfgMissing, ← hu.isrOn, ← hu.halted] at hmove
  exact hmove

/-- Every edge of FG's program outside the commands keeps the clauses about where FG stands. -/
theorem StandInv.supervise {s : State} (h : StandInv s) (hrun : s.halted = false) : StandInv s.supervise := by
  have hstay := h
  unfold StandInv at h
  cases hp : s.fg.phase <;> rw [hp] at h <;> simp only [State.supervise, hp]
  case boot0 => exact h.move rfl nofun
  case boot1 => exact { h.move (q := .boot2) rfl nofun with disabledInBoot := fun _ => rfl }
  case boot2 =>
    exact ⟨fun _ => h.disabledInBoot (.inl rfl), h.indOnlyInHold, h.missingOnlyInHold, nofun, nofun,
      fun hh => Bool.noConfusion (hrun.symm.trans hh)⟩
  case loadImage =>
    unfold State.loadImage
    split <;> exact h.move rfl nofun
  case loadFloat r => cases r <;> exact h.move rfl nofun
  case loadMultiplier => exact h.move rfl nofun
  case loadTicks => exact h.move rfl nofun
  case loadChecksum => exact h.move rfl nofun
  case loadMissing => exact { h.move (q := .holdTest) rfl nofun with missingOnlyInHold := fun _ => rfl }
  case holdTest => split <;> exact h.move rfl nofun
  case holdToggle => exact { h.move (q := .delayLoad .blink) rfl nofun with indOnlyInHold := fun _ => rfl }
  case holdIndOff =>
    exact ⟨fun _ => h.disabledInBoot (.inr rfl), nofun, fun _ => rfl, h.isrOffOnlyInBoot, nofun, h.haltMasksIsr⟩
  case holdDone =>
    exact ⟨fun _ => h.disabledInBoot (.inr rfl), h.indOnlyInHold, nofun, h.isrOffOnlyInBoot, nofun, h.haltMasksIsr⟩
  case delayLoad d => cases d <;> exact h.move rfl nofun
  case delayTest d =>
    split
    · cases d <;> exact h.move rfl nofun
    · exact hstay
  case loop =>
    split
    · next hready => exact h.move rfl fun _ => hready
    · exact h.move rfl nofun
  case dispatch => exact hstay
  case command k => exact hstay
  case jerkTest =>
    unfold State.jerkTest
    split <;> exact h.move rfl nofun
  case jerkGo => split <;> exact h.move rfl nofun
  case jerkRead sub => exact h.move rfl nofun
  case jerkWrite sub => cases sub <;> exact h.move rfl nofun
  case mirror =>
    unfold State.mirror
    dsimp only
    split
    · exact h.move rfl nofun
    split <;> exact h.move rfl nofun
  case riseSet =>
    have hout : ¬ (Phase.riseEmit.inBoot = true ∨ Phase.riseEmit.inHold = true) := by decide
    exact { h.move (q := .riseEmit) rfl nofun with disabledInBoot := fun hin => absurd hin hout }
  case riseEmit => exact h.move rfl nofun
  case fallSet => exact { h.move (q := .fallEmit) rfl nofun with disabledInBoot := fun _ => rfl }
  case fallEmit => exact h.move rfl nofun

/-- Every turn of every agent keeps the clauses about where FG stands. -/
theorem StandInv.turn {s t : State} {e : Event} (h : StandInv s) (ht : s.turn e = .next t) : StandInv t := by
  cases e with
  | reset =>
    cases ht
    exact ⟨fun _ => rfl, nofun, nofun, fun _ => .inr rfl, nofun, nofun⟩
  | envFault =>
    cases ht
    split
    · exact h
    · exact { h with isrOffOnlyInBoot := fun _ => .inl rfl, haltMasksIsr := fun _ => rfl }
  | tick =>
    cases ht
    obtain ⟨hframe, hen⟩ := s.tick_frame
    unfold StandInv
    rw [hen, hframe]
    exact h
  | tick2 =>
    cases ht
    rcases s.tick2_cases with h2 | ⟨-, h2⟩
    · rwa [h2]
    · rw [h2]
      exact h
  | line bytes =>
    rcases State.deliverLine_next ht with rfl | ⟨-, rfl⟩
    · exact h
    · exact { h with dispatchPending := fun _ => rfl }
  | cmdCnt v | fbCnt v | en v =>
    cases ht
    exact h
  | fg =>
    rcases State.turn_fg_cases ht with rfl | ⟨-, i, hi, he⟩ | ⟨hrun, -, rfl⟩
    · exact h
    · exact h.exec hi he
    · exact h.supervise hrun

theorem Inv.turn {s t : State} {e : Event} (h : Inv s) (ht : s.turn e = .next t) : Inv t := by
  obtain ⟨hdata, hstand⟩ := (inv_iff s).mp h
  exact (inv_iff t).mpr ⟨hdata.turn ht, hstand.turn ht⟩

/-- No clause of the invariant reads the script. -/
theorem Inv.withScript {s : State} (h : Inv s) (l : List (List Event)) : Inv { s with script := l } := by
  obtain ⟨hdata, hstand⟩ := (inv_iff s).mp h
  exact (inv_iff _).mpr ⟨hdata, hstand⟩

/-- Settles O58: a step is a turn, or drops an empty group. -/
theorem everyStepKeepsTheInvariant : Obligations.EveryStepKeepsTheInvariant := by
  intro s t h hstep
  rcases step_cases s with ⟨-, hs⟩ | ⟨later, -, hs⟩ | ⟨g, later, e, rest, -, -, hs⟩
  · exact h.turn (hs ▸ hstep)
  · rw [hs] at hstep
    cases hstep
    exact h.withScript later
  · exact (h.withScript (leave rest later)).turn (hs ▸ hstep)

end Sys2Proof.Machine
end

section
/-! The block image, byte by byte: a field is its bytes, least significant first, an image is its fifty bytes, and
`MemRead` and `MemWrite` reach one field (20_memory.md R62 to R65). -/

namespace Sys2Proof.Machine

/-! ## A field and its bytes -/

/-- The bits of a part of a value are bits of the value. -/
theorem extractLsb'_extractLsb' {w : Nat} (x : BitVec w) {a n k m : Nat} (h : k + m ≤ n) :
    (x.extractLsb' a n).extractLsb' k m = x.extractLsb' (a + k) m := by
  ext j hj
  simp [show k + j < n by omega, Nat.add_assoc]

/-- A 16-bit field holds the value whose bytes stand at its two offsets (R64). -/
theorem word16_of_bytes {img : List Byte} {o : Nat} {w : Half} (h0 : byteAt img o = w.extractLsb' 0 8)
    (h1 : byteAt img (o + 1) = w.extractLsb' 8 8) : word16 img o = w := by
  rw [word16, h0, h1]
  exact (BitVec.extractLsb'_append_extractLsb'_eq_extractLsb' rfl).trans BitVec.extractLsb'_eq_self

/-- A 32-bit field holds the value whose halves are its two 16-bit fields. -/
theorem word32_of_halves {img : List Byte} {o : Nat} {w : Word} (hlo : word16 img o = w.extractLsb' 0 16)
    (hhi : word16 img (o + 2) = w.extractLsb' 16 16) : word32 img o = w := by
  rw [word32, hlo, hhi]
  exact (BitVec.extractLsb'_append_extractLsb'_eq_extractLsb' rfl).trans BitVec.extractLsb'_eq_self

/-- A 32-bit field holds the value whose bytes stand at its four offsets (R64). -/
theorem word32_of_bytes {img : List Byte} {o : Nat} {w : Word} (h0 : byteAt img o = w.extractLsb' 0 8)
    (h1 : byteAt img (o + 1) = w.extractLsb' 8 8) (h2 : byteAt img (o + 2) = w.extractLsb' 16 8)
    (h3 : byteAt img (o + 3) = w.extractLsb' 24 8) : word32 img o = w := by
  refine word32_of_halves (word16_of_bytes ?_ ?_) (word16_of_bytes ?_ ?_)
  · rw [h0, extractLsb'_extractLsb' _ (by decide)]
  · rw [h1, extractLsb'_extractLsb' _ (by decide)]
  · rw [h2, extractLsb'_extractLsb' _ (by decide)]
  · rw [h3, extractLsb'_extractLsb' _ (by decide)]

/-- The bytes of a 16-bit field are the image's own. -/
theorem le16_word16 (img : List Byte) (o : Nat) : le16 (word16 img o) = [byteAt img o, byteAt img (o + 1)] := by
  have hlo : (word16 img o).extractLsb' 0 8 = byteAt img o := BitVec.extractLsb'_append_eq_right
  have hhi : (word16 img o).extractLsb' 8 8 = byteAt img (o + 1) := BitVec.extractLsb'_append_eq_left
  rw [le16, hlo, hhi]

/-- The bytes of a 32-bit field are those of its two 16-bit fields. -/
theorem le32_word32 (img : List Byte) (o : Nat) :
    le32 (word32 img o) = le16 (word16 img o) ++ le16 (word16 img (o + 2)) := by
  have hlow (k : Nat) (hk : k + 8 ≤ 16) : (word32 img o).extractLsb' k 8 = (word16 img o).extractLsb' k 8 :=
    BitVec.extractLsb'_append_eq_of_add_le hk
  have hhigh (k : Nat) : (word32 img o).extractLsb' (16 + k) 8 = (word16 img (o + 2)).extractLsb' k 8 :=
    (BitVec.extractLsb'_append_eq_of_le (Nat.le_add_right 16 k)).trans (by rw [Nat.add_sub_cancel_left])
  rw [le32, hlow 0 (by decide), hlow 8 (by decide), hhigh 0, hhigh 8]
  rfl

/-! ## `image` and `parse` -/

section
variable (w : Word) (h : Half) (l : List Byte) (o : Nat)

theorem word32_le32_append : word32 (le32 w ++ l) 0 = w := word32_of_bytes rfl rfl rfl rfl

theorem word32_le32_append_add : word32 (le32 w ++ l) (o + 4) = word32 l o := rfl

theorem word16_le32_append_add : word16 (le32 w ++ l) (o + 4) = word16 l o := rfl

theorem word16_le16_append : word16 (le16 h ++ l) 0 = h := word16_of_bytes rfl rfl

theorem word16_le16_append_add : word16 (le16 h ++ l) (o + 2) = word16 l o := rfl

theorem word16_le16 : word16 (le16 h) 0 = h := word16_of_bytes rfl rfl

end

/-- Each field of the image of a register file is read back from its offset, the fields before it passed over (R65). -/
theorem parse_image (p : Params) : parse (image p) = p := by
  ext1 <;> simp only [parse, image, imageVals, List.append_assoc, word32_le32_append, word32_le32_append_add,
    word16_le32_append_add, word16_le16_append, word16_le16_append_add, word16_le16]

/-- An image is the sequence of its bytes. -/
theorem map_byteAt_range (img : List Byte) : (List.range img.length).map (byteAt img) = img := by
  refine List.ext_getElem (by simp) fun k _ hk => ?_
  simp [byteAt, hk]

/-- The parsed registers are laid out again as the bytes they were read from. -/
theorem image_parse {img : List Byte} (h : img.length = 50) : image (parse img) = img := by
  have hbytes : image (parse img) = (List.range 50).map (byteAt img) := by
    simp only [image, imageVals, parse, le32_word32, le16_word16]
    rfl
  rw [hbytes, ← h, map_byteAt_range]

/-- Settles O26: the fields one by one, and the fifty bytes one by one. -/
theorem imageAndParseAreInverse : Obligations.ImageAndParseAreInverse :=
  ⟨fun p => ⟨image_length p, parse_image p⟩, fun _ => image_parse⟩

/-! ## `MemRead` and `MemWrite` -/

theorem memDefined_iff (addr n : Nat) :
    memDefined addr n = true ↔ (n = 2 ∨ n = 4) ∧ addr % n = 0 ∧ addr + n ≤ 50 := by
  simp only [memDefined, Bool.and_eq_true, Bool.or_eq_true, decide_eq_true_eq, and_assoc]
  rfl

theorem memRead_eq_none_iff (img : List Byte) (addr n : Nat) :
    memRead img addr n = none ↔ ¬ memDefined addr n = true := by
  unfold memRead
  split
  · next h => split <;> simp [h]
  · next h => simp [h]

/-- The first `n` bytes of a value, least significant first. -/
def fieldBytes (n : Nat) (v : Word) : List Byte := (List.range n).map fun k => v.extractLsb' (8 * k) 8

@[simp] theorem fieldBytes_length (n : Nat) (v : Word) : (fieldBytes n v).length = n := by simp [fieldBytes]

theorem le16_setWidth (v : Word) : le16 (v.setWidth 16) = fieldBytes 2 v := by
  rw [le16, BitVec.extractLsb'_setWidth_of_le (by decide), BitVec.extractLsb'_setWidth_of_le (by decide)]
  rfl

theorem le32_eq_fieldBytes (v : Word) : le32 v = fieldBytes 4 v := rfl

/-- A write puts the low bytes of the value at its offset, where it is defined. -/
theorem memWrite_eq (img : List Byte) (addr n : Nat) (v : Word) :
    memWrite img addr n v = if memDefined addr n then some (replaceBytes img addr (fieldBytes n v)) else none := by
  unfold memWrite
  split
  · next h =>
    obtain ⟨rfl | rfl, -⟩ := (memDefined_iff addr n).mp h
    · rw [if_pos rfl, le16_setWidth]
    · rw [if_neg (by decide), le32_eq_fieldBytes]
  · rfl

theorem memWrite_eq_none_iff (img : List Byte) (addr n : Nat) (v : Word) :
    memWrite img addr n v = none ↔ ¬ memDefined addr n = true := by
  simp [memWrite_eq]

@[simp] theorem replaceBytes_length (bs img : List Byte) (addr : Nat) :
    (replaceBytes img addr bs).length = img.length := by
  induction bs generalizing img addr with
  | nil => rfl
  | cons b bs ih => rw [replaceBytes, ih, List.length_set]

theorem byteAt_set_other (img : List Byte) {addr o : Nat} (b : Byte) (h : o ≠ addr) :
    byteAt (img.set addr b) o = byteAt img o := by
  simp [byteAt, List.getD_eq_getElem?_getD, List.getElem?_set_ne h.symm]

theorem byteAt_set_same {img : List Byte} {addr : Nat} (b : Byte) (h : addr < img.length) :
    byteAt (img.set addr b) addr = b := by
  simp [byteAt, h]

/-- Bytes replaced from `addr` on: outside them nothing changes. -/
theorem byteAt_replaceBytes_outside (bs img : List Byte) {addr o : Nat} (h : o < addr ∨ addr + bs.length ≤ o) :
    byteAt (replaceBytes img addr bs) o = byteAt img o := by
  induction bs generalizing img addr with
  | nil => rfl
  | cons b bs ih =>
    rw [List.length_cons] at h
    rw [replaceBytes, ih _ (by omega), byteAt_set_other _ _ (by omega)]

/-- Bytes replaced from `addr` on stand at their places. -/
theorem byteAt_replaceBytes_inside {bs img : List Byte} {addr k : Nat} (hk : k < bs.length)
    (h : addr + bs.length ≤ img.length) : byteAt (replaceBytes img addr bs) (addr + k) = bs[k] := by
  induction bs generalizing img addr k with
  | nil => cases hk
  | cons b bs ih =>
    rw [List.length_cons] at hk h
    cases k with
    | zero =>
      rw [replaceBytes, byteAt_replaceBytes_outside _ _ (by omega)]
      exact byteAt_set_same b (by omega)
    | succ k =>
      have hrest := ih (img := img.set addr b) (addr := addr + 1) (k := k) (by omega)
        (by rw [List.length_set]; omega)
      rw [replaceBytes, show addr + (k + 1) = addr + 1 + k by omega, hrest]
      rfl

/-- After a write the field's bytes are the value's (R64). -/
theorem byteAt_replaceBytes_fieldBytes {img : List Byte} {addr n k : Nat} (v : Word) (hk : k < n)
    (h : addr + n ≤ img.length) :
    byteAt (replaceBytes img addr (fieldBytes n v)) (addr + k) = v.extractLsb' (8 * k) 8 := by
  rw [byteAt_replaceBytes_inside (by simpa) (by simpa)]
  simp [fieldBytes]

/-- A field whose bytes are a value's reads as that value's low bits. -/
theorem memRead_of_bytes {img : List Byte} {addr n : Nat} {v : Word} (hdef : memDefined addr n = true)
    (hbytes : ∀ k, k < n → byteAt img (addr + k) = v.extractLsb' (8 * k) 8) :
    memRead img addr n = some (BitVec.ofNat 32 (v.toNat % 2 ^ (8 * n))) := by
  rw [memRead, if_pos hdef]
  obtain ⟨rfl | rfl, -⟩ := (memDefined_iff addr n).mp hdef
  · have hbyte {k : Nat} (hk : k + 8 ≤ 16) : v.extractLsb' k 8 = (v.setWidth 16).extractLsb' k 8 :=
      (BitVec.extractLsb'_setWidth_of_le hk).symm
    have hfield : word16 img addr = v.setWidth 16 :=
      word16_of_bytes ((hbytes 0 (by decide)).trans (hbyte (by decide)))
        ((hbytes 1 (by decide)).trans (hbyte (by decide)))
    rw [if_pos rfl, hfield]
    simp [← BitVec.toNat_inj]
  · have hfield : word32 img addr = v :=
      word32_of_bytes (hbytes 0 (by decide)) (hbytes 1 (by decide)) (hbytes 2 (by decide)) (hbytes 3 (by decide))
    rw [if_neg (by decide), hfield, Nat.mod_eq_of_lt v.isLt, BitVec.ofNat_toNat, BitVec.setWidth_eq]

/-- Settles O27: a write replaces the bytes of its field, and a field is read from its bytes. -/
theorem imageFieldAccess : Obligations.ImageFieldAccess := by
  intro img addr n v hlen
  rw [← memDefined_iff]
  refine ⟨memRead_eq_none_iff img addr n, memWrite_eq_none_iff img addr n v, fun out hwrite => ?_⟩
  rw [memWrite_eq] at hwrite
  split at hwrite
  · next hdef =>
    cases hwrite
    obtain ⟨-, -, hfits⟩ := (memDefined_iff addr n).mp hdef
    have hbytes (k : Nat) (hk : k < n) := byteAt_replaceBytes_fieldBytes (img := img) v hk (hlen ▸ hfits)
    refine ⟨by simpa, memRead_of_bytes hdef hbytes, fun k hk => ?_, fun o ho => ?_⟩
    · rw [hbytes k hk, BitVec.extractLsb'_toNat, Nat.shiftRight_eq_div_pow]
    · exact byteAt_replaceBytes_outside _ _ (by simpa)
  · cases hwrite

end Sys2Proof.Machine
end

section
/-! The saved image over every turn (20_memory.md R70), and the jerk test's read and write of the command accumulator
(R76, 70_reset_and_hazards.md R344). -/

namespace Sys2Proof.Machine

/-! ## The saved image -/

theorem statSpan_nvm : ∀ f ∈ statSpan, ∀ s, (f s).nvm = s.nvm := by simp [statSpan]

theorem zeroSpan_nvm : ∀ f ∈ zeroSpan, ∀ s, (f s).nvm = s.nvm := by simp [zeroSpan]

/-- A micro-step of a command leaves the saved image as it was, or is the save of the register file. -/
theorem MicroStep.nvm_or_save {n : NumOps} {i : Instr} {f : State → State} (h : MicroStep n i f) :
    (∀ s, (f s).nvm = s.nvm) ∨ f = State.saveImage := by
  cases h with
  | saveImage => exact .inr rfl
  | ofStat hf => exact .inl (statSpan_nvm f hf)
  | ofZero hf => exact .inl (zeroSpan_nvm f hf)
  | _ => exact .inl fun _ => rfl

/-- No save stands in the span of a command, which OPT_ATOMIC_CMD makes one micro-step (46_commands.md R243). -/
theorem span_nvm (n : NumOps) (i : Instr) : ∀ f ∈ (Instr.body n i).span, ∀ s, (f s).nvm = s.nvm := by
  cases i with
  | stat => exact statSpan_nvm
  | zero => exact zeroSpan_nvm
  | rdfb | list | help first => simp [Instr.body]
  | _ q => cases q <;> simp [Instr.body, setReg, setiBody, setInt, setjBody, State.writeJerk, State.zeroIntegral]

/-- Each micro-step of a command, a fused one too, leaves the saved image as it was or is the save of the register
file. -/
theorem microList_nvm_or_save (c : Config) (i : Instr) {f : State → State} (h : f ∈ microList c i) :
    (∀ s, (f s).nvm = s.nvm) ∨ f = State.saveImage := by
  simp only [microList, Body.microSteps, List.mem_append] at h
  rcases h with (hspan | hrest) | hend
  · refine .inl fun s => ?_
    split at hspan
    · exact fuse_induct (P := fun u => u.nvm = s.nvm) _ (fun g hg u hu => (span_nvm _ i g hg u).trans hu) f hspan s rfl
    · exact span_nvm _ i f hspan s
  · exact (microStep_body c.arith i f (List.mem_append_right _ hrest)).nvm_or_save
  · exact (microStep_epilogue c.arith i f hend).nvm_or_save

theorem exec_nvm {i : Instr} {s t : State} (h : exec i s = .next t) :
    t.nvm = s.nvm ∨ t.nvm = s.saveImage.nvm := by
  rw [exec_eq] at h
  rcases runCommand_cases i (Instr.body s.num i) s with ⟨f, hf, hr⟩ | ⟨-, hr⟩
  · cases hr.symm.trans h
    rcases microList_nvm_or_save s.cfg i (List.mem_of_getElem? hf) with hkept | rfl
    · exact .inl (hkept s)
    · exact .inr rfl
  · cases hr.symm.trans h
    exact .inl rfl

theorem State.supervise_nvm (s : State) : s.supervise.nvm = s.nvm := by rw [State.supervise_eq]

/-- FG's turn leaves the saved image as it was, or saves the register file. -/
theorem State.turn_fg_nvm {s t : State} (h : s.turn .fg = .next t) : t.nvm = s.nvm ∨ t.nvm = s.saveImage.nvm := by
  rcases State.turn_fg_cases h with rfl | ⟨-, i, -, he⟩ | ⟨-, -, rfl⟩
  · exact .inl rfl
  · exact exec_nvm he
  · exact .inl s.supervise_nvm

/-- No turn but FG's writes the saved image; reset keeps it too (70_reset_and_hazards.md R330). -/
theorem State.turn_nvm {s t : State} {e : Event} (h : s.turn e = .next t) (hfg : e ≠ .fg) : t.nvm = s.nvm := by
  rw [State.turn_eq_take hfg] at h
  cases e with
  | fg => exact absurd rfl hfg
  | envFault =>
    cases h
    split <;> rfl
  | tick =>
    cases h
    rw [s.tick_frame.1]
  | tick2 =>
    cases h
    rcases s.tick2_cases with h | ⟨-, h⟩ <;> rw [h]
  | line bytes => rcases State.deliverLine_next h with rfl | ⟨-, rfl⟩ <;> rfl
  | _ =>
    cases h
    rfl

/-- Settles O30: only FG's save of the register file writes the store, and it writes the whole image. -/
theorem loadReturnsTheLastSave : Obligations.LoadReturnsTheLastSave := by
  refine ⟨fun s img hlen => State.nvmLoad_eq rfl hlen, fun s t e h => ?_⟩
  by_cases hfg : e = .fg
  · subst hfg
    exact (State.turn_fg_nvm h).imp_right fun hsaved => ⟨rfl, State.nvmLoad_eq hsaved (image_length s.par)⟩
  · exact .inl (State.turn_nvm h hfg)

/-! ## The jerk test's read and write -/

/-- Outside the commands FG's turn is a micro-step of the program. -/
theorem State.turn_fg_supervise {s : State} (hrun : s.halted = false) (hfetch : s.fetch = none) :
    s.turn .fg = .next s.supervise := by
  rw [State.turn_fg_running hrun, fgStep, hfetch]

theorem State.fetch_jerkRead {s : State} {sub : Bool} (h : s.fg.phase = .jerkRead sub) : s.fetch = none := by
  rw [State.fetch, h]

theorem State.fetch_jerkWrite {s : State} {sub : Bool} (h : s.fg.phase = .jerkWrite sub) : s.fetch = none := by
  rw [State.fetch, h]

/-- The read of the jerk test done: the accumulator is in FG's locals (47_supervisor.md R286). -/
def State.jerkSampled (sub : Bool) (s : State) : State :=
  { s with fg := { s.fg with t := s.ctl.cmdAcc, phase := .jerkWrite sub } }

theorem State.turn_jerkRead {s : State} {sub : Bool} (hrun : s.halted = false) (hp : s.fg.phase = .jerkRead sub) :
    s.turn .fg = .next (s.jerkSampled sub) := by
  rw [State.turn_fg_supervise hrun (State.fetch_jerkRead hp), State.supervise, hp]
  rfl

/-- The write stores the value read with `jI` added or subtracted, whatever the accumulator holds now. -/
theorem State.turn_jerkWrite {s t : State} {sub : Bool} (hrun : s.halted = false) (hp : s.fg.phase = .jerkWrite sub)
    (h : s.turn .fg = .next t) :
    t.ctl.cmdAcc = s.cfg.wrapAcc (if sub then s.fg.t - s.fg.jI.toInt else s.fg.t + s.fg.jI.toInt) := by
  rw [State.turn_fg_supervise hrun (State.fetch_jerkWrite hp), State.supervise, hp] at h
  cases sub <;> cases h <;> rfl

theorem State.tick_cfg (s : State) : s.tick.cfg = s.cfg := by rw [s.tick_frame.1]

theorem State.tick_fg (s : State) : s.tick.fg = s.fg := by rw [s.tick_frame.1]

theorem State.tick_halted (s : State) : s.tick.halted = s.halted := by rw [s.tick_frame.1]

theorem runTurns_cons {e : Event} {s u : State} (h : s.turn e = .next u) (es : List Event) :
    runTurns (e :: es) s = runTurns es u := by
  rw [runTurns, h]

theorem runTurns_singleton (e : Event) (s : State) : runTurns [e] s = s.turn e := by
  cases h : s.turn e <;> simp only [runTurns, h]

/-- Settles O50: the write reads only FG's locals, which hold the value read and which a tick leaves alone. -/
theorem jerkLosesAnInterveningDelta : Obligations.JerkLosesAnInterveningDelta := by
  intro s t sub hrun hp h
  have htick : (s.jerkSampled sub).turn .tick = .next (s.jerkSampled sub).tick := rfl
  rw [runTurns_cons (State.turn_jerkRead hrun hp), runTurns_cons htick, runTurns_singleton] at h
  have hhalted : (s.jerkSampled sub).tick.halted = false := (State.tick_halted _).trans hrun
  have hphase : (s.jerkSampled sub).tick.fg.phase = .jerkWrite sub := by rw [State.tick_fg]; rfl
  have hwrite := State.turn_jerkWrite hhalted hphase h
  rwa [State.tick_cfg, State.tick_fg] at hwrite

end Sys2Proof.Machine
end

section
/-! The decimal digits of a number (30_encoding.md R99). -/

namespace Sys2Proof

/-- At least one decimal digit, most significant first, with the value `n`. -/
structure IsDigitsOf (ds : List Nat) (n : Nat) : Prop where
  ne_nil : ds ≠ []
  lt_ten : ∀ d ∈ ds, d < 10
  val : digitsVal ds = n

theorem isDigitsOf_singleton {d : Nat} (h : d < 10) : IsDigitsOf [d] d :=
  ⟨List.cons_ne_nil d [], by simpa using h, by simp [digitsVal]⟩

theorem IsDigitsOf.append_digit {ds : List Nat} {n d : Nat} (h : IsDigitsOf ds n) (hd : d < 10) :
    IsDigitsOf (ds ++ [d]) (10 * n + d) :=
  ⟨by simp, List.forall_mem_append.mpr ⟨h.lt_ten, by simpa using hd⟩, by rw [← h.val]; simp [digitsVal]⟩

/-- With fuel for the digits of `n`, they are put before what stands there. -/
theorem digitsOnto_isDigitsOf {fuel n : Nat} (hfuel : 0 < fuel) (hn : n < 10 ^ fuel) (acc : List Nat) :
    ∃ ds, digitsOnto fuel n acc = ds ++ acc ∧ IsDigitsOf ds n := by
  induction fuel generalizing n acc with
  | zero => omega
  | succ fuel ih =>
    rw [digitsOnto]
    split
    · next hlt => exact ⟨[n], rfl, isDigitsOf_singleton hlt⟩
    · next hge =>
      rw [pow_succ] at hn
      have hpos : 0 < fuel := by
        rcases Nat.eq_zero_or_pos fuel with rfl | hpos
        · omega
        · exact hpos
      obtain ⟨ds, honto, hds⟩ := ih hpos (n := n / 10) (by omega) (n % 10 :: acc)
      have hsnoc := hds.append_digit (Nat.mod_lt n (by decide))
      rw [Nat.div_add_mod] at hsnoc
      exact ⟨ds ++ [n % 10], by rw [honto, List.append_assoc]; rfl, hsnoc⟩

theorem lt_ten_pow_log2 (n : Nat) : n < 10 ^ (n.log2 + 1) :=
  Nat.lt_log2_self.trans_le (Nat.pow_le_pow_left (by decide) _)

theorem natDigits_isDigitsOf (n : Nat) : IsDigitsOf (natDigits n) n := by
  obtain ⟨ds, honto, hds⟩ := digitsOnto_isDigitsOf (Nat.succ_pos _) (lt_ten_pow_log2 n) []
  rw [natDigits, honto, List.append_nil]
  exact hds

end Sys2Proof
end

section
/-! The argument parser (30_encoding.md R99, R100, R104): what each part of the grammar takes off a byte string, when a
number is found, and the exact value of a literal. -/

namespace Sys2Proof
open Sys2Proof.Machine

/-! ## Blanks, digits and signs -/

theorem skipWs_append {blanks : List Byte} (h : ∀ b ∈ blanks, b = 0x20 ∨ b = 0x09) (l : List Byte) :
    skipWs (blanks ++ l) = skipWs l := by
  induction blanks with
  | nil => rfl
  | cons b blanks ih =>
    obtain ⟨hb, hblanks⟩ := List.forall_mem_cons.mp h
    rw [List.cons_append, skipWs, if_pos hb, ih hblanks]

theorem skipWs_of_head {l : List Byte} (h : ∀ b ∈ l.head?, ¬ (b = 0x20 ∨ b = 0x09)) : skipWs l = l := by
  cases l with
  | nil => rfl
  | cons b l => rw [skipWs, if_neg (h b rfl)]

theorem digitByte_toNat {k : Nat} (h : k < 10) : (digitByte k).toNat = 0x30 + k := by
  rw [digitByte, BitVec.toNat_ofNat, Nat.mod_eq_of_lt (by omega)]

theorem isDigit_digitByte {k : Nat} (h : k < 10) : isDigit (digitByte k) = true := by
  simp only [isDigit, digitByte_toNat h, Bool.and_eq_true, decide_eq_true_eq]
  omega

theorem digitVal_digitByte {k : Nat} (h : k < 10) : digitVal (digitByte k) = k := by
  rw [digitVal, digitByte_toNat h, Nat.add_sub_cancel_left]

theorem takeDigits_of_head {l : List Byte} (h : ∀ b ∈ l.head?, isDigit b = false) : takeDigits l = ([], l) := by
  cases l with
  | nil => rfl
  | cons b l => simp [takeDigits, h b rfl]

/-- The digits are taken up to the first byte that is none. -/
theorem takeDigits_map_append {ds : List Nat} {rest : List Byte} (hds : ∀ k ∈ ds, k < 10)
    (hrest : ∀ b ∈ rest.head?, isDigit b = false) : takeDigits (ds.map digitByte ++ rest) = (ds, rest) := by
  induction ds with
  | nil => exact takeDigits_of_head hrest
  | cons k ds ih =>
    obtain ⟨hk, hds⟩ := List.forall_mem_cons.mp hds
    simp [takeDigits, isDigit_digitByte hk, digitVal_digitByte hk, ih hds]

/-- What begins a mantissa is neither a blank nor a sign. -/
theorem head_of_startsMantissa {m : List Byte} (h : startsMantissa m = true) :
    ∃ b l, m = b :: l ∧ ¬ (b = 0x20 ∨ b = 0x09) ∧ b ≠ 0x2D ∧ b ≠ 0x2B := by
  cases m with
  | nil => cases h
  | cons b l =>
    have hb : isDigit b = true ∨ b = 0x2E := by
      cases l with
      | nil => exact .inl h
      | cons c l =>
        simp only [startsMantissa, Bool.or_eq_true, Bool.and_eq_true, beq_iff_eq] at h
        exact h.imp_right And.left
    refine ⟨b, l, rfl, ?_⟩
    rcases hb with hb | rfl
    · refine ⟨?_, ?_, ?_⟩ <;> rintro (rfl | rfl) <;> exact absurd hb (by decide)
    · decide

theorem startsMantissa_digits {ds : List Nat} (hne : ds ≠ []) (hds : ∀ k ∈ ds, k < 10) (rest : List Byte) :
    startsMantissa (ds.map digitByte ++ rest) = true := by
  obtain ⟨k, ds, rfl⟩ := List.exists_cons_of_ne_nil hne
  have hk := isDigit_digitByte (hds k List.mem_cons_self)
  cases h : ds.map digitByte ++ rest <;> simp [startsMantissa, hk, h]

theorem takeSign_of_head {l : List Byte} (h : ∀ b ∈ l.head?, b ≠ 0x2D ∧ b ≠ 0x2B) : takeSign l = (false, l) := by
  cases l with
  | nil => rfl
  | cons b l =>
    obtain ⟨hminus, hplus⟩ := h b rfl
    rw [takeSign, if_neg hminus, if_neg hplus]

theorem takeSign_signBytes_append {m : List Byte} (sign : Option Bool) (h : startsMantissa m = true) :
    takeSign (signBytes sign ++ m) = (isMinus sign, m) := by
  obtain ⟨b, l, rfl, -, hsign⟩ := head_of_startsMantissa h
  rcases sign with - | - | -
  · exact takeSign_of_head fun _ hb => Option.some.inj hb ▸ hsign
  · rfl
  · rfl

theorem skipWs_append_signBytes {blanks m : List Byte} (hblanks : ∀ b ∈ blanks, b = 0x20 ∨ b = 0x09)
    (sign : Option Bool) (h : startsMantissa m = true) :
    skipWs (blanks ++ (signBytes sign ++ m)) = signBytes sign ++ m := by
  rw [skipWs_append hblanks, skipWs_of_head]
  obtain ⟨b, l, rfl, hblank, -⟩ := head_of_startsMantissa h
  rcases sign with - | - | -
  · simpa [signBytes] using hblank
  · simp [signBytes]
  · simp [signBytes]

/-! ## The mantissa -/

theorem takeDigits_eq_nil_iff (l : List Byte) : (takeDigits l).1 = [] ↔ ∀ b ∈ l.head?, isDigit b = false := by
  cases l with
  | nil => simp [takeDigits]
  | cons b l => by_cases hb : isDigit b = true <;> simp [takeDigits, hb]

/-- Digits and a point: the fraction digits follow, and one digit is needed. -/
theorem parseMant_of_point {l r : List Byte} {i : List Nat} (h : takeDigits l = (i, 0x2E :: r)) :
    parseMant l = if i = [] ∧ (takeDigits r).1 = [] then none else some (i, (takeDigits r).1, (takeDigits r).2) := by
  rw [parseMant, h]
  exact if_pos rfl

/-- Digits and no point. -/
theorem parseMant_of_no_point {l r : List Byte} {i : List Nat} (h : takeDigits l = (i, r))
    (hr : ∀ b ∈ r.head?, b ≠ 0x2E) : parseMant l = if i = [] then none else some (i, [], r) := by
  rw [parseMant, h]
  cases r with
  | nil => rfl
  | cons b r => exact if_neg (hr b rfl)

theorem parseMant_isSome_of_digit {l : List Byte} (h : (takeDigits l).1 ≠ []) : (parseMant l).isSome = true := by
  by_cases hpoint : ∃ r, (takeDigits l).2 = 0x2E :: r
  · obtain ⟨r, hr⟩ := hpoint
    rw [parseMant_of_point (Prod.ext rfl hr), if_neg fun hno => h hno.1]
    rfl
  · have hr : ∀ b ∈ (takeDigits l).2.head?, b ≠ 0x2E := by
      rintro b hb rfl
      exact hpoint ⟨_, List.eq_cons_of_mem_head? hb⟩
    rw [parseMant_of_no_point rfl hr, if_neg h]
    rfl

/-- A mantissa is found exactly where one begins. -/
theorem parseMant_isSome (l : List Byte) : (parseMant l).isSome = startsMantissa l := by
  rcases l with - | ⟨b, l⟩
  · rfl
  by_cases hb : isDigit b = true
  · have hdigit : (takeDigits (b :: l)).1 ≠ [] := by simp [takeDigits_eq_nil_iff, hb]
    rw [parseMant_isSome_of_digit hdigit]
    cases l <;> simp [startsMantissa, hb]
  · have hnone : takeDigits (b :: l) = ([], b :: l) := takeDigits_of_head (by simpa using hb)
    by_cases hpoint : b = 0x2E
    · subst hpoint
      rw [parseMant_of_point hnone]
      rcases l with - | ⟨c, l⟩
      · rfl
      · have hstart : startsMantissa (0x2E :: c :: l) = isDigit c := rfl
        rw [hstart]
        by_cases hc : isDigit c = true <;> simp [takeDigits_eq_nil_iff, hc]
    · rw [parseMant_of_no_point hnone (by simpa using hpoint), if_pos rfl]
      cases l <;> simp_all [startsMantissa]

theorem parseMant_pointed {i f : List Nat} {rest : List Byte} (hi : ∀ k ∈ i, k < 10) (hf : ∀ k ∈ f, k < 10)
    (hne : i ++ f ≠ []) (hrest : ∀ b ∈ rest.head?, isDigit b = false) :
    parseMant (i.map digitByte ++ 0x2E :: (f.map digitByte ++ rest)) = some (i, f, rest) := by
  rw [parseMant_of_point (takeDigits_map_append hi (by simp [isDigit])), takeDigits_map_append hf hrest,
    if_neg fun hnone => hne (List.append_eq_nil_iff.mpr hnone)]

theorem parseMant_whole {i : List Nat} {rest : List Byte} (hi : ∀ k ∈ i, k < 10) (hne : i ≠ [])
    (hrest : ∀ b ∈ rest.head?, isDigit b = false) (hpoint : ∀ b ∈ rest.head?, b ≠ 0x2E) :
    parseMant (i.map digitByte ++ rest) = some (i, [], rest) := by
  rw [parseMant_of_no_point (takeDigits_map_append hi hrest) hpoint, if_neg hne]

/-! ## The exponent -/

theorem parseExp_exponentBytes (upper : Bool) (esign : Option Bool) {e : List Nat} {rest : List Byte}
    (he : ∀ k ∈ e, k < 10) (hne : e ≠ []) (hrest : ∀ b ∈ rest.head?, isDigit b = false) :
    parseExp (exponentBytes upper esign e ++ rest) = exponentValue esign e := by
  have hsign := takeSign_signBytes_append esign (startsMantissa_digits hne he rest)
  have hletter : (if upper then 0x45 else 0x65 : Byte) = 0x65 ∨ (if upper then 0x45 else 0x65 : Byte) = 0x45 := by
    cases upper <;> decide
  rw [exponentBytes, List.cons_append, List.append_assoc, parseExp, if_pos hletter, hsign,
    takeDigits_map_append he hrest, exponentValue]

/-- An `e` or `E` that no digit follows, after its sign if it has one, leaves no digits to take. -/
theorem takeDigits_of_not_startsExponent {b : Byte} {r : List Byte} (hb : b = 0x65 ∨ b = 0x45)
    (h : startsExponent (b :: r) = false) : (takeDigits (takeSign r).2).1 = [] := by
  have hbe : (b == 0x65 || b == 0x45) = true := by simpa only [Bool.or_eq_true, beq_iff_eq] using hb
  rw [takeDigits_eq_nil_iff]
  rcases r with - | ⟨c, - | ⟨d, r⟩⟩
  · simp [takeSign]
  · have hc : isDigit c = false := by simpa only [startsExponent, hbe, Bool.true_and] using h
    rw [takeSign]
    split_ifs <;> simp [hc]
  · simp only [startsExponent, hbe, Bool.true_and, Bool.or_eq_false_iff, Bool.and_eq_false_iff, beq_eq_false_iff_ne] at h
    obtain ⟨hc, hd⟩ := h
    rw [takeSign]
    split_ifs with hminus hplus
    · simpa using hd.resolve_left fun hne => hne.1 hminus
    · simpa using hd.resolve_left fun hne => hne.2 hplus
    · simpa using hc

theorem parseExp_of_not_startsExponent {rest : List Byte} (h : startsExponent rest = false) : parseExp rest = 0 := by
  cases rest with
  | nil => rfl
  | cons b r =>
    rw [parseExp]
    split_ifs with hb
    · simp [takeDigits_of_not_startsExponent hb h, digitsVal]
    · simp [takeDigits_of_not_startsExponent hb h, digitsVal]
    · rfl

/-! ## The argument -/

/-- Blanks, a sign and a mantissa: the sign and the digits are read, and the exponent from what follows. -/
theorem parseArg_of_parseMant {blanks m r : List Byte} {i f : List Nat} (sign : Option Bool)
    (hblanks : ∀ b ∈ blanks, b = 0x20 ∨ b = 0x09) (hm : parseMant m = some (i, f, r)) :
    parseArg (blanks ++ (signBytes sign ++ m)) =
      some ⟨isMinus sign, digitsVal (i ++ f), parseExp r - (f.length : Int)⟩ := by
  have hstart : startsMantissa m = true := by rw [← parseMant_isSome, hm]; rfl
  rw [parseArg, skipWs_append_signBytes hblanks sign hstart, takeSign_signBytes_append sign hstart, hm]

theorem parseArg_pointedMantissa {blanks rest : List Byte} {i f : List Nat} (sign : Option Bool)
    (hblanks : ∀ b ∈ blanks, b = 0x20 ∨ b = 0x09) (hi : ∀ k ∈ i, k < 10) (hf : ∀ k ∈ f, k < 10) (hne : i ++ f ≠ [])
    (hrest : ∀ b ∈ rest.head?, isDigit b = false) :
    parseArg (blanks ++ pointedMantissa sign i f ++ rest) =
      some ⟨isMinus sign, digitsVal (i ++ f), parseExp rest - (f.length : Int)⟩ := by
  have h := parseArg_of_parseMant sign hblanks (parseMant_pointed hi hf hne hrest)
  simpa [pointedMantissa] using h

theorem parseArg_wholeMantissa {blanks rest : List Byte} {i : List Nat} (sign : Option Bool)
    (hblanks : ∀ b ∈ blanks, b = 0x20 ∨ b = 0x09) (hi : ∀ k ∈ i, k < 10) (hne : i ≠ [])
    (hrest : ∀ b ∈ rest.head?, isDigit b = false) (hpoint : ∀ b ∈ rest.head?, b ≠ 0x2E) :
    parseArg (blanks ++ wholeMantissa sign i ++ rest) = some ⟨isMinus sign, digitsVal i, parseExp rest⟩ := by
  have h := parseArg_of_parseMant sign hblanks (parseMant_whole hi hne hrest hpoint)
  simpa [wholeMantissa] using h

theorem exponentBytes_head (upper : Bool) (esign : Option Bool) (e : List Nat) (rest : List Byte) :
    ∀ b ∈ (exponentBytes upper esign e ++ rest).head?, isDigit b = false ∧ b ≠ 0x2E := by
  cases upper <;> simp [exponentBytes, isDigit]

/-- Settles O5: each form is a mantissa with what follows it, and what follows is an exponent or begins none. -/
theorem literalParsesToItsExactValue : Obligations.LiteralParsesToItsExactValue := by
  intro blanks rest sign esign upper i f e hblanks hdigits hne hrest
  obtain ⟨hif, he⟩ := List.forall_mem_append.mp hdigits
  obtain ⟨hi, hf⟩ := List.forall_mem_append.mp hif
  have hexp := parseExp_exponentBytes upper esign he hne hrest
  have hhead := exponentBytes_head upper esign e rest
  refine ⟨fun hnif => ⟨?_, fun hnone => ?_⟩, fun hni => ⟨?_, fun hnone hpoint => ?_⟩⟩
  · rw [List.append_assoc, parseArg_pointedMantissa sign hblanks hi hf hnif fun b hb => (hhead b hb).1, hexp]
  · rw [parseArg_pointedMantissa sign hblanks hi hf hnif hrest, parseExp_of_not_startsExponent hnone, zero_sub]
  · rw [List.append_assoc, parseArg_wholeMantissa sign hblanks hi hni (fun b hb => (hhead b hb).1)
      fun b hb => (hhead b hb).2, hexp]
  · rw [parseArg_wholeMantissa sign hblanks hi hni hrest hpoint, parseExp_of_not_startsExponent hnone]

theorem startsMantissa_takeSign (l : List Byte) : startsMantissa (takeSign l).2 = startsNumber l := by
  cases l with
  | nil => rfl
  | cons b l =>
    rw [takeSign, startsNumber]
    split_ifs <;> simp_all

/-- Settles O6: the argument has a value exactly when a mantissa is found after the blanks and the sign. -/
theorem argumentIsPresentExactlyOnANumber : Obligations.ArgumentIsPresentExactlyOnANumber := by
  intro l
  rw [← startsMantissa_takeSign, ← parseMant_isSome, parseArg]
  cases parseMant (takeSign (skipWs l)).2 <;> rfl

end Sys2Proof
end

section
/-! The encoder and the opcode map (30_encoding.md R92, R95, R97, R103, R106): the literal of an exact value, and the
command of each opcode byte. -/

namespace Sys2Proof
open Sys2Proof.Machine

/-! ## The literal of an exact value -/

/-- The sign that the encoder writes. -/
def writtenSign (neg : Bool) : Option Bool := if neg then some true else none

@[simp] theorem isMinus_writtenSign (neg : Bool) : isMinus (writtenSign neg) = neg := by cases neg <;> rfl

theorem signBytes_writtenSign (neg : Bool) : signBytes (writtenSign neg) = if neg then [0x2D] else [] := by
  cases neg <;> rfl

theorem exponentValue_natDigits (x : Int) : exponentValue (writtenSign (decide (x < 0))) (natDigits x.natAbs) = x := by
  rw [exponentValue, isMinus_writtenSign, (natDigits_isDigitsOf x.natAbs).val]
  by_cases hneg : x < 0
  · rw [if_pos (decide_eq_true hneg)]
    omega
  · rw [if_neg (by simpa using hneg)]
    omega

/-- The encoder's literal is one of the grammar: a mantissa without a point, and an exponent where it is not 0. -/
theorem encodeDecimal_eq (d : Decimal) : encodeDecimal d = wholeMantissa (writtenSign d.neg) (natDigits d.mant) ++
    if d.exp = 0 then [] else exponentBytes false (writtenSign (decide (d.exp < 0))) (natDigits d.exp.natAbs) := by
  simp [encodeDecimal, wholeMantissa, exponentBytes, signBytes_writtenSign, natBytes]

theorem parseArg_encodeDecimal (d : Decimal) : parseArg (encodeDecimal d) = some d := by
  obtain ⟨hne, hlt, hval⟩ := natDigits_isDigitsOf d.mant
  have hwhole (rest : List Byte) (hrest : ∀ b ∈ rest.head?, isDigit b = false ∧ b ≠ 0x2E) :
      parseArg (wholeMantissa (writtenSign d.neg) (natDigits d.mant) ++ rest) = some ⟨d.neg, d.mant, parseExp rest⟩ := by
    have h := parseArg_wholeMantissa (blanks := []) (writtenSign d.neg) (by simp) hlt hne
      (fun b hb => (hrest b hb).1) fun b hb => (hrest b hb).2
    rwa [List.nil_append, isMinus_writtenSign, hval] at h
  rw [encodeDecimal_eq]
  split
  · next hexp =>
    rw [hwhole [] (by simp), parseExp_of_not_startsExponent rfl, ← hexp]
  · obtain ⟨hne', hlt', -⟩ := natDigits_isDigitsOf d.exp.natAbs
    have hhead := exponentBytes_head false (writtenSign (decide (d.exp < 0))) (natDigits d.exp.natAbs) []
    have hexp := parseExp_exponentBytes false (writtenSign (decide (d.exp < 0))) (rest := []) hlt' hne' (by simp)
    rw [List.append_nil] at hhead hexp
    rw [hwhole _ hhead, hexp, exponentValue_natDigits]

theorem parseArg_encodeArg (q : Option Decimal) : parseArg (encodeArg q) = q := by
  cases q with
  | none => rfl
  | some d => exact parseArg_encodeDecimal d

/-! ## The opcode map -/

section
variable (arg : List Byte)

theorem decodeLine_setp : decodeLine (0x70 :: arg) = .setp (parseArg arg) := rfl
theorem decodeLine_seti : decodeLine (0x69 :: arg) = .seti (parseArg arg) := rfl
theorem decodeLine_setd : decodeLine (0x64 :: arg) = .setd (parseArg arg) := rfl
theorem decodeLine_setff0 : decodeLine (0x30 :: arg) = .setff0 (parseArg arg) := rfl
theorem decodeLine_setff1 : decodeLine (0x31 :: arg) = .setff1 (parseArg arg) := rfl
theorem decodeLine_setb : decodeLine (0x62 :: arg) = .setb (parseArg arg) := rfl
theorem decodeLine_setm : decodeLine (0x6D :: arg) = .setm (parseArg arg) := rfl
theorem decodeLine_setf : decodeLine (0x66 :: arg) = .setf (parseArg arg) := rfl
theorem decodeLine_setx : decodeLine (0x78 :: arg) = .setx (parseArg arg) := rfl
theorem decodeLine_sett : decodeLine (0x74 :: arg) = .sett (parseArg arg) := rfl
theorem decodeLine_setj : decodeLine (0x6A :: arg) = .setj (parseArg arg) := rfl
theorem decodeLine_rdfb : decodeLine (0x65 :: arg) = .rdfb := rfl
theorem decodeLine_list : decodeLine (0x6C :: arg) = .list := rfl
theorem decodeLine_stat : decodeLine (0x73 :: arg) = .stat := rfl
theorem decodeLine_zero : decodeLine (0x72 :: arg) = .zero := rfl

/-- The opcode map has a row for each command letter and no other. -/
theorem lookup_opcodeTable_eq_none_iff (b : Byte) : opcodeTable.lookup b = none ↔ b ∉ commandLetters := by
  have hkeys : commandLetters = opcodeTable.map Prod.fst := rfl
  simp only [hkeys, List.lookup_eq_none_iff, List.mem_map, not_exists, not_and, bne_iff_ne]
  exact forall₂_congr fun _ _ => ne_comm

theorem decodeLine_help {b : Byte} (h : b ∉ commandLetters) : decodeLine (b :: arg) = .help (some b) := by
  rw [decodeLine, (lookup_opcodeTable_eq_none_iff b).mpr h]

theorem decodeLine_letter {b : Byte} (h : b ∈ commandLetters) (first : Option Byte) :
    decodeLine (b :: arg) ≠ .help first := by
  simp only [commandLetters, List.mem_cons, List.not_mem_nil, or_false] at h
  rcases h with rfl | rfl | rfl | rfl | rfl | rfl | rfl | rfl | rfl | rfl | rfl | rfl | rfl | rfl | rfl <;>
    exact Instr.noConfusion

end

/-- R97: a line is `help` exactly when it is empty or begins with no command letter. -/
theorem decodeLine_eq_help_iff (l : List Byte) :
    (∃ first, decodeLine l = .help first) ↔ l = [] ∨ ∃ b arg, l = b :: arg ∧ b ∉ commandLetters := by
  cases l with
  | nil => exact iff_of_true ⟨none, rfl⟩ (.inl rfl)
  | cons b arg =>
    by_cases hb : b ∈ commandLetters
    · simp [decodeLine_letter arg hb, hb]
    · simp [decodeLine_help arg hb, hb]

/-- Settles O1: the opcode map gives back the constructor, and the literal parses to the operand. -/
theorem decodeOfEncodeIsTheCommand : Obligations.DecodeOfEncodeIsTheCommand := by
  intro i hwf
  cases i with
  | setp q | seti q | setd q | setff0 q | setff1 q | setb q | setm q | setf q | setx q | sett q | setj q =>
    conv_rhs => rw [← parseArg_encodeArg q]
    rfl
  | rdfb | list | stat | zero => rfl
  | help first =>
    cases first with
    | none => rfl
    | some b => exact decodeLine_help [] (by simpa [Instr.wellFormed] using hwf)

/-- Settles O2, by running the decoder on each line. -/
theorem writtenWordsDecodeToTheirCommands : Obligations.WrittenWordsDecodeToTheirCommands := by
  unfold Obligations.WrittenWordsDecodeToTheirCommands
  decide

/-- R97: no micro-step of `HELP` writes a register of `P`, `S`, `J` or `T`. -/
theorem exec_help_registers {first : Option Byte} {s t : State} (h : exec (.help first) s = .next t) :
    t.par = s.par ∧ t.ctl = s.ctl ∧ t.jerk = s.jerk ∧ t.trk = s.trk := by
  rw [exec_eq] at h
  obtain ⟨u, hu, ⟨n, k, rfl⟩ | rfl⟩ := runCommand_induct
    (P := fun u => u.par = s.par ∧ u.ctl = s.ctl ∧ u.jerk = s.jerk ∧ u.trk = s.trk) h
    (by simp +contextual [Instr.body, epilogue, epilogueDumps, State.emitHelp]) ⟨rfl, rfl, rfl, rfl⟩
  · exact hu
  · exact hu

/-- Settles O3: the opcode map row by row, the lines that are `help`, and what `help` writes. -/
theorem opcodeByteSelectsTheCommand : Obligations.OpcodeByteSelectsTheCommand :=
  ⟨fun arg => ⟨decodeLine_setp arg, decodeLine_seti arg, decodeLine_setd arg, decodeLine_setff0 arg,
    decodeLine_setff1 arg, decodeLine_setb arg, decodeLine_setm arg, decodeLine_setf arg, decodeLine_setx arg,
    decodeLine_sett arg, decodeLine_setj arg, decodeLine_rdfb arg, decodeLine_list arg, decodeLine_stat arg,
    decodeLine_zero arg⟩, decodeLine_eq_help_iff, fun _ _ _ => exec_help_registers⟩

end Sys2Proof
end

section
/-! The operands (30_encoding.md R101, R102): the guards on the exponent that keep the powers small (log 16) are not
seen in the result. -/

namespace Sys2Proof
open Sys2Proof.Machine

/-! ## The integer operand -/

/-- The integer part of the magnitude of an exact decimal. -/
def Decimal.magInt (d : Decimal) : Nat := d.mant * 10 ^ d.exp.toNat / 10 ^ (-d.exp).toNat

theorem truncIntExact_eq (d : Decimal) : truncIntExact d = if d.neg then -(d.magInt : Int) else d.magInt := rfl

/-- A mantissa that is not 0, with an exponent from `e` on, gives an integer part from `10^e` on. -/
theorem Decimal.le_magInt {d : Decimal} {e : Nat} (hmant : d.mant ≠ 0) (hexp : (e : Int) ≤ d.exp) :
    10 ^ e ≤ d.magInt := by
  have hneg : (-d.exp).toNat = 0 := by omega
  rw [Decimal.magInt, hneg, pow_zero, Nat.div_one]
  calc 10 ^ e ≤ 10 ^ d.exp.toNat := Nat.pow_le_pow_right (by decide) (by omega)
    _ ≤ d.mant * 10 ^ d.exp.toNat := Nat.le_mul_of_pos_left _ (Nat.pos_of_ne_zero hmant)

/-- With an exponent this low no integer part is left. -/
theorem Decimal.magInt_eq_zero {d : Decimal} (hexp : d.exp ≤ -(d.mant.log2 + 1 : Nat)) : d.magInt = 0 := by
  have hpos : d.exp.toNat = 0 := by omega
  rw [Decimal.magInt, hpos, pow_zero, Nat.mul_one, Nat.div_eq_zero_iff]
  exact .inr ((lt_ten_pow_log2 d.mant).trans_le (Nat.pow_le_pow_right (by decide) (by omega)))

theorem clampInt_of_ge {x lo hi : Int} (h : hi ≤ x) : clampInt x lo hi = hi := by
  unfold clampInt
  omega

theorem clampInt_of_le {x lo hi : Int} (hle : lo ≤ hi) (h : x ≤ lo) : clampInt x lo hi = lo := by
  unfold clampInt
  omega

/-- Two decimals of one sign, whose magnitudes are the same or both beyond the bounds, are clamped alike. -/
theorem clampInt_truncIntExact_congr {c d : Decimal} {lo hi : Int} (hneg : c.neg = d.neg) (hlo : -(10 ^ 9) ≤ lo)
    (hle : lo ≤ hi) (hhi : hi ≤ 10 ^ 9) (h : c.magInt = d.magInt ∨ 10 ^ 9 ≤ c.magInt ∧ 10 ^ 9 ≤ d.magInt) :
    clampInt (truncIntExact c) lo hi = clampInt (truncIntExact d) lo hi := by
  rw [truncIntExact_eq, truncIntExact_eq, hneg]
  rcases h with heq | ⟨hc, hd⟩
  · rw [heq]
  · split
    · rw [clampInt_of_le hle (by omega), clampInt_of_le hle (by omega)]
    · rw [clampInt_of_ge (by omega), clampInt_of_ge (by omega)]

/-- The limit on the exponent keeps the integer part, or leaves it beyond the bounds of every clamp. -/
theorem magInt_limitExp (d : Decimal) :
    (limitExp d).magInt = d.magInt ∨ 10 ^ 9 ≤ (limitExp d).magInt ∧ 10 ^ 9 ≤ d.magInt := by
  have hexp : (limitExp d).exp = max (min d.exp 9) (-(d.mant.log2 + 1 : Nat)) := rfl
  have hmant : (limitExp d).mant = d.mant := rfl
  by_cases hzero : d.mant = 0
  · exact .inl (by simp [Decimal.magInt, hmant, hzero])
  by_cases hhigh : 9 < d.exp
  · exact .inr ⟨Decimal.le_magInt (hmant ▸ hzero) (by omega), Decimal.le_magInt hzero (by omega)⟩
  by_cases hlow : d.exp < -(d.mant.log2 + 1 : Nat)
  · exact .inl (by rw [Decimal.magInt_eq_zero (d := limitExp d) (by rw [hmant]; omega), Decimal.magInt_eq_zero hlow.le])
  · have hsame : (limitExp d).exp = d.exp := by omega
    exact .inl (by rw [Decimal.magInt, Decimal.magInt, hmant, hsame])

/-- Settles O7: the limit changes the integer part only where the clamp gives its bound. -/
theorem integerOperandClampIsExact : Obligations.IntegerOperandClampIsExact := by
  intro d lo hi hlo hle hhi
  exact congrArg (BitVec.ofInt 16) (clampInt_truncIntExact_congr rfl hlo hle hhi (magInt_limitExp d))

/-! ## The float operand -/

/-- What lies below half of the least magnitude rounds to zero. -/
theorem NearestEven.eq_zero_of_lt {mag : Nat} {x : ℚ} (h : NearestEven mag x) (h0 : 0 ≤ x) (hx : x < 2 ^ (-150 : ℤ)) :
    mag = 0 := by
  by_contra hmag
  have hleast : (2 : ℚ) ^ (-149 : ℤ) ≤ magValue mag := by
    have hone : magValue 1 = 2 ^ (-149 : ℤ) := by norm_num [magValue]
    exact hone ▸ magValue_strictMono.monotone (Nat.one_le_iff_ne_zero.mpr hmag)
  have htwice : (2 : ℚ) ^ (-149 : ℤ) = 2 * 2 ^ (-150 : ℤ) := by norm_num
  obtain ⟨hnear, -⟩ := h 0
  rw [magValue_zero, zero_sub, abs_neg, abs_of_nonneg h0, abs_of_nonneg] at hnear <;> linarith

theorem roundRatio_eq_zero_of_lt {num den : Nat} (hd : 0 < den) (h : (num : ℚ) / den < 2 ^ (-150 : ℤ)) :
    roundRatio num den = 0 := by
  obtain ⟨mag, hnear, hr⟩ := roundRatio_spec num hd
  rw [hr, hnear.eq_zero_of_lt (by positivity) h, Nat.min_zero]

theorem roundRatio_of_huge {mant : Nat} {exp : Int} (hmant : mant ≠ 0) (hexp : 40 < exp) :
    roundRatio (mant * 10 ^ exp.toNat) (10 ^ (-exp).toNat) = infBits := by
  have hneg : (-exp).toNat = 0 := by omega
  have hbig : 10 ^ 41 ≤ mant * 10 ^ exp.toNat :=
    (Nat.pow_le_pow_right (by decide) (by omega)).trans (Nat.le_mul_of_pos_left _ (Nat.pos_of_ne_zero hmant))
  rw [hneg, pow_zero, roundRatio_eq_infBits_iff _ one_pos, Nat.cast_one, div_one]
  calc ((2 ^ 25 - 1) * 2 ^ 103 : ℚ) ≤ (10 ^ 41 : Nat) := by norm_num
    _ ≤ _ := by exact_mod_cast hbig

theorem roundRatio_of_tiny {mant : Nat} {exp : Int} (hexp : exp + (mant.log2 + 1 : Nat) < -60) :
    roundRatio (mant * 10 ^ exp.toNat) (10 ^ (-exp).toNat) = 0 := by
  have hpos : exp.toNat = 0 := by omega
  have hden : mant * 10 ^ 60 < 10 ^ (-exp).toNat :=
    calc mant * 10 ^ 60 < 10 ^ (mant.log2 + 1) * 10 ^ 60 :=
          Nat.mul_lt_mul_of_pos_right (lt_ten_pow_log2 mant) (by positivity)
      _ = 10 ^ (mant.log2 + 1 + 60) := (pow_add _ _ _).symm
      _ ≤ 10 ^ (-exp).toNat := Nat.pow_le_pow_right (by decide) (by omega)
  have hq : (mant : ℚ) * 10 ^ 60 < (10 ^ (-exp).toNat : Nat) := by exact_mod_cast hden
  refine roundRatio_eq_zero_of_lt (by positivity) ?_
  rw [hpos, pow_zero, Nat.mul_one, div_lt_iff₀ (by positivity)]
  have hsmall : (1 : ℚ) < 2 ^ (-150 : ℤ) * 10 ^ 60 := by norm_num
  nlinarith

/-- `decToNum` of binary32 is one rounding of the exact decimal (R101). -/
theorem Num32.ofDecimal_eq (neg : Bool) (mant : Nat) (exp : Int) : Num32.ofDecimal neg mant exp =
    Num32.pack neg (roundRatio (mant * 10 ^ exp.toNat) (10 ^ (-exp).toNat)) := by
  unfold Num32.ofDecimal
  split_ifs with hzero hhuge htiny
  · rw [hzero, Nat.zero_mul, roundRatio_zero]
  · rw [roundRatio_of_huge hzero hhuge]
  · rw [roundRatio_of_tiny htiny]
  · exact Num32.ofRatio_eq neg _ (by positivity)

/-- Settles O8: under binary32 the operand is `ofDecimal`. -/
theorem floatOperandIsRoundedOnce : Obligations.FloatOperandIsRoundedOnce := by
  intro s d hnum
  have harith : s.num = Num32.ops := by rw [State.num, Config.arith, hnum]
  rw [harith]
  exact Num32.ofDecimal_eq d.neg d.mant d.exp

end Sys2Proof
end

section
/-! A whole command with nothing between its micro-steps, under either value of OPT_ATOMIC_CMD, and what the line of
each letter writes (30_encoding.md R96, 46_commands.md R242, R253, R256). -/

namespace Sys2Proof.Machine

/-! ## The effect of a whole command -/

theorem foldl_fuse (fs : List (State → State)) (s : State) :
    (fuse fs).foldl (fun t f => f t) s = fs.foldl (fun t f => f t) s := by
  cases fs <;> rfl

/-- Fused or not, the micro-steps of a body have one effect. -/
theorem foldl_microSteps (c : Config) (b : Body) (s : State) :
    (b.microSteps c).foldl (fun t f => f t) s = (b.span ++ b.rest).foldl (fun t f => f t) s := by
  rw [Body.microSteps, List.foldl_append, List.foldl_append]
  split
  · rw [foldl_fuse]
  · rfl

theorem foldl_microList (i : Instr) (s : State) :
    (microList s.cfg i).foldl (fun t f => f t) s = (commandEffect i s).lineReset.emit .prompt := by
  rw [microList, List.foldl_append, foldl_microSteps]
  cases i with
  | rdfb | list | stat | zero | help => rfl
  | _ q => cases q <;> rfl

/-- From its start a command runs to its end and leaves its whole effect, the line reset and the prompt. -/
theorem execRun_commandEffect (i : Instr) {s : State} (h : s.atCommandStart) :
    ∃ n, execRun i n s = .next ((commandEffect i s).commandDone i) := by
  refine ⟨_, (execRun_whole i s h).trans ?_⟩
  rw [foldl_microList]
  rfl

/-! ## The registers of `P` -/

theorem Params.getFloat_setFloat (p : Params) (r q : FloatReg) (v : Num32) :
    (p.setFloat r v).getFloat q = if q = r then v else p.getFloat q := by
  cases r <;> cases q <;> rfl

theorem Params.setFloat_cmdMultiplier (p : Params) (r : FloatReg) (v : Num32) :
    (p.setFloat r v).cmdMultiplier = p.cmdMultiplier := by
  cases r <;> rfl

theorem Params.setFloat_ticksPerServoCycle (p : Params) (r : FloatReg) (v : Num32) :
    (p.setFloat r v).ticksPerServoCycle = p.ticksPerServoCycle := by
  cases r <;> rfl

/-- `SAVE` writes of `P` only the checksum. -/
theorem State.saved_getFloat (s : State) (q : FloatReg) : s.saved.par.getFloat q = s.par.getFloat q := by
  cases q <;> rfl

/-! ## The line of a letter -/

/-- What a letter's command with a value does up to its line reset and prompt, by the register it addresses; the
integral gain's also zeroes the integral (R246). -/
def LetterReg.effect (d : Decimal) (s : State) : LetterReg → State
  | .float r =>
    ((if r = .igain then s.zeroIntegral else s).writeFloat r (s.num.decToNum d)).saved.emitDump
  | .multiplier => (s.writeMultiplier (clampOperand d 1 22)).saved.emitDump
  | .ticks => (s.writeTicks (clampOperand d 1 100)).saved.emitDump
  | .jerk => s.writeJerk (s.num.decToNum d)

/-- A line of a letter with a value is the command of the letter's register, row by row of R96. -/
theorem commandEffect_letterLine {b : Byte} {arg : List Byte} {d : Decimal} {reg : LetterReg} (s : State)
    (harg : parseArg arg = some d) (hreg : letterReg b = some reg) :
    commandEffect (decodeLine (b :: arg)) s = reg.effect d s := by
  obtain ⟨before, after, hrows, -⟩ := List.lookup_eq_some_iff.mp hreg
  have hmem : (b, reg) ∈ before ++ (b, reg) :: after := List.mem_append_right before List.mem_cons_self
  rw [← hrows] at hmem
  simp only [List.mem_cons, List.not_mem_nil, or_false, Prod.mk.injEq] at hmem
  rcases hmem with ⟨rfl, rfl⟩ | ⟨rfl, rfl⟩ | ⟨rfl, rfl⟩ | ⟨rfl, rfl⟩ | ⟨rfl, rfl⟩ | ⟨rfl, rfl⟩ | ⟨rfl, rfl⟩ |
    ⟨rfl, rfl⟩ | ⟨rfl, rfl⟩ | ⟨rfl, rfl⟩ | ⟨rfl, rfl⟩ <;>
    simp only [decodeLine_setp, decodeLine_seti, decodeLine_setd, decodeLine_setff0, decodeLine_setff1, decodeLine_setb,
      decodeLine_setm, decodeLine_setf, decodeLine_setx, decodeLine_sett, decodeLine_setj, harg] <;>
    rfl

/-- The line of a letter runs to its end and leaves the effect of the letter's register. -/
theorem execRun_letterLine {b : Byte} {arg : List Byte} {d : Decimal} {reg : LetterReg} {s : State}
    (harg : parseArg arg = some d) (hs : s.atCommandStart) (hreg : letterReg b = some reg) :
    ∃ n t, execRun (decodeLine (b :: arg)) n s = .next t ∧ t.fg.phase = .jerkTest ∧
      t.par = (reg.effect d s).par ∧ t.jerk = (reg.effect d s).jerk := by
  obtain ⟨n, hrun⟩ := execRun_commandEffect (decodeLine (b :: arg)) hs
  rw [commandEffect_letterLine s harg hreg] at hrun
  exact ⟨n, _, hrun, rfl, rfl, rfl⟩

section
variable (d : Decimal) (s : State) (r q : FloatReg)

theorem LetterReg.effect_float_par : ((LetterReg.float r).effect d s).par =
    ((s.writeFloat r (s.num.decToNum d)).saved).par := by
  rw [LetterReg.effect]
  split <;> rfl

theorem LetterReg.effect_float_jerk : ((LetterReg.float r).effect d s).jerk = s.jerk := by
  rw [LetterReg.effect]
  split <;> rfl

theorem LetterReg.effect_multiplier_getFloat :
    (LetterReg.multiplier.effect d s).par.getFloat q = s.par.getFloat q := by
  cases q <;> rfl

theorem LetterReg.effect_ticks_getFloat : (LetterReg.ticks.effect d s).par.getFloat q = s.par.getFloat q := by
  cases q <;> rfl

end

/-- Settles O4: the line runs to its end, and the effect of each kind of register is read field by field. -/
theorem letterLineWritesItsRegister : Obligations.LetterLineWritesItsRegister := by
  intro b arg d s harg hs
  refine ⟨fun r hreg => ?_, fun hreg => ?_, fun hreg => ?_, fun hreg => ?_⟩ <;>
    obtain ⟨n, t, hrun, hphase, hpar, hjerk⟩ := execRun_letterLine harg hs hreg <;>
    refine ⟨n, t, hrun, hphase, ?_⟩
  · rw [LetterReg.effect_float_par] at hpar
    have hget (q : FloatReg) : t.par.getFloat q = if q = r then s.num.decToNum d else s.par.getFloat q := by
      rw [hpar, State.saved_getFloat, State.writeFloat_par, Params.getFloat_setFloat]
    refine ⟨by rw [hget, if_pos rfl], fun q hq => by rw [hget, if_neg hq], ?_, ?_, ?_⟩
    · rw [hpar]
      exact Params.setFloat_cmdMultiplier s.par r _
    · rw [hpar]
      exact Params.setFloat_ticksPerServoCycle s.par r _
    · rw [hjerk, LetterReg.effect_float_jerk]
  · exact ⟨by rw [hpar]; rfl, fun q => by rw [hpar, LetterReg.effect_multiplier_getFloat], by rw [hpar]; rfl, hjerk⟩
  · exact ⟨by rw [hpar]; rfl, fun q => by rw [hpar, LetterReg.effect_ticks_getFloat], by rw [hpar]; rfl, hjerk⟩
  · exact ⟨hjerk, hpar⟩

end Sys2Proof.Machine
end

section
/-! The PID engine (42_pid.md R141 to R152): what each of its steps writes, each register after the whole engine, and
the period under binary32. -/

namespace Sys2Proof.Machine

/-! ## What each step writes -/

/-- The optional clamp of R146, R147, R149 and R150: to the magnitude of a register, where its option is on. -/
def clampIf (n : NumOps) (on : Bool) (v m : Num32) : Num32 := if on then n.clampNum v (n.abs m) else v

section
variable (s : State)

/-- The sum of step 4 (R145) for the error in use, before its clamp. -/
def State.integralSum (use : Accum) : Num32 :=
  s.num.add s.ctl.errorIntegral (s.num.mul (s.num.ofInt use) s.periodS)

/-- The rate of steps 5 and 6 (R147, R148) at which a register has moved by `x`, before its clamp. -/
def State.rate (x : Int) : Num32 := s.num.mul (s.num.ofInt (s.cfg.wrapAcc x)) s.invPeriodS

theorem State.pidMaxError_ctl_maxObservedError :
    s.pidMaxError.ctl.maxObservedError = max s.ctl.maxObservedError s.ctl.error.natAbs := rfl

theorem State.pidIntegral_ctl_errorIntegral : s.pidIntegral.ctl.errorIntegral =
    clampIf s.num s.cfg.optIntClamp (s.integralSum s.errorUsed) s.par.maxIntegralError := rfl

theorem State.pidErrorDerivative_ctl_errorDerivative : s.pidErrorDerivative.ctl.errorDerivative =
    clampIf s.num s.cfg.optDerivClamp (s.rate (s.errorUsed - s.ctl.prevError)) s.par.maxDerivError := rfl

theorem State.pidCommandDerivative_ctl_commandDerivative : s.pidCommandDerivative.ctl.commandDerivative =
    clampIf s.num s.cfg.optDerivClamp (s.rate (s.ctl.cmdAcc - s.ctl.prevCommand)) s.par.maxCmdDeriv := rfl

theorem State.pidOutput_ctl_output :
    s.pidOutput.ctl.output = clampIf s.num s.cfg.optOutClamp s.pidSum s.par.maxOutput := rfl

theorem State.pidFault_ctl : s.pidFault.ctl = { s.ctl with fault := s.positionFault || s.ctl.fault } := by
  rcases s.pidFault_eq with ⟨hover, h⟩ | ⟨hover, h⟩ <;> simp [h, hover]

theorem State.pidFault_xlog :
    s.pidFault.xlog = s.xlog ++ if s.positionFault then [.positionFault s.ctl.error] else [] := by
  rcases s.pidFault_eq with ⟨hover, h⟩ | ⟨hover, h⟩ <;> simp [h, hover]

/-! ## What the steps read -/

theorem State.errorUsed_congr {s t : State} (hcfg : t.cfg = s.cfg) (hpar : t.par = s.par)
    (herror : t.ctl.error = s.ctl.error) : t.errorUsed = s.errorUsed := by
  simp [State.errorUsed, State.num, hcfg, hpar, herror]

theorem State.pidFault_pidSum : s.pidFault.pidSum = s.pidSum := by
  rcases s.pidFault_eq with ⟨-, h⟩ | ⟨-, h⟩
  · rw [h]
    rfl
  · rw [h]

theorem State.pidFault_positionFault : s.pidFault.positionFault = s.positionFault := by
  rcases s.pidFault_eq with ⟨-, h⟩ | ⟨-, h⟩
  · rw [h]
    rfl
  · rw [h]

/-! ## The registers after the whole engine -/

@[simp] theorem State.pid_cfg : s.pid.cfg = s.cfg := by
  obtain ⟨c, x, h, -⟩ := s.pid_eq
  rw [h]

@[simp] theorem State.pid_par : s.pid.par = s.par := by
  obtain ⟨c, x, h, -⟩ := s.pid_eq
  rw [h]

@[simp] theorem State.pid_num : s.pid.num = s.num := by
  rw [State.num, State.pid_cfg, ← State.num]

/-- R152: the engine writes controller registers and the record, and leaves the accumulators and the flags. -/
theorem State.pid_frame : s.pid.ctl.cmdAcc = s.ctl.cmdAcc ∧ s.pid.ctl.fbAcc = s.ctl.fbAcc ∧
    s.pid.ctl.enabled = s.ctl.enabled ∧ s.pid.ctl.inLimit = s.ctl.inLimit ∧
    s.pid = { s with ctl := s.pid.ctl, xlog := s.pid.xlog } := by
  obtain ⟨c, x, h, henabled, hcmd, hfb, hlimit, -⟩ := s.pid_eq
  rw [h]
  exact ⟨hcmd, hfb, henabled, hlimit, rfl⟩

theorem State.pid_ctl_error : s.pid.ctl.error = s.cfg.wrapAcc (s.ctl.cmdAcc - s.ctl.fbAcc) := by
  simp [State.pid, State.pidFault_ctl]

/-- The error in use is a function of the raw error, which no step after step 2 writes. -/
theorem State.pid_errorUsed : s.pid.errorUsed = s.pidError.errorUsed :=
  State.errorUsed_congr (by simp) (by simp) (by simp [State.pid_ctl_error])

/-- R142, R143. -/
theorem State.pid_errorUsed_eq_ite : s.pid.errorUsed =
    if s.cfg.optDeadband = true ∧ s.num.lt (s.num.ofInt s.pid.ctl.error.natAbs) s.par.deadband = true
    then 0 else s.pid.ctl.error := by
  simp [State.errorUsed, absInt]

theorem State.pid_ctl_maxObservedError :
    s.pid.ctl.maxObservedError = max s.ctl.maxObservedError s.pid.ctl.error.natAbs := by
  simp [State.pid, State.pidFault_ctl, State.pidMaxError_ctl_maxObservedError]

theorem State.pid_ctl_prevError : s.pid.ctl.prevError = s.pid.errorUsed := by
  rw [State.pid_errorUsed, State.pid, State.pidFault_ctl]
  rfl

theorem State.pid_ctl_prevCommand : s.pid.ctl.prevCommand = s.ctl.cmdAcc := by
  simp [State.pid, State.pidFault_ctl]

theorem State.pid_ctl_errorIntegral : s.pid.ctl.errorIntegral =
    clampIf s.num s.cfg.optIntClamp (s.integralSum s.pid.errorUsed) s.par.maxIntegralError := by
  rw [State.pid_errorUsed, State.pid, State.pidFault_ctl]
  exact State.pidIntegral_ctl_errorIntegral s.pidError.pidMaxError

theorem State.pid_ctl_errorDerivative : s.pid.ctl.errorDerivative =
    clampIf s.num s.cfg.optDerivClamp (s.rate (s.pid.errorUsed - s.ctl.prevError)) s.par.maxDerivError := by
  rw [State.pid_errorUsed, State.pid, State.pidFault_ctl]
  exact State.pidErrorDerivative_ctl_errorDerivative s.pidError.pidMaxError.pidIntegral

theorem State.pid_ctl_commandDerivative : s.pid.ctl.commandDerivative =
    clampIf s.num s.cfg.optDerivClamp (s.rate (s.ctl.cmdAcc - s.ctl.prevCommand)) s.par.maxCmdDeriv := by
  rw [State.pid, State.pidFault_ctl]
  exact State.pidCommandDerivative_ctl_commandDerivative s.pidError.pidMaxError.pidIntegral.pidErrorDerivative

/-- The sum of step 7 (R150) reads nothing that step 7 or 8 writes. -/
theorem State.pid_ctl_output :
    s.pid.ctl.output = clampIf s.num s.cfg.optOutClamp s.pid.pidSum s.par.maxOutput := by
  rw [State.pid, State.pidFault_pidSum, State.pidFault_ctl]
  exact State.pidOutput_ctl_output
    s.pidError.pidMaxError.pidIntegral.pidErrorDerivative.pidCommandDerivative

/-- R150: each product is rounded, and the sums from left to right. -/
theorem State.pid_pidSum : s.pid.pidSum =
    s.num.add (s.num.add (s.num.add (s.num.add (s.num.mul s.par.pgain (s.num.ofInt s.pid.errorUsed))
      (s.num.mul s.par.igain s.pid.ctl.errorIntegral)) (s.num.mul s.par.dgain s.pid.ctl.errorDerivative))
      (s.num.mul s.par.ff0gain (s.num.ofInt s.ctl.cmdAcc)))
      (s.num.mul s.par.ff1gain s.pid.ctl.commandDerivative) := by
  simp [State.pidSum, s.pid_frame.1]

theorem State.faultThreshold_eq_ite : s.faultThreshold =
    if s.cfg.optFaultLimit = .maxOutput then s.par.maxOutput else s.par.maxError := by
  unfold State.faultThreshold
  split <;> simp [*]

/-- R151: the check is on the raw error. -/
theorem State.pid_positionFault : s.pid.positionFault = s.num.gt (s.num.ofInt s.pid.ctl.error.natAbs)
    (if s.cfg.optFaultLimit = .maxOutput then s.par.maxOutput else s.par.maxError) := by
  simp [State.positionFault, State.faultThreshold_eq_ite, absInt]

theorem State.pid_ctl_fault : s.pid.ctl.fault = (s.pid.positionFault || s.ctl.fault) := by
  rw [State.pid, State.pidFault_positionFault]
  simp [State.pidFault_ctl]

theorem State.pid_xlog : s.pid.xlog =
    s.xlog ++ if s.pid.positionFault then [.positionFault s.pid.ctl.error] else [] := by
  rw [State.pid, State.pidFault_positionFault]
  simp [State.pidFault_ctl, State.pidFault_xlog]

end

/-! ## The period -/

/-- R141: under binary32 a positive period and its inverse are the exact quotients, each rounded once. -/
theorem State.period_binary32 {s : State} (hnum : s.cfg.num = .binary32) (hpos : 0 < s.periodNs) :
    s.periodS = Num32.pack false (roundRatio s.periodNs (10 ^ 9)) ∧
      s.invPeriodS = Num32.pack false (roundRatio (10 ^ 9) s.periodNs) := by
  have harith : s.num = Num32.ops := Config.arith_binary32 hnum
  rw [State.periodS, State.invPeriodS, harith, Num32.ops_ofRatio]
  exact ⟨Num32.ofRatio_eq false _ (by norm_num), Num32.ofRatio_eq false _ hpos⟩

/-- Settles O17: each register is what its own step writes, and no later step touches it; the period is one rounding,
evaluated at the examples of R141. -/
theorem pidWritesItsRegisters : Obligations.PidWritesItsRegisters := by
  refine ⟨fun s => ?_, fun s hnum hticks hsub => ?_⟩
  · refine ⟨s.pid, rfl, s.pid_ctl_error, s.pid_ctl_maxObservedError,
      ⟨s.pid.errorUsed, s.pid_errorUsed_eq_ite, s.pid_ctl_prevError, ⟨_, rfl, s.pid_ctl_errorIntegral⟩,
        ⟨_, rfl, s.pid_ctl_errorDerivative⟩, ⟨_, rfl, s.pid_ctl_commandDerivative⟩, s.pid_ctl_prevCommand,
        ⟨_, s.pid_pidSum, s.pid_ctl_output⟩⟩,
      fun hover => ?_, fun hwithin => ?_, s.pid_frame⟩
    · rw [← s.pid_positionFault] at hover
      rw [s.pid_ctl_fault, s.pid_xlog, hover]
      exact ⟨rfl, rfl⟩
    · rw [← s.pid_positionFault] at hwithin
      rw [s.pid_ctl_fault, s.pid_xlog, hwithin]
      exact ⟨rfl, List.append_nil _⟩
  · have hperiod := State.period_binary32 hnum (Nat.mul_pos hticks hsub)
    rw [State.periodNs] at hperiod
    obtain ⟨hperiod, hinv⟩ := hperiod
    refine ⟨hperiod, hinv, fun h250 => ⟨fun ht => ?_, fun ht => ?_, fun ht => ?_⟩⟩ <;>
      rw [hperiod, hinv, ht, h250] <;> decide

end Sys2Proof.Machine
end

section
/-! The duty mapper (43_scheduler.md R176 to R179): the magnitude and its bound, what MAP writes, and the duty registers
over every turn of every agent. -/

namespace Sys2Proof
open Sys2Proof.Machine

/-! ## The duty magnitude -/

theorem zero_le_half (v : Half) : 0 ≤ v := BitVec.le_def.mpr (Nat.zero_le _)

/-- Under binary32 the integer part of a magnitude that is not above a 16-bit cap lies between 0 and the cap: the cap
is converted exactly. -/
theorem Num32.truncInt_abs_of_not_above {b : Num32} {cap : Half} (hnan : (Num32.abs b).isNaN = false)
    (hcap : Num32.lt (Num32.ofInt cap.toNat) (Num32.abs b) = false) :
    0 ≤ (Num32.abs b).truncInt ∧ (Num32.abs b).truncInt ≤ cap.toNat := by
  obtain ⟨-, hvalCap⟩ := Num32.ofInt_exact (x := cap.toNat) (by have := cap.isLt; rw [Nat.abs_cast]; omega)
  have hkey : (Num32.abs b).orderKey ≤ (Num32.ofInt cap.toNat).orderKey := by
    rw [← Bool.not_eq_true, Num32.lt_iff_orderKey (Num32.ofInt_isNaN _) hnan] at hcap
    exact not_lt.mp hcap
  have hle : numValue (Num32.abs b) ≤ cap.toNat := by
    rw [← keyValue_strictMono.le_iff_le, keyValue_orderKey, keyValue_orderKey, hvalCap] at hkey
    exact_mod_cast hkey
  have hnonneg : 0 ≤ numValue (Num32.abs b) := by
    rw [numValue_abs]
    exact abs_nonneg _
  rw [Num32.truncInt_of_nonneg hnonneg]
  exact ⟨Int.floor_nonneg.mpr hnonneg, Int.floor_le_iff.mpr (by push_cast; linarith)⟩

end Sys2Proof

namespace Sys2Proof.Machine

section
variable {s : State}

theorem State.dutyMag_of_isNaN (h : s.num.isNaN s.dutyScaled = true) : s.dutyMag = 0 := by
  simp [State.dutyMag, h]

theorem State.dutyMag_of_above (hnan : s.num.isNaN s.dutyScaled = false)
    (h : s.num.gt s.dutyScaled s.dutyCapNum = true) : s.dutyMag = s.cfg.dutyCap := by
  simp [State.dutyMag, hnan, h]

theorem State.dutyMag_of_not_above (hnan : s.num.isNaN s.dutyScaled = false)
    (h : s.num.gt s.dutyScaled s.dutyCapNum = false) :
    s.dutyMag = BitVec.ofInt 16 (s.num.truncInt s.dutyScaled) := by
  simp [State.dutyMag, hnan, h]

/-- The integer part of a scaled magnitude that is not above the cap lies between 0 and the cap. -/
theorem State.truncInt_dutyScaled (hnum : s.cfg.num = .binary32) (hnan : s.num.isNaN s.dutyScaled = false)
    (h : s.num.gt s.dutyScaled s.dutyCapNum = false) :
    0 ≤ Num32.truncInt s.dutyScaled ∧ Num32.truncInt s.dutyScaled ≤ s.cfg.dutyCap.toNat := by
  have harith : s.num = Num32.ops := Config.arith_binary32 hnum
  rw [State.dutyCapNum, State.dutyScaled, harith] at h
  rw [State.dutyScaled, harith] at hnan ⊢
  exact Num32.truncInt_abs_of_not_above hnan h

/-- Nothing is lost where the integer part is written to 16 bits. -/
theorem State.toNat_dutyMag (hnum : s.cfg.num = .binary32) (hnan : s.num.isNaN s.dutyScaled = false)
    (h : s.num.gt s.dutyScaled s.dutyCapNum = false) : (s.dutyMag.toNat : Int) = Num32.truncInt s.dutyScaled := by
  obtain ⟨hlo, hhi⟩ := State.truncInt_dutyScaled hnum hnan h
  have harith : s.num = Num32.ops := Config.arith_binary32 hnum
  have hcap := s.cfg.dutyCap.isLt
  rw [State.dutyMag_of_not_above hnan h, harith, Num32.ops_truncInt, BitVec.toNat_ofInt]
  omega

theorem State.dutyMag_le_dutyCap (hnum : s.cfg.num = .binary32) : s.dutyMag ≤ s.cfg.dutyCap := by
  cases hnan : s.num.isNaN s.dutyScaled with
  | true =>
    rw [State.dutyMag_of_isNaN hnan]
    exact zero_le_half _
  | false =>
    cases habove : s.num.gt s.dutyScaled s.dutyCapNum with
    | true => exact BitVec.le_of_eq (State.dutyMag_of_above hnan habove)
    | false =>
      obtain ⟨-, hhi⟩ := State.truncInt_dutyScaled hnum hnan habove
      have hval := State.toNat_dutyMag hnum hnan habove
      exact BitVec.le_def.mpr (by omega)

end

/-- Settles O22: the three cases of the magnitude, and the cap's exact conversion, which bounds the third. -/
theorem dutyMagnitudeIsBounded : Obligations.DutyMagnitudeIsBounded := by
  intro s a ha
  obtain rfl : a = s.dutyScaled := ha
  exact ⟨State.dutyMag_of_isNaN, State.dutyMag_of_above,
    fun hnan h => ⟨State.dutyMag_of_not_above hnan h, fun hnum => State.toNat_dutyMag hnum hnan h⟩,
    State.dutyMag_le_dutyCap⟩

/-! ## What MAP writes -/

/-- The in-limit flag written (R176). -/
def State.withLimit (s : State) : State := { s with ctl := { s.ctl with inLimit := s.dutyInLimit } }

/-- The duty pair written, with its port events (R177). -/
def State.withDuty (p n : Half) (w : List DutyWrite) (s : State) : State :=
  { s with pwmPos := p, pwmNeg := n, dutyTrace := s.dutyTrace ++ w }

section
variable (s : State)

theorem State.drivePos_driveNeg (p n : Half) : (s.drivePos p).driveNeg n = s.withDuty p n [.pos p, .neg n] := by
  simp [State.drivePos, State.driveNeg, State.withDuty]

theorem State.driveNeg_drivePos (p n : Half) : (s.driveNeg n).drivePos p = s.withDuty p n [.neg n, .pos p] := by
  simp [State.drivePos, State.driveNeg, State.withDuty]

/-- The side follows the sign of the output, and the other side is cleared first. -/
theorem State.writeDuty_dutyDir (mag : Half) : s.writeDuty s.dutyDir mag =
    if s.num.gt s.ctl.output 0 = true then s.withDuty mag 0 [.neg 0, .pos mag]
    else if s.num.lt s.ctl.output 0 = true then s.withDuty 0 mag [.pos 0, .neg mag]
    else s.withDuty 0 0 [.pos 0, .neg 0] := by
  rw [← State.driveNeg_drivePos, ← State.drivePos_driveNeg, ← State.drivePos_driveNeg, State.dutyDir]
  split
  · rfl
  split <;> rfl

/-- The gate of R178, branch by branch. -/
theorem State.map_eq_ite (en : Bool) : s.map en =
    if s.cfg.optFaultZero = true ∧ s.ctl.fault = true then s.withLimit.withDuty 0 0 [.pos 0, .neg 0]
    else if en = true then
      if s.num.gt s.ctl.output 0 = true then s.withLimit.withDuty s.dutyMag 0 [.neg 0, .pos s.dutyMag]
      else if s.num.lt s.ctl.output 0 = true then s.withLimit.withDuty 0 s.dutyMag [.pos 0, .neg s.dutyMag]
      else s.withLimit.withDuty 0 0 [.pos 0, .neg 0]
    else if s.cfg.optDisableZero = true then s.withLimit.withDuty 0 0 [.pos 0, .neg 0]
    else s.withLimit := by
  change s.withLimit.gateDuty en = _
  rw [State.gateDuty, State.drivePos_driveNeg, State.writeDuty_dutyDir]
  simp only [Bool.and_eq_true]
  rfl

theorem State.dutyInLimit_eq : s.dutyInLimit = (!s.num.isNaN s.dutyScaled && s.num.gt s.dutyScaled s.dutyCapNum) := by
  unfold State.dutyInLimit
  cases s.num.isNaN s.dutyScaled <;> rfl

/-- With both zeroing options off, MAP of a disabled controller writes the flag alone. -/
theorem State.map_false (hdisable : s.cfg.optDisableZero = false) (hfault : s.cfg.optFaultZero = false) :
    s.map false = s.withLimit := by
  simp [State.map_eq_ite, hdisable, hfault]

end

/-- Settles O21: the flag, the gate branch by branch, and the frame of MAP. -/
theorem mapperWritesTheDutyRegisters : Obligations.MapperWritesTheDutyRegisters := by
  intro s en
  obtain ⟨p, n, w, hframe, -⟩ := s.map_eq en
  refine ⟨_, _, s.map en, rfl, rfl, rfl, rfl, ?_, ?_, ?_⟩
  · rw [hframe, s.dutyInLimit_eq]
    rfl
  · rw [s.map_eq_ite en]
    split_ifs <;> exact ⟨rfl, rfl, rfl⟩
  · rw [hframe]

/-! ## The duty registers over every turn -/

/-- A control cycle passes MAP at a state whose duty side it has not touched. -/
theorem State.controlCycle_eq_map (s : State) : ∃ c k x,
    s.controlCycle = ({ s with ctl := c, trk := k, xlog := x } : State).map s.ctl.enabled := by
  obtain ⟨c, k, hedge, -⟩ := s.edgeCheck_eq
  obtain ⟨c', x, hpid, -⟩ := (s.edgeCheck.track s.cmdCnt s.fbCnt).pid_eq
  unfold State.controlCycle
  rw [hpid, hedge]
  exact ⟨_, _, _, rfl⟩

/-- Only a tick, reset and the halt entry write the duty side; no other turn writes the parameters or the halt. -/
theorem State.turn_duty_frame {s t : State} {e : Event} (h : s.turn e = .next t) (htick : e ≠ .tick)
    (hreset : e ≠ .reset) (hfault : e ≠ .envFault) :
    t.cfg = s.cfg ∧ t.halted = s.halted ∧ t.pwmPos = s.pwmPos ∧ t.pwmNeg = s.pwmNeg ∧ t.dutyTrace = s.dutyTrace := by
  cases e with
  | tick => exact absurd rfl htick
  | reset => exact absurd rfl hreset
  | envFault => exact absurd rfl hfault
  | fg =>
    obtain ⟨hframe, -⟩ := State.turn_fg_frame h
    rw [hframe]
    exact ⟨rfl, rfl, rfl, rfl, rfl⟩
  | tick2 =>
    cases h
    rcases s.tick2_cases with h | ⟨-, h⟩ <;> rw [h] <;> exact ⟨rfl, rfl, rfl, rfl, rfl⟩
  | line bytes => rcases State.deliverLine_next h with rfl | ⟨-, rfl⟩ <;> exact ⟨rfl, rfl, rfl, rfl, rfl⟩
  | cmdCnt v | fbCnt v | en v =>
    cases h
    exact ⟨rfl, rfl, rfl, rfl, rfl⟩

/-- The invariant reads the parameters, the halt and the two duty registers. -/
theorem DutyInv.congr {s t : State} (h : DutyInv s) (hcfg : t.cfg = s.cfg) (hhalted : t.halted = s.halted)
    (hpos : t.pwmPos = s.pwmPos) (hneg : t.pwmNeg = s.pwmNeg) : DutyInv t where
  oneSide := by
    rw [hpos, hneg]
    exact h.oneSide
  posCapped := by
    rw [hpos, hcfg]
    exact h.posCapped
  negCapped := by
    rw [hneg, hcfg]
    exact h.negCapped
  haltedZero := by
    rw [hhalted, hpos, hneg]
    exact h.haltedZero

/-- Both duty registers 0 meet the invariant at any cap. -/
theorem DutyInv.of_zero {s : State} (hpos : s.pwmPos = 0) (hneg : s.pwmNeg = 0) : DutyInv s where
  oneSide := .inl hpos
  posCapped _ := by
    rw [hpos]
    exact zero_le_half _
  negCapped _ := by
    rw [hneg]
    exact zero_le_half _
  haltedZero _ := ⟨hpos, hneg⟩

/-- MAP writes the bounded magnitude to one side, zeros, or nothing. -/
theorem DutyInv.map {s : State} (h : DutyInv s) (hrun : s.halted = false) (en : Bool) : DutyInv (s.map en) := by
  obtain ⟨p, n, w, hmap, hpair⟩ := s.map_eq en
  have hhalt {q : Prop} (hh : s.halted = true) : q := Bool.noConfusion (hrun.symm.trans hh)
  rw [hmap]
  rcases hpair with ⟨rfl, rfl⟩ | ⟨rfl, rfl⟩ | ⟨rfl, rfl⟩ | ⟨rfl, rfl, -⟩
  · exact ⟨.inr rfl, State.dutyMag_le_dutyCap, fun _ => zero_le_half _, hhalt⟩
  · exact ⟨.inl rfl, fun _ => zero_le_half _, State.dutyMag_le_dutyCap, hhalt⟩
  · exact .of_zero rfl rfl
  · exact h.congr rfl rfl rfl rfl

theorem DutyInv.tick {s : State} (h : DutyInv s) : DutyInv s.tick := by
  rcases s.tick_cases with ⟨-, ht⟩ | ⟨hrun, -, -, ht⟩ | ⟨-, -, -, ht⟩
  · rwa [ht]
  · obtain ⟨c, k, x, hcycle⟩ := (s.setCycleCount 0).controlCycle_eq_map
    have hbefore : DutyInv { s.setCycleCount 0 with ctl := c, trk := k, xlog := x } := h.congr rfl rfl rfl rfl
    rw [ht, hcycle]
    exact hbefore.map hrun _
  · rw [ht]
    exact h.congr rfl rfl rfl rfl

theorem DutyInv.turn {s t : State} {e : Event} (h : DutyInv s) (ht : s.turn e = .next t) : DutyInv t := by
  by_cases htick : e = .tick
  · subst htick
    cases ht
    exact h.tick
  by_cases hreset : e = .reset
  · subst hreset
    cases ht
    exact .of_zero rfl rfl
  by_cases hfault : e = .envFault
  · subst hfault
    cases ht
    split
    · exact h
    · exact .of_zero rfl rfl
  obtain ⟨hcfg, hhalted, hpos, hneg, -⟩ := State.turn_duty_frame ht htick hreset hfault
  exact h.congr hcfg hhalted hpos hneg

/-- Settles O23: a step is a turn, or drops an empty group; no clause reads the script. -/
theorem everyStepKeepsTheDutyInvariant : Obligations.EveryStepKeepsTheDutyInvariant := by
  intro s t h hstep
  have hscript (l : List (List Event)) : DutyInv { s with script := l } := h.congr rfl rfl rfl rfl
  rcases step_cases s with ⟨-, hs⟩ | ⟨later, -, hs⟩ | ⟨g, later, e, rest, -, -, hs⟩
  · exact h.turn (hs ▸ hstep)
  · rw [hs] at hstep
    cases hstep
    exact hscript later
  · exact (hscript (leave rest later)).turn (hs ▸ hstep)

/-- A tick of a disabled controller with both zeroing options off passes a MAP that writes no duty register. -/
theorem State.tick_duty_of_disabled {s : State} (hen : s.ctl.enabled = false) (hdisable : s.cfg.optDisableZero = false)
    (hfault : s.cfg.optFaultZero = false) :
    s.tick.pwmPos = s.pwmPos ∧ s.tick.pwmNeg = s.pwmNeg ∧ s.tick.dutyTrace = s.dutyTrace := by
  rcases s.tick_cases with ⟨-, ht⟩ | ⟨-, -, -, ht⟩ | ⟨-, -, -, ht⟩
  · rw [ht]
    exact ⟨rfl, rfl, rfl⟩
  · obtain ⟨c, k, x, hcycle⟩ := (s.setCycleCount 0).controlCycle_eq_map
    rw [ht, hcycle, State.setCycleCount_ctl, hen, State.map_false]
    · exact ⟨rfl, rfl, rfl⟩
    · exact hdisable
    · exact hfault
  · rw [ht]
    exact ⟨rfl, rfl, rfl⟩

/-- Settles O24: the tick by the gate of MAP, every other turn by its frame. -/
theorem disabledControllerHoldsItsDuty : Obligations.DisabledControllerHoldsItsDuty := by
  intro s t e hen hdisable hfault hreset henv h
  by_cases htick : e = .tick
  · subst htick
    cases h
    exact State.tick_duty_of_disabled hen hdisable hfault
  · obtain ⟨-, -, hduty⟩ := State.turn_duty_frame h htick hreset henv
    exact hduty

end Sys2Proof.Machine
end

section
/-! The tick gate (43_scheduler.md R170 to R174): the edge check, the control cycle at the gate, and the count over
ticks. -/

namespace Sys2Proof.Machine

/-! ## The edge check -/

section
variable {s : State}

theorem State.edgeCheck_of_rise (hen : s.ctl.enabled = true) (hprev : s.trk.prevEnabled = false) :
    s.edgeCheck = { s.enableEdge s.cmdCnt s.fbCnt with trk :=
      { lastCmdRaw := s.cmdCnt, lastFbRaw := s.fbCnt, cycleCount := s.trk.cycleCount, prevEnabled := true } } := by
  simp [State.edgeCheck, hen, hprev, State.enableEdge, State.arm]

theorem State.edgeCheck_of_no_rise (h : ¬ (s.ctl.enabled = true ∧ s.trk.prevEnabled = false)) :
    s.edgeCheck = { s with trk := { s.trk with prevEnabled := s.ctl.enabled } } := by
  have hcond : ¬ (s.ctl.enabled && !s.trk.prevEnabled) = true := by simpa using h
  rw [State.edgeCheck, if_neg hcond]

end

/-! ## The gate -/

section
variable {s : State}

theorem State.turn_tick_ignored (h : s.halted = true ∨ s.isrOn = false) : s.turn .tick = .next s := by
  rcases s.tick_cases with ⟨-, ht⟩ | ⟨hrun, hon, -⟩ | ⟨hrun, hon, -⟩
  · exact congrArg _ ht
  all_goals simp [hrun, hon] at h

theorem State.tick_of_below (hrun : s.halted = false) (hon : s.isrOn = true)
    (h : (s.trk.cycleCount + 1).toNat < s.par.ticksPerServoCycle.toNat) :
    s.tick = s.setCycleCount (s.trk.cycleCount + 1) := by
  rcases s.tick_cases with ⟨hoff, -⟩ | ⟨-, -, hgate, -⟩ | ⟨-, -, -, ht⟩
  · simp [hrun, hon] at hoff
  · exact absurd (BitVec.le_def.mp hgate) (Nat.not_le.mpr h)
  · exact ht

theorem State.tick_at_gate (hrun : s.halted = false) (hon : s.isrOn = true)
    (h : s.par.ticksPerServoCycle.toNat ≤ (s.trk.cycleCount + 1).toNat) :
    s.tick = (s.setCycleCount 0).controlCycle := by
  rcases s.tick_cases with ⟨hoff, -⟩ | ⟨-, -, -, ht⟩ | ⟨-, -, hbelow, -⟩
  · simp [hrun, hon] at hoff
  · exact ht
  · exact absurd (BitVec.le_def.mpr h) hbelow

/-! ## The count -/

/-- R171: a delivered tick counts modulo the length of the servo cycle. -/
theorem State.tick_cycleCount (hrun : s.halted = false) (hon : s.isrOn = true)
    (hcount : s.trk.cycleCount.toNat < s.par.ticksPerServoCycle.toNat) :
    s.tick.trk.cycleCount.toNat = (s.trk.cycleCount.toNat + 1) % s.par.ticksPerServoCycle.toNat := by
  have hadd : (s.trk.cycleCount + 1).toNat = s.trk.cycleCount.toNat + 1 := by
    have := s.par.ticksPerServoCycle.isLt
    bv_omega
  rcases Nat.lt_or_eq_of_le (Nat.succ_le_of_lt hcount) with hbelow | hgate
  · rw [State.tick_of_below hrun hon (hadd ▸ hbelow), Nat.mod_eq_of_lt hbelow]
    exact hadd
  · obtain ⟨-, -, hkept⟩ := (s.setCycleCount 0).controlCycle_frame
    rw [State.tick_at_gate hrun hon (hadd.trans hgate).ge, hkept]
    exact hgate ▸ (Nat.mod_self _).symm

end

/-- From any count below the length, `k` ticks advance the count by `k` modulo the length. -/
theorem runTurns_ticks (k : Nat) (s : State) (hrun : s.halted = false) (hon : s.isrOn = true)
    (hcount : s.trk.cycleCount.toNat < s.par.ticksPerServoCycle.toNat) :
    ∃ t, runTurns (List.replicate k .tick) s = .next t ∧
      t.trk.cycleCount.toNat = (s.trk.cycleCount.toNat + k) % s.par.ticksPerServoCycle.toNat ∧ t.par = s.par := by
  induction k generalizing s with
  | zero => exact ⟨s, rfl, (Nat.mod_eq_of_lt hcount).symm, rfl⟩
  | succ k ih =>
    have htick : s.turn .tick = .next s.tick := rfl
    have hpar : s.tick.par = s.par := State.turn_par htick nofun nofun
    have hon' : s.tick.isrOn = true := by
      rw [s.tick_frame.1]
      exact hon
    have hnext := State.tick_cycleCount hrun hon hcount
    obtain ⟨t, hruns, hcount', hpar'⟩ := ih s.tick (s.tick_halted.trans hrun) hon'
      (by rw [hnext, hpar]; exact Nat.mod_lt _ (Nat.zero_lt_of_lt hcount))
    refine ⟨t, ?_, ?_, hpar'.trans hpar⟩
    · rw [List.replicate_succ, runTurns_cons htick, hruns]
    · rw [hcount', hnext, hpar, Nat.mod_add_mod, Nat.add_right_comm, Nat.add_assoc]

/-- A `ticksPerServoCycle` in range is not 0 (10_state.md R23). -/
theorem ticks_toNat_pos {v : ParamVals} (h : v.inRange = true) : 0 < v.ticksPerServoCycle.toNat := by
  obtain ⟨-, hlo, -⟩ := (ParamVals.inRange_iff v).mp h
  rw [BitVec.toInt_eq_toNat_cond] at hlo
  split at hlo <;> omega

/-- Settles O19: the three cases of a tick, the edge check by its condition, and the count by induction on the ticks. -/
theorem tickGate : Obligations.TickGate := by
  refine ⟨fun s => ⟨State.turn_tick_ignored, fun hrun hon hbelow => ?_, fun hrun hon hgate => ?_⟩,
    fun k s hrun hon hzero hrange => ?_⟩
  · exact congrArg Host.Outcome.next (State.tick_of_below hrun hon hbelow)
  · refine ⟨(s.setCycleCount 0).edgeCheck, ?_, fun ⟨hen, hprev⟩ => ?_, fun hno => ?_⟩
    · exact congrArg Host.Outcome.next (State.tick_at_gate hrun hon hgate)
    · exact State.edgeCheck_of_rise (s := s.setCycleCount 0) hen hprev
    · exact State.edgeCheck_of_no_rise (s := s.setCycleCount 0) hno
  · have hlt : s.trk.cycleCount.toNat < s.par.ticksPerServoCycle.toNat := by
      rw [hzero]
      exact ticks_toNat_pos hrange
    simpa [hzero] using runTurns_ticks k s hrun hon hlt

end Sys2Proof.Machine
end

section
/-! The rising enable edge (44_enable_fsm.md R202 to R204): what the reset of the volatile state leaves, the values that
are zeros or NaNs under binary32, and the control cycle that starts from zero registers. -/

namespace Sys2Proof
open Sys2Proof.Machine

/-! ## Zeros and NaNs under binary32 -/

/-- A NaN where `n`, a zero of either sign elsewhere. -/
def Num32.IsZeroOrNaN (a : Num32) (n : Bool) : Prop := a.isNaN = n ∧ a.isZero = !n

theorem Num32.isFinite_of_isZero {a : Num32} (h : a.isZero = true) : isFinite a = true := by
  rw [isFinite_iff, a.isZero_iff.mp h]
  decide

theorem Num32.isNaN_or_isInf {a : Num32} (h : isFinite a = false) : a.isNaN = true ∨ a.isInf = true := by
  rw [Num32.isNaN_iff, Num32.isInf_iff]
  rw [← Bool.not_eq_true, isFinite_iff] at h
  omega

theorem Num32.isZeroOrNaN_of_isZero {a : Num32} (h : a.isZero = true) : a.IsZeroOrNaN false :=
  ⟨isNaN_of_isFinite (isFinite_of_isZero h), h⟩

theorem Num32.isZeroOrNaN_zero : Num32.IsZeroOrNaN 0 false := isZeroOrNaN_of_isZero rfl

theorem Num32.isZeroOrNaN_of_isNaN {a : Num32} (h : a.isNaN = true) : a.IsZeroOrNaN true := by
  refine ⟨h, ?_⟩
  rw [Num32.isNaN_iff] at h
  rw [Bool.not_true, ← Bool.not_eq_true, Num32.isZero_iff]
  omega

theorem Num32.mul_of_isZero {a b : Num32} (ha : isFinite a = true) (hb : isFinite b = true)
    (h : a.isZero = true ∨ b.isZero = true) : Num32.mul a b = Num32.pack (a.sign != b.sign) 0 := by
  obtain ⟨num, den, hden, hval, hmul⟩ := Num32.mul_rounds ha hb
  have hprod : numValue a * numValue b = 0 := by
    simpa only [mul_eq_zero, numValue_eq_zero_iff] using h
  have hnum : num = 0 := by
    rw [hprod, abs_zero, div_eq_zero_iff] at hval
    exact_mod_cast hval.resolve_right (by positivity)
  rw [hmul, hnum, roundRatio_zero]

theorem Num32.isZero_pack_zero (neg : Bool) : (Num32.pack neg 0).isZero = true := by
  cases neg <;> decide

section
variable {a b : Num32} {m n : Bool}

/-- The product of a gain with a zero or a NaN: a zero only where the gain is finite. -/
theorem Num32.IsZeroOrNaN.mul (h : b.IsZeroOrNaN n) (g : Num32) : (Num32.mul g b).IsZeroOrNaN (!isFinite g || n) := by
  obtain ⟨hnan, hzero⟩ := h
  cases n with
  | true =>
    obtain ⟨-, -, hmul, -⟩ := Num32.ops_isNaN_of_isNaN (a := g) (.inr hnan)
    rw [Bool.or_true]
    exact isZeroOrNaN_of_isNaN hmul
  | false =>
    cases hg : isFinite g with
    | true =>
      rw [Num32.mul_of_isZero hg (isFinite_of_isZero hzero) (.inr hzero)]
      exact isZeroOrNaN_of_isZero (isZero_pack_zero _)
    | false =>
      refine isZeroOrNaN_of_isNaN ?_
      rcases Num32.isNaN_or_isInf hg with hg | hg
      · obtain ⟨-, -, hmul, -⟩ := Num32.ops_isNaN_of_isNaN (b := b) (.inl hg)
        exact hmul
      · exact Num32.mul_inf_zero_isNaN (.inl ⟨hg, hzero⟩)

theorem Num32.IsZeroOrNaN.add (ha : a.IsZeroOrNaN m) (hb : b.IsZeroOrNaN n) : (Num32.add a b).IsZeroOrNaN (m || n) := by
  obtain ⟨hanan, hazero⟩ := ha
  obtain ⟨hbnan, hbzero⟩ := hb
  cases hmn : m || n with
  | true =>
    rw [← hanan, ← hbnan, Bool.or_eq_true] at hmn
    obtain ⟨hadd, -⟩ := Num32.ops_isNaN_of_isNaN hmn
    exact isZeroOrNaN_of_isNaN hadd
  | false =>
    obtain ⟨rfl, rfl⟩ := Bool.or_eq_false_iff.mp hmn
    have hsum : numValue a + numValue b = 0 := by
      rw [(numValue_eq_zero_iff a).mpr hazero, (numValue_eq_zero_iff b).mpr hbzero, add_zero]
    rw [Num32.add_of_sum_zero (isFinite_of_isZero hazero) (isFinite_of_isZero hbzero) hsum]
    exact isZeroOrNaN_of_isZero (isZero_pack_zero _)

/-- No clamp changes a zero or a NaN, whatever its limit. -/
theorem Num32.IsZeroOrNaN.clampIf (h : a.IsZeroOrNaN n) (on : Bool) (lim : Num32) :
    clampIf Num32.ops on a lim = a := by
  obtain ⟨hnan, hzero⟩ := h
  cases on with
  | false => rfl
  | true =>
    change Num32.ops.clampNum a (Num32.abs lim) = a
    cases hlim : isFinite lim with
    | false =>
      refine Num32.clampNum_of_no_bound ?_
      have := Num32.isNaN_or_isInf hlim
      tauto
    | true =>
      cases n with
      | true => exact Num32.clampNum_of_no_bound (.inr (.inr hnan))
      | false =>
        refine Num32.clampNum_of_abs_le hlim (isFinite_of_isZero hzero) ?_
        rw [(numValue_eq_zero_iff a).mpr hzero, abs_zero]
        exact abs_nonneg _

/-- A zero or a NaN is on neither side of +0.0. -/
theorem Num32.IsZeroOrNaN.lt_zero (h : a.IsZeroOrNaN n) : Num32.lt 0 a = false ∧ Num32.lt a 0 = false := by
  obtain ⟨hnan, hzero⟩ := h
  cases n with
  | true => exact ⟨Num32.lt_of_isNaN (.inr hnan), Num32.lt_of_isNaN (.inl hnan)⟩
  | false =>
    have ha := isFinite_of_isZero hzero
    have hval : numValue a = numValue 0 := by
      rw [(numValue_eq_zero_iff a).mpr hzero, (numValue_eq_zero_iff 0).mpr rfl]
    rw [← Bool.not_eq_true, ← Bool.not_eq_true, Num32.lt_iff_numValue rfl ha, Num32.lt_iff_numValue ha rfl, hval]
    exact ⟨lt_irrefl _, lt_irrefl _⟩

end

/-- The product keeps the sign of the other factor, so it is +0.0 where that is not negative. -/
theorem Num32.zero_mul_of_not_sign {b : Num32} (hb : isFinite b = true) (hs : b.sign = false) :
    Num32.mul 0 b = 0 := by
  rw [Num32.mul_of_isZero rfl hb (.inl rfl), hs]
  rfl

end Sys2Proof

namespace Sys2Proof.Machine

/-! ## The reset of the volatile state -/

theorem rawDelta_self (c : Config) (x : Count) : rawDelta c x x = 0 := by
  rw [rawDelta, sub_self, wrapS_zero]

/-- TRACK of the samples it already holds adds nothing to accumulators that are 0. -/
theorem State.track_of_same_samples {s : State} {c f : Count} (hcmd : s.ctl.cmdAcc = 0) (hfb : s.ctl.fbAcc = 0)
    (hc : s.trk.lastCmdRaw = c) (hf : s.trk.lastFbRaw = f) : s.track c f = s := by
  have hdelta : s.cmdDelta c = 0 := by
    simp [State.cmdDelta, hc, rawDelta_self]
  subst hc hf
  ext <;> simp [hcmd, hfb, hdelta, rawDelta_self, Config.wrapAcc]

/-- Settles O16: the registers are named one by one, and TRACK finds the samples it would take. -/
theorem enableEdgeResetsTheVolatileState : Obligations.EnableEdgeResetsTheVolatileState := by
  intro c f s
  refine ⟨rfl, ?_⟩
  have htrack : (s.enableEdge c f).track c f = s.enableEdge c f := State.track_of_same_samples rfl rfl rfl rfl
  rw [htrack]
  exact ⟨rfl, rfl⟩

/-! ## The period -/

section
variable {s : State}

theorem State.periodNs_pos (hwf : s.cfg.wf = true) (hrange : s.par.toParamVals.inRange = true) : 0 < s.periodNs := by
  have hsub : 0 < s.cfg.tSubNs := by
    simp only [Config.wf, Bool.and_eq_true, decide_eq_true_eq] at hwf
    omega
  exact Nat.mul_pos (ticks_toNat_pos hrange) hsub

/-- The inverse of a period in whole nanoseconds is at most 10^9, so it is finite. -/
theorem State.invPeriodS_binary32 (hnum : s.cfg.num = .binary32) (hpos : 0 < s.periodNs) :
    isFinite s.invPeriodS = true ∧ Num32.sign s.invPeriodS = false := by
  obtain ⟨-, hinv⟩ := State.period_binary32 hnum hpos
  have hratio : ((10 ^ 9 : Nat) : ℚ) / s.periodNs ≤ 10 ^ 9 := by
    have h1 : (1 : ℚ) ≤ s.periodNs := by exact_mod_cast hpos
    exact_mod_cast div_le_self (by positivity) h1
  have hfin : roundRatio (10 ^ 9) s.periodNs ≠ infBits := by
    rw [Ne, roundRatio_eq_infBits_iff _ hpos, not_le]
    exact hratio.trans_lt (by norm_num)
  rw [hinv]
  exact ⟨isFinite_pack _ (lt_of_le_of_ne (roundRatio_le _ _) hfin), Num32.sign_pack _ (roundRatio_le _ _)⟩

theorem State.periodS_binary32 (hnum : s.cfg.num = .binary32) (hpos : 0 < s.periodNs) :
    (s.periodS.isInf = false → isFinite s.periodS = true) ∧ Num32.sign s.periodS = false := by
  obtain ⟨hperiod, -⟩ := State.period_binary32 hnum hpos
  have hle := roundRatio_le s.periodNs (10 ^ 9)
  rw [hperiod]
  refine ⟨fun hinf => isFinite_pack _ (lt_of_le_of_ne hle fun heq => ?_), Num32.sign_pack _ hle⟩
  rw [(Num32.isInf_pack_iff _ hle).mpr heq] at hinf
  exact Bool.noConfusion hinf

end

/-! ## The engine on zero registers -/

/-- The registers of `S` that the engine reads are 0. -/
structure State.ReadsZero (s : State) : Prop where
  cmdAcc : s.ctl.cmdAcc = 0
  fbAcc : s.ctl.fbAcc = 0
  prevCommand : s.ctl.prevCommand = 0
  prevError : s.ctl.prevError = 0
  errorIntegral : s.ctl.errorIntegral = 0
  maxObservedError : s.ctl.maxObservedError = 0

/-- The five gains of R150 are finite. -/
def State.gainsFinite (s : State) : Bool :=
  isFinite s.par.pgain && isFinite s.par.igain && isFinite s.par.dgain && isFinite s.par.ff0gain &&
    isFinite s.par.ff1gain

namespace State.ReadsZero
variable {s : State} (h : s.ReadsZero)
include h

theorem pid_ctl_error : s.pid.ctl.error = 0 := by
  rw [State.pid_ctl_error, h.cmdAcc, h.fbAcc, sub_zero, Config.wrapAcc, wrapS_zero]

/-- With and without the deadband. -/
theorem pid_errorUsed : s.pid.errorUsed = 0 := by
  rw [State.pid_errorUsed_eq_ite, h.pid_ctl_error, ite_self]

theorem pid_ctl_prevError : s.pid.ctl.prevError = 0 := by
  rw [State.pid_ctl_prevError, h.pid_errorUsed]

theorem pid_ctl_prevCommand : s.pid.ctl.prevCommand = 0 := by
  rw [State.pid_ctl_prevCommand, h.cmdAcc]

theorem pid_ctl_maxObservedError : s.pid.ctl.maxObservedError = 0 := by
  rw [State.pid_ctl_maxObservedError, h.pid_ctl_error, h.maxObservedError]
  rfl

section
variable (hnum : s.cfg.num = .binary32) (hpos : 0 < s.periodNs)
include hnum hpos

theorem pid_derivatives : s.pid.ctl.errorDerivative = 0 ∧ s.pid.ctl.commandDerivative = 0 := by
  obtain ⟨hfin, hsign⟩ := State.invPeriodS_binary32 hnum hpos
  have harith : s.num = Num32.ops := Config.arith_binary32 hnum
  have hrate : s.rate (0 - 0) = 0 := by
    rw [State.rate, sub_zero, Config.wrapAcc, wrapS_zero, harith]
    exact Num32.zero_mul_of_not_sign hfin hsign
  have hzero := Num32.isZeroOrNaN_zero
  rw [State.pid_ctl_errorDerivative, State.pid_ctl_commandDerivative, h.pid_errorUsed, h.prevError, h.cmdAcc,
    h.prevCommand, hrate, harith]
  exact ⟨hzero.clampIf _ _, hzero.clampIf _ _⟩

/-- An infinite period times the error 0 is invalid; under a finite one the integral stays exactly +0.0. -/
theorem pid_ctl_errorIntegral : s.pid.ctl.errorIntegral.IsZeroOrNaN s.periodS.isInf ∧
    (s.periodS.isInf = false → s.pid.ctl.errorIntegral = 0) := by
  obtain ⟨hfin, hsign⟩ := State.periodS_binary32 hnum hpos
  have harith : s.num = Num32.ops := Config.arith_binary32 hnum
  have hsum : s.integralSum 0 = Num32.add 0 (Num32.mul 0 s.periodS) := by
    rw [State.integralSum, h.errorIntegral, harith]
    rfl
  have hzero := Num32.isZeroOrNaN_zero
  rw [State.pid_ctl_errorIntegral, h.pid_errorUsed, hsum, harith]
  cases hinf : s.periodS.isInf with
  | true =>
    have hprod := Num32.mul_inf_zero_isNaN (a := 0) (.inr ⟨rfl, hinf⟩)
    have hnan := hzero.add (Num32.isZeroOrNaN_of_isNaN hprod)
    rw [hnan.clampIf]
    exact ⟨hnan, nofun⟩
  | false =>
    have hadd : Num32.add 0 0 = 0 := by decide
    rw [Num32.zero_mul_of_not_sign (hfin hinf) hsign, hadd, hzero.clampIf]
    exact ⟨hzero, fun _ => rfl⟩

/-- Each product of step 7 is a zero unless its gain is not finite or the integral is a NaN, and so is the sum. -/
theorem pid_ctl_output : s.pid.ctl.output.IsZeroOrNaN (!s.gainsFinite || s.periodS.isInf) := by
  have harith : s.num = Num32.ops := Config.arith_binary32 hnum
  have hzero := Num32.isZeroOrNaN_zero
  obtain ⟨hintegral, -⟩ := h.pid_ctl_errorIntegral hnum hpos
  obtain ⟨herror, hcommand⟩ := h.pid_derivatives hnum hpos
  have hsum := ((((hzero.mul s.par.pgain).add (hintegral.mul s.par.igain)).add (hzero.mul s.par.dgain)).add
    (hzero.mul s.par.ff0gain)).add (hzero.mul s.par.ff1gain)
  simp only [Bool.or_false] at hsum
  have hflag : (!s.gainsFinite || s.periodS.isInf) = (!isFinite s.par.pgain || (!isFinite s.par.igain ||
      s.periodS.isInf) || !isFinite s.par.dgain || !isFinite s.par.ff0gain || !isFinite s.par.ff1gain) := by
    simp only [State.gainsFinite, Bool.not_and]
    ac_rfl
  have hpidSum : s.pid.pidSum.IsZeroOrNaN (!s.gainsFinite || s.periodS.isInf) := by
    rw [State.pid_pidSum, h.pid_errorUsed, herror, hcommand, h.cmdAcc, harith]
    rw [hflag]
    exact hsum
  rw [State.pid_ctl_output, harith, hpidSum.clampIf]
  exact hpidSum

end

end State.ReadsZero

/-! ## The control cycle of the rising edge -/

/-- The registers as ENABLE_EDGE and the record of the enable leave them. -/
def State.risen (s : State) : State :=
  { s.enableEdge s.cmdCnt s.fbCnt with trk :=
    { lastCmdRaw := s.cmdCnt, lastFbRaw := s.fbCnt, cycleCount := 0, prevEnabled := true } }

theorem State.risen_readsZero (s : State) : s.risen.ReadsZero := ⟨rfl, rfl, rfl, rfl, rfl, rfl⟩

/-- R172: at the gate with a rising edge, TRACK adds nothing and the engine runs on zero registers. -/
theorem State.tick_of_rise {s : State} (hrun : s.halted = false) (hon : s.isrOn = true)
    (hgate : s.par.ticksPerServoCycle ≤ s.trk.cycleCount + 1) (hen : s.ctl.enabled = true)
    (hprev : s.trk.prevEnabled = false) : s.tick = s.risen.pid.map true := by
  have hedge : (s.setCycleCount 0).edgeCheck = s.risen := State.edgeCheck_of_rise (s := s.setCycleCount 0) hen hprev
  have htrack : s.risen.track s.cmdCnt s.fbCnt = s.risen := State.track_of_same_samples rfl rfl rfl rfl
  rw [State.tick_at_gate hrun hon (BitVec.le_def.mp hgate), State.controlCycle, hedge, State.setCycleCount_cmdCnt,
    State.setCycleCount_fbCnt, htrack, State.setCycleCount_ctl, hen]

/-- MAP writes no register of `S` but the in-limit flag, and none of `T`. -/
theorem State.map_frame (s : State) (en : Bool) :
    (s.map en).ctl = { s.ctl with inLimit := s.dutyInLimit } ∧ (s.map en).trk = s.trk := by
  obtain ⟨p, n, w, hmap, -⟩ := s.map_eq en
  rw [hmap]
  exact ⟨rfl, rfl⟩

/-- R176: an output that is a zero or a NaN has no direction. -/
theorem State.map_of_zeroOrNaN {s : State} {n : Bool} (hnum : s.cfg.num = .binary32)
    (hout : s.ctl.output.IsZeroOrNaN n) : (s.map true).pwmPos = 0 ∧ (s.map true).pwmNeg = 0 := by
  obtain ⟨hgt, hlt⟩ := hout.lt_zero
  have harith : s.num = Num32.ops := Config.arith_binary32 hnum
  have hnotPos : s.num.gt s.ctl.output 0 = false := harith ▸ hgt
  have hnotNeg : s.num.lt s.ctl.output 0 = false := harith ▸ hlt
  have hmap : s.map true = s.withLimit.withDuty 0 0 [.pos 0, .neg 0] := by
    simp only [State.map_eq_ite, hnotPos, hnotNeg, Bool.false_eq_true, if_false, if_true, ite_self]
  rw [hmap]
  exact ⟨rfl, rfl⟩

/-- Settles O20: the tick is PID and MAP over the zeroed registers; the engine gives an output that is a zero or a NaN,
which has no direction. -/
theorem firstCycleAfterTheEdge : Obligations.FirstCycleAfterTheEdge := by
  intro s hrun hon hgate hen hprev hwf hrange
  have hzero := s.risen_readsZero
  obtain ⟨hctl, htrk⟩ := s.risen.pid.map_frame true
  obtain ⟨hcmd, hfb, -, -, hpid⟩ := s.risen.pid_frame
  have hpidTrk : s.risen.pid.trk = s.risen.trk := by rw [hpid]
  refine ⟨s.risen.pid.map true, congrArg _ (State.tick_of_rise hrun hon hgate hen hprev), ?_⟩
  rw [hctl, htrk, hpidTrk]
  refine ⟨hcmd, hfb, hzero.pid_ctl_error, hzero.pid_ctl_prevError, hzero.pid_ctl_prevCommand,
    hzero.pid_ctl_maxObservedError, rfl, rfl, rfl, fun hnum => ?_⟩
  have hpos : 0 < s.risen.periodNs := State.periodNs_pos hwf hrange
  obtain ⟨herror, hcommand⟩ := hzero.pid_derivatives hnum hpos
  have hout := hzero.pid_ctl_output hnum hpos
  obtain ⟨hpwmPos, hpwmNeg⟩ := State.map_of_zeroOrNaN (s := s.risen.pid) (by rw [State.pid_cfg]; exact hnum) hout
  refine ⟨herror, hcommand, hpwmPos, hpwmNeg, fun hperiod => ?_⟩
  obtain ⟨-, hintegral⟩ := hzero.pid_ctl_errorIntegral hnum hpos
  have hfinite : s.risen.periodS.isInf = false := hperiod
  rw [hfinite, Bool.or_false] at hout
  obtain ⟨hnan, hzeroOut⟩ := hout
  have hgains : s.risen.gainsFinite = s.gainsFinite := rfl
  rw [hgains, State.gainsFinite] at hnan hzeroOut
  refine ⟨hintegral hfinite, fun hp hi hd hf0 hf1 => ?_, fun hgain => ?_⟩
  · simpa [hp, hi, hd, hf0, hf1] using hzeroOut
  · refine hnan.trans ?_
    rcases hgain with hp | hi | hd | hf0 | hf1 <;> simp [*]

end Sys2Proof.Machine
end

section
/-! The word sum of the block image, what its verification asks for and detects, and the images of note
(45_param_store.md R221 to R223, R228, R230). -/

namespace Sys2Proof.Machine

/-! ## The word sum -/

theorem wordSum_eq_sum (img : List Byte) (n : Nat) : wordSum img n = ∑ k ∈ Finset.range n, word16 img (2 * k) := by
  induction n with
  | zero => rfl
  | succ n ih => rw [wordSum, ih, Finset.sum_range_succ]

theorem wordSum_toNat (img : List Byte) (n : Nat) :
    (wordSum img n).toNat = (∑ k ∈ Finset.range n, (word16 img (2 * k)).toNat) % 2 ^ 16 := by
  induction n with
  | zero => rfl
  | succ n ih => rw [wordSum, BitVec.toNat_add, ih, Finset.sum_range_succ, Nat.mod_add_mod]

theorem wordSum_congr {a b : List Byte} {n : Nat} (h : ∀ k < n, word16 a (2 * k) = word16 b (2 * k)) :
    wordSum a n = wordSum b n := by
  rw [wordSum_eq_sum, wordSum_eq_sum]
  exact Finset.sum_congr rfl fun k hk => h k (Finset.mem_range.mp hk)

theorem byteAt_append_left {a : List Byte} (b : List Byte) {o : Nat} (h : o < a.length) :
    byteAt (a ++ b) o = byteAt a o :=
  List.getD_append a b 0 o h

/-- The words within the first part of an image are those of that part. -/
theorem wordSum_append_left {a : List Byte} (b : List Byte) {n : Nat} (h : 2 * n ≤ a.length) :
    wordSum (a ++ b) n = wordSum a n := by
  refine wordSum_congr fun k hk => ?_
  rw [word16, word16, byteAt_append_left b (by omega), byteAt_append_left b (by omega)]

/-- Two images with the same word sum that agree on every word but one agree on that one too. -/
theorem word16_eq_of_wordSum_eq {a b : List Byte} {n j : Nat} (hj : j < n)
    (hother : ∀ k, k ≠ j → word16 a (2 * k) = word16 b (2 * k)) (hsum : wordSum a n = wordSum b n) :
    word16 a (2 * j) = word16 b (2 * j) := by
  have hmem : j ∈ Finset.range n := Finset.mem_range.mpr hj
  have hrest : ∑ k ∈ (Finset.range n).erase j, word16 a (2 * k) = ∑ k ∈ (Finset.range n).erase j, word16 b (2 * k) :=
    Finset.sum_congr rfl fun k hk => hother k (Finset.ne_of_mem_erase hk)
  rw [wordSum_eq_sum, wordSum_eq_sum, ← Finset.add_sum_erase _ _ hmem, ← Finset.add_sum_erase _ _ hmem, hrest] at hsum
  exact add_right_cancel hsum

/-! ## The verification -/

theorem checksumOK_iff (img : List Byte) : checksumOK img = true ↔ wordSum img 25 = 0 := beq_iff_eq

/-- The verification asks that the last word be the negated sum of the others. -/
theorem checksumOK_iff_last (img : List Byte) : checksumOK img = true ↔ word16 img 48 = -wordSum img 24 := by
  rw [checksumOK_iff, wordSum, add_comm]
  exact add_eq_zero_iff_eq_neg

/-- The checksum of the parsed registers is over the image's own words. -/
theorem checksumOf_parse {img : List Byte} (h : img.length = 50) :
    checksumOf (parse img).toParamVals = -wordSum img 24 := by
  have himage : image (parse img) = img := image_parse h
  rw [image] at himage
  rw [checksumOf, ← wordSum_append_left (le16 (parse img).checksum) (by simp), himage]

/-- Settles O28: the word sum as a natural number, and the last word against the sum of the others. -/
theorem checksumVerifiesTheStoredWord : Obligations.ChecksumVerifiesTheStoredWord := by
  intro img hlen
  refine ⟨?_, ?_⟩
  · rw [checksumOK_iff, ← wordSum_toNat, ← BitVec.toNat_inj]
    rfl
  · rw [checksumOK_iff_last, checksumOf_parse hlen]

/-- The image of a register file with its checksum passes the verification. -/
theorem checksumOK_image {p : Params} (h : p.checksum = checksumOf p.toParamVals) : checksumOK (image p) = true := by
  have hlast : word16 (image p) 48 = p.checksum := congrArg Params.checksum (parse_image p)
  rw [checksumOK_iff_last, hlast, h, ← checksumOf_parse (image_length p), parse_image]

/-! ## A changed byte -/

/-- Equal words have equal bytes. -/
theorem byteAt_eq_of_word16_eq {a b : List Byte} {o : Nat} (h : word16 a (2 * (o / 2)) = word16 b (2 * (o / 2))) :
    byteAt a o = byteAt b o := by
  obtain ⟨hlo, hhi⟩ : byteAt a (2 * (o / 2)) = byteAt b (2 * (o / 2)) ∧
      byteAt a (2 * (o / 2) + 1) = byteAt b (2 * (o / 2) + 1) := by
    simpa [le16_word16] using congrArg le16 h
  rcases Nat.mod_two_eq_zero_or_one o with hpar | hpar
  · rwa [show 2 * (o / 2) = o by omega] at hlo
  · rwa [show 2 * (o / 2) + 1 = o by omega] at hhi

/-- A byte lies in one word only. -/
theorem word16_set_other (img : List Byte) {o k : Nat} (b : Byte) (h : k ≠ o / 2) :
    word16 (img.set o b) (2 * k) = word16 img (2 * k) := by
  rw [word16, word16, byteAt_set_other img b (by omega), byteAt_set_other img b (by omega)]

/-- R223: one changed byte changes the word sum. -/
theorem wordSum_set_ne {img : List Byte} {n o : Nat} {b : Byte} (hn : o / 2 < n) (ho : o < img.length)
    (hb : b ≠ byteAt img o) : wordSum (img.set o b) n ≠ wordSum img n := fun hsum =>
  have hword := word16_eq_of_wordSum_eq hn (fun _ hk => word16_set_other img b hk) hsum
  hb ((byteAt_set_same b ho).symm.trans (byteAt_eq_of_word16_eq hword))

/-- Settles O29: a changed byte changes the sum of a valid image, which is 0; and in the image that holds 1 in its
second word, and a last word that balances it, the first two words may be exchanged. -/
theorem singleByteChangeIsDetected : Obligations.SingleByteChangeIsDetected := by
  refine ⟨fun img o b hlen hok ho hb => ?_, [0, 0, 1] ++ List.replicate 45 0 ++ [0xFF, 0xFF], ?_⟩
  · rw [Bool.eq_false_iff, Ne, checksumOK_iff, ← (checksumOK_iff img).mp hok]
    exact wordSum_set_ne (by omega) (by omega) hb
  · decide

/-! ## An image of one byte -/

section
variable {m o : Nat} (b : Byte)

theorem word16_replicate (h : o + 2 ≤ m) : word16 (List.replicate m b) o = b ++ b := by
  rw [word16, byteAt, byteAt, List.getD_replicate _ (by omega), List.getD_replicate _ (by omega)]

theorem word32_replicate (h : o + 4 ≤ m) : word32 (List.replicate m b) o = (b ++ b : Half) ++ (b ++ b : Half) := by
  rw [word32, word16_replicate b (by omega), word16_replicate b (by omega)]

theorem wordSum_replicate {n : Nat} (h : 2 * n ≤ m) : wordSum (List.replicate m b) n = n • (b ++ b : Half) := by
  have hword : ∀ k ∈ Finset.range n, word16 (List.replicate m b) (2 * k) = b ++ b := fun k hk =>
    word16_replicate b (by rw [Finset.mem_range] at hk; omega)
  rw [wordSum_eq_sum, Finset.sum_congr rfl hword, Finset.sum_const, Finset.card_range]

end

theorem getFloat_parse_zeros (r : FloatReg) : (parse (List.replicate 50 0)).getFloat r = 0 := by
  cases r <;> exact word32_replicate 0 (by decide)

/-- Settles O32: the defaults' image byte by byte, and the words of the two images of one byte. -/
theorem imagesOfNote : Obligations.ImagesOfNote := by
  have herased : wordSum (List.replicate 50 0xFF) 25 = 0xFFE7 := wordSum_replicate 0xFF (by decide)
  have hzero : wordSum (List.replicate 50 0x00) 25 = 0 := wordSum_replicate 0 (by decide)
  have hmult : (parse (List.replicate 50 0x00)).cmdMultiplier = 0 := word16_replicate 0 (by decide)
  have hticks : (parse (List.replicate 50 0x00)).ticksPerServoCycle = 0 := word16_replicate 0 (by decide)
  refine ⟨by decide, by decide, herased, ?_, (checksumOK_iff _).mpr hzero, ?_, ?_, getFloat_parse_zeros⟩
  · rw [checksumOK, herased]
    rfl
  · rw [hmult]
    rfl
  · rw [hticks]
    rfl

end Sys2Proof.Machine
end

section
/-! LOAD of a valid image, and of the image of a register file (45_param_store.md R224, R226). -/

namespace Sys2Proof.Machine

/-! ## The registers that a load leaves -/

/-- The registers that a load of the image leaves: the two bounded ones in range, and the checksum of what is held. -/
def loadedParams (p : Params) : Params :=
  let v : ParamVals := { p.toParamVals with
    cmdMultiplier := clampHalf p.cmdMultiplier 1 22
    ticksPerServoCycle := clampHalf p.ticksPerServoCycle 1 100 }
  ⟨v, checksumOf v⟩

theorem clampHalf_self {v : Half} {lo hi : Int} (hlo : lo ≤ v.toInt) (hhi : v.toInt ≤ hi) : clampHalf v lo hi = v := by
  rw [clampHalf, clampInt_self hlo hhi, BitVec.ofInt_toInt]

/-- A register file in range with its checksum is loaded as it is. -/
theorem loadedParams_of_inRange {p : Params} (hrange : p.toParamVals.inRange = true)
    (hsum : p.checksum = checksumOf p.toParamVals) : loadedParams p = p := by
  obtain ⟨⟨hmlo, hmhi⟩, htlo, hthi⟩ := (ParamVals.inRange_iff _).mp hrange
  rw [loadedParams, clampHalf_self hmlo hmhi, clampHalf_self htlo hthi]
  exact Params.ext rfl rfl rfl rfl rfl rfl rfl rfl rfl rfl rfl rfl rfl hsum.symm

/-! ## The micro-steps of LOAD -/

theorem State.step_of_alone {s : State} (h : s.alone) : step s = s.turn .fg := by
  obtain ⟨hscript, -⟩ := h
  rw [step, hscript]

/-- A run of the block alone begins, outside the commands, with a micro-step of the program. -/
theorem stepRun_supervise {s : State} (h : s.alone) (hfetch : s.fetch = none) (n : Nat) :
    stepRun (n + 1) s = stepRun n s.supervise := by
  rw [stepRun, State.step_of_alone h, State.turn_fg_supervise h.2 hfetch]

/-- The state in a load (R224): the image `NvmLoad` gave, the registers as loaded up to now, and FG's next micro-step. -/
def State.inLoad (img : List Byte) (q : Params) (p : Phase) (s : State) : State :=
  { s with par := q, fg := { s.fg with img := img, phase := p } }

section
variable {s : State} (h : s.alone) (img : List Byte) (q : Params) (n : Nat)
include h

theorem stepRun_loadFloat (r : FloatReg) : stepRun (n + 1) (s.inLoad img q (.loadFloat r)) =
    stepRun n (s.inLoad img (q.setFloat r ((parse img).getFloat r)) (loadNext r)) :=
  stepRun_supervise (s := s.inLoad img q (.loadFloat r)) h rfl n

theorem stepRun_loadMultiplier : stepRun (n + 1) (s.inLoad img q .loadMultiplier) =
    stepRun n (s.inLoad img { q with cmdMultiplier := clampHalf (parse img).cmdMultiplier 1 22 } .loadTicks) :=
  stepRun_supervise (s := s.inLoad img q .loadMultiplier) h rfl n

theorem stepRun_loadTicks : stepRun (n + 1) (s.inLoad img q .loadTicks) = stepRun n
    (s.inLoad img { q with ticksPerServoCycle := clampHalf (parse img).ticksPerServoCycle 1 100 } .loadChecksum) :=
  stepRun_supervise (s := s.inLoad img q .loadTicks) h rfl n

theorem stepRun_loadChecksum : stepRun (n + 1) (s.inLoad img q .loadChecksum) =
    stepRun n (s.inLoad img { q with checksum := checksumOf q.toParamVals } .loop) :=
  stepRun_supervise (s := s.inLoad img q .loadChecksum) h rfl n

/-- The fourteen register writes of a load, in layout order: nothing of the registers held before is left. -/
theorem stepRun_loadRegisters : stepRun 14 (s.inLoad img q (.loadFloat .pgain)) =
    .next (s.inLoad img (loadedParams (parse img)) .loop) := by
  simp only [stepRun_loadFloat h, loadNext, stepRun_loadMultiplier h, stepRun_loadTicks h, stepRun_loadChecksum h]
  rfl

theorem stepRun_loadImage (hphase : s.fg.phase = .loadImage) (hok : checksumOK s.nvmLoad = true) :
    stepRun (n + 1) s = stepRun n (s.inLoad s.nvmLoad s.par (.loadFloat .pgain)) := by
  have hfetch : s.fetch = none := by rw [State.fetch, hphase]
  rw [stepRun_supervise h hfetch, State.supervise, hphase]
  simp only [State.loadImage, hok, if_true]
  rfl

/-- The fifteen micro-steps of LOAD over a valid image (R224). -/
theorem stepRun_load (hphase : s.fg.phase = .loadImage) (hok : checksumOK s.nvmLoad = true) :
    stepRun 15 s = .next (s.inLoad s.nvmLoad (loadedParams (parse s.nvmLoad)) .loop) :=
  (stepRun_loadImage h 14 hphase hok).trans (stepRun_loadRegisters h s.nvmLoad s.par)

end

/-- Settles O31: what is loaded is the saved image, which is valid, and its registers are in range already. -/
theorem savedParametersLoadUnchanged : Obligations.SavedParametersLoadUnchanged := by
  intro s p hrange hsum halone hphase
  have hload : (s.nvmSave (image p)).nvmLoad = image p := State.nvmLoad_eq rfl (image_length p)
  have hrun := stepRun_load (s := s.nvmSave (image p)) halone hphase (by rw [hload]; exact checksumOK_image hsum)
  rw [hload, parse_image, loadedParams_of_inRange hrange hsum] at hrun
  exact ⟨_, hrun, rfl, rfl, rfl, rfl, hload⟩

end Sys2Proof.Machine
end

section
/-! The supervisory sequencer with nothing presented: boot, the configuration hold, the main loop and the enable mirror
(47_supervisor.md R280 to R290, 45_param_store.md R224). -/

namespace Sys2Proof.Machine

/-! ## Micro-steps of the program, and its branches -/

theorem State.goto_phase {s : State} {p : Phase} (h : s.fg.phase = p) : s.goto p = s := by
  subst h
  rfl

/-- A step of the block alone, outside the commands, is a micro-step of the program. -/
theorem step_supervise {s : State} (h : s.alone) (hfetch : s.fetch = none) : step s = .next s.supervise := by
  rw [State.step_of_alone h, State.turn_fg_supervise h.2 hfetch]

/-- `stepRun_supervise` with the micro-step's result written out. -/
theorem stepRun_to {s t : State} {n : Nat} (h : s.alone) (hfetch : s.fetch = none) (ht : s.supervise = t) :
    stepRun (n + 1) s = stepRun n t :=
  ht ▸ stepRun_supervise h hfetch n

/-- The enable level is in FG's locals (47_supervisor.md R288). -/
def State.levelSampled (s : State) : State := { s with fg := { s.fg with lvl := s.enIn } }

section
variable {s : State}

theorem State.supervise_loadImage (s : State) : (s.goto .loadImage).supervise =
    ({ s with fg := { s.fg with img := s.nvmLoad } }).goto
      (if checksumOK s.nvmLoad then .loadFloat .pgain else .loadMissing) := rfl

theorem State.supervise_loadImage_invalid (h : checksumOK s.nvmLoad = false) : (s.goto .loadImage).supervise =
    ({ s with fg := { s.fg with img := s.nvmLoad } }).goto .loadMissing := by
  simp [State.supervise_loadImage, h]

theorem State.supervise_holdTest (s : State) :
    (s.goto .holdTest).supervise = s.goto (if s.lineReady then .holdIndOff else .holdToggle) := rfl

theorem State.supervise_holdTest_blink (h : s.lineReady = false) :
    (s.goto .holdTest).supervise = s.goto .holdToggle := by
  simp [State.supervise_holdTest, h]

theorem State.supervise_holdTest_leave (h : s.lineReady = true) :
    (s.goto .holdTest).supervise = s.goto .holdIndOff := by
  simp [State.supervise_holdTest, h]

theorem State.supervise_loop (s : State) :
    (s.goto .loop).supervise = s.goto (if s.lineReady then .dispatch else .jerkTest) := rfl

theorem State.supervise_loop_line (h : s.lineReady = true) : (s.goto .loop).supervise = s.goto .dispatch := by
  simp [State.supervise_loop, h]

theorem State.jerkIsSet_goto (s : State) (p : Phase) : (s.goto p).jerkIsSet = !s.num.isZero s.jerk := rfl

/-- `J` is zero: the jerk is left out (R284). -/
theorem State.supervise_jerkTest_zero (h : s.num.isZero s.jerk = true) :
    (s.goto .jerkTest).supervise = s.goto .mirror :=
  if_neg (by simp [State.jerkIsSet_goto, h])

/-- `J` is not zero: the jerk starts with `jI` converted (R286). -/
theorem State.supervise_jerkTest_set (h : s.num.isZero s.jerk = false) : (s.goto .jerkTest).supervise =
    ({ s with fg := { s.fg with jI := s.num.satTrunc32 s.jerk } }).goto .jerkGo :=
  if_pos (by simp [State.jerkIsSet_goto, h])

theorem State.supervise_mirror (s : State) : (s.goto .mirror).supervise = s.levelSampled.goto
    (if s.enIn && !s.ctl.enabled then .riseSet else if !s.enIn && s.ctl.enabled then .fallSet else .loop) := rfl

theorem State.supervise_mirror_rise (hlevel : s.enIn = true) (hoff : s.ctl.enabled = false) :
    (s.goto .mirror).supervise = s.levelSampled.goto .riseSet := by
  simp [State.supervise_mirror, hlevel, hoff]

theorem State.supervise_mirror_fall (hlevel : s.enIn = false) (hon : s.ctl.enabled = true) :
    (s.goto .mirror).supervise = s.levelSampled.goto .fallSet := by
  simp [State.supervise_mirror, hlevel, hon]

theorem State.supervise_mirror_agree (h : s.enIn = s.ctl.enabled) :
    (s.goto .mirror).supervise = s.levelSampled.goto .loop := by
  simp [State.supervise_mirror, h]

end

/-! ## Boot -/

/-- `BOOT0` to `BOOT2` done (R280): the defaults, disabled, interrupts on. -/
def State.booted (s : State) : State :=
  { s with par := Params.ofDefaults s.cfg, ctl := { s.ctl with enabled := false }, isrOn := true }

theorem loadedParams_getFloat (p : Params) (r : FloatReg) : (loadedParams p).getFloat r = p.getFloat r := by
  cases r <;> rfl

theorem toInt_clampHalf (v : Half) {lo hi : Int} (hlo : -(2 ^ 15) ≤ lo) (hle : lo ≤ hi) (hhi : hi < 2 ^ 15) :
    (clampHalf v lo hi).toInt = clampInt v.toInt lo hi :=
  toInt_ofInt_clampInt v.toInt hlo hle hhi

/-- A valid image in range is loaded as it is: its stored word is the checksum of its registers (R222). -/
theorem loadedParams_parse {img : List Byte} (hlen : img.length = 50) (hok : checksumOK img = true)
    (hrange : (parse img).toParamVals.inRange = true) : loadedParams (parse img) = parse img := by
  obtain ⟨-, hword⟩ := checksumVerifiesTheStoredWord img hlen
  exact loadedParams_of_inRange hrange (hword.mp hok)

section
variable {s : State} (h : s.alone)
include h

theorem stepRun_boot (n : Nat) : stepRun (n + 3) (s.goto .boot0) = stepRun n (s.booted.goto .loadImage) :=
  calc stepRun (n + 3) (s.goto .boot0)
    _ = stepRun (n + 2) (({ s with par := Params.ofDefaults s.cfg }).goto .boot1) := stepRun_to h rfl rfl
    _ = stepRun (n + 1) ((({ s with par := Params.ofDefaults s.cfg }).setEnabled false).goto .boot2) :=
      stepRun_to h rfl rfl
    _ = stepRun n (s.booted.goto .loadImage) := stepRun_to h rfl rfl

/-- LOAD of an invalid image: two micro-steps, no register of `P` written, the record and the missing flag (R224,
60_exceptions.md R301). -/
theorem stepRun_loadInvalid (hbad : checksumOK s.nvmLoad = false) : stepRun 2 (s.goto .loadImage) =
    .next (({ s with
      fg := { s.fg with img := s.nvmLoad, cfgMissing := true }
      xlog := s.xlog ++ ([.cfgIntegrity s.nvmLoad] : List Exc) }).goto .holdTest) :=
  calc stepRun 2 (s.goto .loadImage)
    _ = stepRun 1 (({ s with fg := { s.fg with img := s.nvmLoad } }).goto .loadMissing) :=
      stepRun_to h rfl (State.supervise_loadImage_invalid hbad)
    _ = _ := by exact stepRun_to h rfl rfl

end

/-- Settles O46: three micro-steps to the load, then the fifteen of a valid image or the two of an invalid one. -/
theorem bootSequence : Obligations.BootSequence := by
  intro s halone hphase
  have hboot (n : Nat) : stepRun (n + 3) s = stepRun n (s.booted.goto .loadImage) := by
    rw [← stepRun_boot halone n, State.goto_phase hphase]
  refine ⟨⟨_, hboot 0, rfl, rfl, rfl, rfl, rfl⟩, fun hok => ?_, fun hbad => ?_⟩
  · have hload := stepRun_load (s := s.booted.goto .loadImage) halone rfl hok
    refine ⟨_, (hboot 15).trans hload, rfl, rfl, rfl, rfl, loadedParams_getFloat (parse s.nvmLoad), ?_, ?_, rfl, ?_⟩
    · exact toInt_clampHalf _ (by decide) (by decide) (by decide)
    · exact toInt_clampHalf _ (by decide) (by decide) (by decide)
    · exact loadedParams_parse s.nvmLoad_length hok
  · have hload := stepRun_loadInvalid (s := s.booted) halone hbad
    exact ⟨_, (hboot 2).trans hload, rfl, rfl, rfl, rfl, rfl, rfl⟩

/-! ## The configuration hold -/

/-- The indicator and the missing flag cleared (R283). -/
def State.holdCleared (s : State) : State := { s with ind := false, fg := { s.fg with cfgMissing := false } }

section
variable {s : State} (h : s.alone)
include h

/-- The hold without a line, up to the test of its delay (R282). -/
theorem stepRun_holdBlink (hline : s.lineReady = false) : stepRun 3 (s.goto .holdTest) =
    .next (({ s with ind := !s.ind, delayCnt := s.cfg.blinkT2 }).goto (.delayTest .blink)) :=
  calc stepRun 3 (s.goto .holdTest)
    _ = stepRun 2 (s.goto .holdToggle) := stepRun_to h rfl (State.supervise_holdTest_blink hline)
    _ = stepRun 1 (({ s with ind := !s.ind }).goto (.delayLoad .blink)) := stepRun_to h rfl rfl
    _ = _ := by exact stepRun_to h rfl rfl

/-- The hold left for the pending line, which LOOP finds and dispatches (R283, R284). -/
theorem stepRun_holdLeave (hline : s.lineReady = true) :
    stepRun 4 (s.goto .holdTest) = .next (s.holdCleared.goto .dispatch) :=
  calc stepRun 4 (s.goto .holdTest)
    _ = stepRun 3 (s.goto .holdIndOff) := stepRun_to h rfl (State.supervise_holdTest_leave hline)
    _ = stepRun 2 (({ s with ind := false }).goto .holdDone) := stepRun_to h rfl rfl
    _ = stepRun 1 (s.holdCleared.goto .loop) := stepRun_to h rfl rfl
    _ = _ := stepRun_to h rfl (State.supervise_loop_line hline)

end

/-- Settles O47: the hold without a line and with one. -/
theorem configurationHold : Obligations.ConfigurationHold := by
  intro s halone hphase
  refine ⟨fun hline => ?_, fun hline => ?_⟩
  · have hrun := stepRun_holdBlink halone hline
    rw [State.goto_phase hphase] at hrun
    exact ⟨_, hrun, rfl, rfl, rfl, rfl, rfl, rfl⟩
  · have hrun := stepRun_holdLeave halone hline
    rw [State.goto_phase hphase] at hrun
    exact ⟨_, hrun, rfl, rfl, rfl, hline, rfl, rfl, rfl⟩

/-! ## The main loop and the enable mirror -/

section
variable {s : State} (h : s.alone)
include h

/-- ENABLE_RISE, up to the test of its delay (R289). -/
theorem stepRun_enableRise (hlevel : s.enIn = true) (hoff : s.ctl.enabled = false) : stepRun 4 (s.goto .mirror) =
    .next (({ (s.levelSampled.setEnabled true).emit .enabled with
      delayCnt := s.cfg.settleT2 }).goto (.delayTest .settle)) :=
  calc stepRun 4 (s.goto .mirror)
    _ = stepRun 3 (s.levelSampled.goto .riseSet) := stepRun_to h rfl (State.supervise_mirror_rise hlevel hoff)
    _ = stepRun 2 ((s.levelSampled.setEnabled true).goto .riseEmit) := stepRun_to h rfl rfl
    _ = stepRun 1 (((s.levelSampled.setEnabled true).emit .enabled).goto (.delayLoad .settle)) :=
      stepRun_to h rfl rfl
    _ = _ := by exact stepRun_to h rfl rfl

/-- ENABLE_FALL (R290). -/
theorem stepRun_enableFall (hlevel : s.enIn = false) (hon : s.ctl.enabled = true) : stepRun 3 (s.goto .mirror) =
    .next (((s.levelSampled.setEnabled false).emit .disabled).goto .loop) :=
  calc stepRun 3 (s.goto .mirror)
    _ = stepRun 2 (s.levelSampled.goto .fallSet) := stepRun_to h rfl (State.supervise_mirror_fall hlevel hon)
    _ = stepRun 1 ((s.levelSampled.setEnabled false).goto .fallEmit) := stepRun_to h rfl rfl
    _ = _ := by exact stepRun_to h rfl rfl

end

/-- Settles O48: LOOP's test, the jerk test, and the three cases of the mirror. -/
theorem mainLoopAndEnableMirror : Obligations.MainLoopAndEnableMirror := by
  intro s halone
  have hstep (p : Phase) (hp : s.fg.phase = p) (hfetch : (s.goto p).fetch = none) :
      step s = .next (s.goto p).supervise := by
    rw [State.goto_phase hp] at hfetch ⊢
    exact step_supervise halone hfetch
  refine ⟨fun hp => ?_, fun hp => ?_, fun hp hlevel hoff => ?_, fun hp hlevel hon => ?_, fun hp hagree => ?_⟩
  · exact ⟨_, hstep .loop hp rfl, rfl, rfl⟩
  · exact ⟨_, hstep .jerkTest hp rfl, State.supervise_jerkTest_zero, State.supervise_jerkTest_set⟩
  · have hrun := stepRun_enableRise halone hlevel hoff
    rw [State.goto_phase hp] at hrun
    exact ⟨_, hrun, rfl, rfl, rfl, rfl⟩
  · have hrun := stepRun_enableFall halone hlevel hon
    rw [State.goto_phase hp] at hrun
    exact ⟨_, hrun, rfl, rfl, rfl⟩
  · exact ⟨_, hstep .mirror hp rfl, State.supervise_mirror_agree hagree⟩

end Sys2Proof.Machine
end

section
/-! The delays over secondary ticks (47_supervisor.md R291, R292, 60_exceptions.md R311), and the jerk pair, which is
two updates of the command accumulator, each with its delay (R286, R287). -/

namespace Sys2Proof.Machine

/-! ## Runs of turns -/

theorem runTurns_append {s t : State} {es : List Event} (h : runTurns es s = .next t) (fs : List Event) :
    runTurns (es ++ fs) s = runTurns fs t := by
  induction es generalizing s with
  | nil =>
    cases h
    rfl
  | cons e es ih =>
    cases he : s.turn e with
    | next u =>
      rw [runTurns_cons he] at h
      rw [List.cons_append, runTurns_cons he, ih h]
    | fault r => simp [runTurns, he] at h
    | refused r => simp [runTurns, he] at h

/-- FG's turns outside the commands, with the micro-step's result written out. -/
theorem runTurns_fg_to {s t : State} {es : List Event} (hrun : s.halted = false) (hfetch : s.fetch = none)
    (ht : s.supervise = t) : runTurns (.fg :: es) s = runTurns es t :=
  ht ▸ runTurns_cons (State.turn_fg_supervise hrun hfetch) es

/-- The steps of the block alone are FG's turns. -/
theorem stepRun_eq_runTurns {s : State} (h : s.alone) (n : Nat) : stepRun n s = runTurns (List.replicate n .fg) s := by
  induction n generalizing s with
  | zero => rfl
  | succ n ih =>
    obtain ⟨t, ht⟩ := fgStep_next s
    rw [← State.turn_fg_running h.2] at ht
    obtain ⟨hframe, -⟩ := State.turn_fg_frame ht
    have hscript : t.script = s.script := by rw [hframe]
    have hhalted : t.halted = s.halted := by rw [hframe]
    have halone : t.alone := ⟨hscript.trans h.1, hhalted.trans h.2⟩
    rw [stepRun, State.step_of_alone h, ht, List.replicate_succ, runTurns_cons ht]
    exact ih halone

/-! ## The delay counter -/

/-- The delay counter less `k`, at least 0. -/
def State.waited (k : Nat) (s : State) : State := { s with delayCnt := BitVec.ofNat 16 (s.delayCnt.toNat - k) }

theorem State.waited_delayCnt (k : Nat) (s : State) : (s.waited k).delayCnt.toNat = s.delayCnt.toNat - k := by
  have hlt := s.delayCnt.isLt
  simp only [State.waited, BitVec.toNat_ofNat]
  omega

theorem State.waited_delayCnt_eq_zero (k : Nat) (s : State) : (s.waited k).delayCnt = 0 ↔ s.delayCnt.toNat ≤ k := by
  have hcount := s.waited_delayCnt k
  bv_omega

theorem State.waited_of_le {k : Nat} {s : State} (h : s.delayCnt.toNat ≤ k) :
    s.waited k = { s with delayCnt := 0 } := by
  rw [State.waited, Nat.sub_eq_zero_of_le h]
  rfl

theorem State.waited_of_zero {s : State} (h : s.delayCnt = 0) (k : Nat) : s.waited k = s := by
  rw [State.waited_of_le (by simp [h]), ← h]

theorem State.waited_zero (s : State) : s.waited 0 = s := by simp [State.waited]

theorem State.waited_waited (j k : Nat) (s : State) : (s.waited j).waited k = s.waited (j + k) := by
  have hcount : (s.waited j).delayCnt.toNat - k = s.delayCnt.toNat - (j + k) := by
    rw [State.waited_delayCnt, Nat.sub_sub]
  exact congrArg (fun n => { s with delayCnt := BitVec.ofNat 16 n }) hcount

/-- Secondary ticks count, or there is nothing left to count. -/
def State.counting (s : State) : Prop := s.halted = false ∧ (s.isrOn = true ∨ s.delayCnt = 0)

theorem State.counting_waited {s : State} (h : s.counting) (k : Nat) : (s.waited k).counting := by
  obtain ⟨hrun, hon⟩ := h
  refine ⟨hrun, hon.imp_right fun hzero => ?_⟩
  simp [State.waited, hzero]

theorem State.tick2_eq_waited {s : State} (h : s.counting) : s.tick2 = s.waited 1 := by
  obtain ⟨hrun, hon⟩ := h
  by_cases hzero : s.delayCnt = 0
  · rw [State.waited_of_zero hzero, State.tick2]
    simp [hzero]
  · have hdelivered : ¬ (s.halted || !s.isrOn) = true := by simp [hrun, hon.resolve_right hzero]
    have hpos : 0 < s.delayCnt := by bv_omega
    have hcount : s.delayCnt - 1 = BitVec.ofNat 16 (s.delayCnt.toNat - 1) := by bv_omega
    rw [State.tick2, if_neg hdelivered, if_pos hpos, hcount, State.waited]

/-- Secondary ticks change nothing but the delay counter (R311). -/
theorem runTurns_tick2 {s : State} (h : s.counting) (k : Nat) :
    runTurns (List.replicate k .tick2) s = .next (s.waited k) := by
  induction k generalizing s with
  | zero => rw [s.waited_zero]; rfl
  | succ k ih =>
    have htick : s.turn .tick2 = .next (s.waited 1) := congrArg _ (State.tick2_eq_waited h)
    rw [List.replicate_succ, runTurns_cons htick, ih (State.counting_waited h 1), State.waited_waited, Nat.add_comm]

/-! ## The test of a delay -/

section
variable {s : State} {d : DelaySite} (hrun : s.halted = false)
include hrun

/-- Once the counter is 0 the delay returns, and only FG's phase changes. -/
theorem State.turn_delayTest_zero (hzero : s.delayCnt = 0) :
    (s.goto (.delayTest d)).turn .fg = .next (s.goto d.ret) := by
  have hstep : (s.goto (.delayTest d)).supervise = s.goto d.ret := if_pos hzero
  rw [State.turn_fg_supervise (s := s.goto (.delayTest d)) hrun rfl, hstep]

/-- While the counter is not 0 the test stays. -/
theorem State.turn_delayTest_pos (hpos : s.delayCnt ≠ 0) :
    (s.goto (.delayTest d)).turn .fg = .next (s.goto (.delayTest d)) := by
  have hstep : (s.goto (.delayTest d)).supervise = s.goto (.delayTest d) := if_neg hpos
  rw [State.turn_fg_supervise (s := s.goto (.delayTest d)) hrun rfl, hstep]

end

/-- Secondary ticks at the test of a delay. -/
theorem runTurns_tick2_delayTest {s : State} (d : DelaySite) (h : s.counting) (k : Nat) :
    runTurns (List.replicate k .tick2) (s.goto (.delayTest d)) = .next ((s.waited k).goto (.delayTest d)) :=
  runTurns_tick2 (s := s.goto (.delayTest d)) h k

/-- A delay from its test, with the ticks it asks for: it returns with its counter at 0. -/
theorem runTurns_delay {s : State} (d : DelaySite) (h : s.counting) :
    runTurns (List.replicate s.delayCnt.toNat .tick2 ++ [.fg]) (s.goto (.delayTest d)) =
      .next (({ s with delayCnt := 0 }).goto d.ret) := by
  rw [runTurns_append (runTurns_tick2_delayTest d h _), runTurns_singleton, State.waited_of_le le_rfl]
  exact State.turn_delayTest_zero (s := { s with delayCnt := 0 }) h.1 rfl

/-- The counter loaded for a delay (R291). -/
def State.delayLoaded (d : DelaySite) (s : State) : State := { s with delayCnt := d.ticks s.cfg }

theorem State.turn_delayLoad {s : State} {d : DelaySite} (hrun : s.halted = false)
    (hphase : s.fg.phase = .delayLoad d) : s.turn .fg = .next ((s.delayLoaded d).goto (.delayTest d)) := by
  rw [← State.goto_phase hphase]
  exact State.turn_fg_supervise (s := s.goto (.delayLoad d)) hrun rfl

/-- Settles O51: the load, then the ticks, then the test, for a delay at any of the four places. -/
theorem delayCountsSecondaryTicks : Obligations.DelayCountsSecondaryTicks := by
  intro s d k hrun hon hphase
  have hzero : ((s.delayLoaded d).waited k).delayCnt = 0 ↔ (d.ticks s.cfg).toNat ≤ k :=
    (s.delayLoaded d).waited_delayCnt_eq_zero k
  refine ⟨d.ticks s.cfg, d.ret, ((s.delayLoaded d).waited k).goto (.delayTest d), ?blink, ?jerkAdded, ?jerkSubtracted,
    ?settle, ?run, (s.delayLoaded d).waited_delayCnt k, rfl, fun hlt => ?stays, fun hle => ?returns⟩
  case run =>
    rw [runTurns_cons (State.turn_delayLoad hrun hphase)]
    exact runTurns_tick2_delayTest (s := s.delayLoaded d) d ⟨hrun, .inl hon⟩ k
  case stays => exact State.turn_delayTest_pos (s := (s.delayLoaded d).waited k) hrun (mt hzero.mp hlt.not_ge)
  case returns => exact State.turn_delayTest_zero (s := (s.delayLoaded d).waited k) hrun (hzero.mpr hle)
  all_goals
    rintro rfl
    exact ⟨rfl, rfl⟩

/-! ## The jerk pair -/

/-- `S.cmdAcc` less `jI`, or with `jI` added (R286). -/
def State.jerkSum (sub : Bool) (s : State) : Accum :=
  s.cfg.wrapAcc (if sub then s.ctl.cmdAcc - s.fg.jI.toInt else s.ctl.cmdAcc + s.fg.jI.toInt)

/-- The delay after each of the two updates of a jerk pair (R286). -/
def jerkSite (sub : Bool) : DelaySite := if sub then .jerkSubtracted else .jerkAdded

/-- The accumulator updated by half a jerk pair, the value it held in FG's locals, and `n` in the delay counter. -/
def State.jerkUpdated (sub : Bool) (n : Half) (s : State) : State :=
  { s with
    ctl := { s.ctl with cmdAcc := s.jerkSum sub }
    fg := { s.fg with t := s.ctl.cmdAcc }
    delayCnt := n }

/-- Adding and then subtracting the same leaves an accumulator as it was, overflowed in between or not. -/
theorem State.jerkSum_jerkUpdated {s : State} (hfits : fitsS s.cfg.accW s.ctl.cmdAcc = true) (n : Half) :
    (s.jerkUpdated false n).jerkSum true = s.ctl.cmdAcc :=
  calc s.cfg.wrapAcc (s.cfg.wrapAcc (s.ctl.cmdAcc + s.fg.jI.toInt) - s.fg.jI.toInt)
    _ = s.cfg.wrapAcc (s.ctl.cmdAcc + s.fg.jI.toInt - s.fg.jI.toInt) := wrapS_sub_left _ _ _
    _ = s.cfg.wrapAcc s.ctl.cmdAcc := by rw [add_sub_cancel_right]
    _ = s.ctl.cmdAcc := wrapS_of_fitsS hfits

theorem State.supervise_jerkGo (s : State) :
    (s.goto .jerkGo).supervise = s.goto (if !s.lineReady && s.enIn then .jerkRead false else .mirror) := rfl

/-- A line or a low level ends the jerk (R286). -/
theorem State.supervise_jerkGo_end {s : State} (h : s.lineReady = true ∨ s.enIn = false) :
    (s.goto .jerkGo).supervise = s.goto .mirror := by
  rcases h with h | h <;> simp [State.supervise_jerkGo, h]

theorem State.supervise_jerkGo_on {s : State} (hline : s.lineReady = false) (hlevel : s.enIn = true) :
    (s.goto .jerkGo).supervise = s.goto (.jerkRead false) := by
  simp [State.supervise_jerkGo, hline, hlevel]

theorem State.supervise_jerkSampled (sub : Bool) (s : State) :
    (s.jerkSampled sub).supervise = (s.jerkUpdated sub s.delayCnt).goto (.delayLoad (jerkSite sub)) := by
  cases sub <;> rfl

theorem jerkSite_ticks (c : Config) (sub : Bool) : (jerkSite sub).ticks c = c.jerkT2 := by cases sub <;> rfl

section
variable {s : State} (hrun : s.halted = false)
include hrun

/-- The read, the write and the load of the delay: the update is made, and FG is at the delay's test. -/
theorem runTurns_jerkUpdate (sub : Bool) (es : List Event) :
    runTurns (.fg :: .fg :: .fg :: es) (s.goto (.jerkRead sub)) =
      runTurns es ((s.jerkUpdated sub s.cfg.jerkT2).goto (.delayTest (jerkSite sub))) :=
  calc runTurns (.fg :: .fg :: .fg :: es) (s.goto (.jerkRead sub))
    _ = runTurns (.fg :: .fg :: es) (s.jerkSampled sub) := runTurns_fg_to hrun rfl rfl
    _ = runTurns (.fg :: es) ((s.jerkUpdated sub s.delayCnt).goto (.delayLoad (jerkSite sub))) :=
      runTurns_fg_to hrun rfl (s.supervise_jerkSampled sub)
    _ = _ := by
      rw [← jerkSite_ticks s.cfg sub]
      exact runTurns_fg_to hrun rfl rfl

/-- Half a pair from its read, with the ticks its delay asks for. -/
theorem runTurns_jerkHalf_tail (hon : s.isrOn = true ∨ s.cfg.jerkT2 = 0) (sub : Bool) :
    runTurns (jerkHalf s.cfg.jerkT2.toNat).tail (s.goto (.jerkRead sub)) =
      .next ((s.jerkUpdated sub 0).goto (jerkSite sub).ret) :=
  (runTurns_jerkUpdate hrun sub _).trans (runTurns_delay (s := s.jerkUpdated sub s.cfg.jerkT2) _ ⟨hrun, hon⟩)

variable (hline : s.lineReady = false) (hlevel : s.enIn = true)
include hline hlevel

/-- The test at the top of the pair goes on to its first half. -/
theorem runTurns_jerkGo (es : List Event) :
    runTurns (.fg :: es) (s.goto .jerkGo) = runTurns es (s.goto (.jerkRead false)) :=
  runTurns_fg_to hrun rfl (State.supervise_jerkGo_on hline hlevel)

/-- The first half of a pair, from the top: FG is at the read of the second. -/
theorem runTurns_jerkHalf (hon : s.isrOn = true ∨ s.cfg.jerkT2 = 0) :
    runTurns (jerkHalf s.cfg.jerkT2.toNat) (s.goto .jerkGo) =
      .next ((s.jerkUpdated false 0).goto (.jerkRead true)) :=
  (runTurns_jerkGo hrun hline hlevel _).trans (runTurns_jerkHalf_tail hrun hon false)

end

/-- Settles O49: a pair is two updates, the second of which takes back the first. -/
theorem jerkPairRestoresTheAccumulator : Obligations.JerkPairRestoresTheAccumulator := by
  intro s halone hphase
  have hs : s.goto .jerkGo = s := State.goto_phase hphase
  obtain ⟨-, hrun⟩ := id halone
  refine ⟨fun hend => ?_, fun hline hlevel => ⟨?_, fun hon hwidths _ => ?_⟩⟩
  · have hstep : s.supervise = s.goto .mirror := by rw [← State.supervise_jerkGo_end hend, hs]
    rw [step_supervise halone (by rw [State.fetch, hphase]), hstep]
    rfl
  · have hsum := (runTurns_jerkGo hrun hline hlevel _).trans (runTurns_jerkUpdate hrun false [])
    rw [hs] at hsum
    exact ⟨_, (stepRun_eq_runTurns halone 4).trans hsum, rfl, rfl, rfl⟩
  · have hfirst := runTurns_jerkHalf hrun hline hlevel hon
    have hsecond := runTurns_jerkHalf_tail (s := s.jerkUpdated false 0) hrun hon true
    rw [hs] at hfirst
    obtain ⟨hctl, -⟩ := s.inWidths_iff.mp hwidths
    refine ⟨⟨_, hfirst, rfl, rfl, rfl⟩, _, (runTurns_append hfirst _).trans hsecond, ?_, rfl, rfl, rfl, rfl⟩
    exact congrArg (fun a => { s.ctl with cmdAcc := a }) (State.jerkSum_jerkUpdated hctl.cmdAcc 0)

end Sys2Proof.Machine
end

section
/-! The exceptions and the order of events (60_exceptions.md): the halt entry and the halted block (R306, 10_state.md R48),
the choice among simultaneous events (R313), and the records of a turn (R300 to R303, R314). -/

namespace Sys2Proof.Machine

/-! ## The halt -/

theorem State.turn_envFault_running {s : State} (h : s.halted = false) : s.turn .envFault = .next s.haltEntry := by
  simp [State.turn, State.take, h]

theorem State.haltEntry_eq (s : State) :
    s.haltEntry = { s with halted := true, pwmPos := 0, pwmNeg := 0, isrOn := false, xlog := s.xlog ++ [.fatalEnv]
                           dutyTrace := s.haltEntry.dutyTrace } := rfl

theorem State.tick2_halted {s : State} (h : s.halted = true) : s.tick2 = s := by simp [State.tick2, h]

theorem State.turn_line_halted {s : State} (h : s.halted = true) (bytes : List Byte) :
    s.turn (.line bytes) = .next s := (onlyLinesAreRefused.2 s bytes).1 h

/-- A turn of a halted block, reset apart, writes at most an input level (R48, log 9). -/
theorem State.turn_halted {s : State} {e : Event} (h : s.halted = true) (hreset : e ≠ .reset) :
    ∃ c f l, s.turn e = .next { s with cmdCnt := c, fbCnt := f, enIn := l } := by
  have kept {e : Event} (hturn : s.turn e = .next s) :
      ∃ c f l, s.turn e = .next { s with cmdCnt := c, fbCnt := f, enIn := l } := ⟨s.cmdCnt, s.fbCnt, s.enIn, hturn⟩
  cases e with
  | reset => exact absurd rfl hreset
  | envFault => exact kept (by simp [State.turn, State.take, h])
  | tick => exact kept (State.turn_tick_ignored (.inl h))
  | tick2 => exact kept (congrArg _ (State.tick2_halted h))
  | line bytes => exact kept (State.turn_line_halted h bytes)
  | fg => exact kept (State.turn_fg_halted h)
  | cmdCnt v | fbCnt v | en v => exact ⟨_, _, _, rfl⟩

theorem runTurns_halted {es : List Event} {s : State} (h : s.halted = true) (hreset : .reset ∉ es) :
    ∃ c f l, runTurns es s = .next { s with cmdCnt := c, fbCnt := f, enIn := l } := by
  induction es generalizing s with
  | nil => exact ⟨s.cmdCnt, s.fbCnt, s.enIn, rfl⟩
  | cons e es ih =>
    obtain ⟨hne, hes⟩ := List.ne_and_not_mem_of_not_mem_cons hreset
    obtain ⟨c, f, l, hturn⟩ := State.turn_halted h hne.symm
    rw [runTurns_cons hturn]
    exact ih h hes

/-- Settles O52, by the halt entry and by induction on the turns of the halted block. -/
theorem haltEntryAndHaltedBlock : Obligations.HaltEntryAndHaltedBlock :=
  ⟨fun s h => ⟨s.haltEntry, State.turn_envFault_running h, s.haltEntry_eq⟩, fun _ _ => runTurns_halted⟩

/-! ## Simultaneous events -/

theorem firstOf_eq_none_iff {g : List Event} : firstOf g = none ↔ g = [] := by
  cases g with
  | nil => simp [firstOf]
  | cons e g =>
    rw [firstOf]
    split
    · simp
    · split <;> simp

/-- The event taken is of least rank and the earliest listed of that rank; exactly the others are left, in their order. -/
theorem firstOf_eq_some {g rest : List Event} {e : Event} (h : firstOf g = some (e, rest)) :
    ∃ before after, g = before ++ e :: after ∧ rest = before ++ after ∧
      (∀ f ∈ before, e.rank < f.rank) ∧ ∀ f ∈ after, e.rank ≤ f.rank := by
  induction g generalizing e rest with
  | nil => cases h
  | cons a g ih =>
    rw [firstOf] at h
    split at h
    case h_1 hnone =>
      cases h
      exact ⟨[], [], by rw [firstOf_eq_none_iff.mp hnone, List.nil_append], rfl, by simp, by simp⟩
    case h_2 b others hsome =>
      obtain ⟨before, after, rfl, rfl, hbefore, hafter⟩ := ih hsome
      split at h
      case isTrue hlt =>
        cases h
        exact ⟨a :: before, after, rfl, rfl, List.forall_mem_cons.mpr ⟨hlt, hbefore⟩, hafter⟩
      case isFalse hle =>
        cases h
        have hab : a.rank ≤ b.rank := Nat.le_of_not_lt hle
        refine ⟨[], before ++ b :: after, rfl, rfl, by simp, ?_⟩
        exact List.forall_mem_append.mpr ⟨fun f hf => hab.trans (hbefore f hf).le,
          List.forall_mem_cons.mpr ⟨hab, fun f hf => hab.trans (hafter f hf)⟩⟩

/-- Settles O54: of a nonempty group the step takes the event that `firstOf` selects; the ranks are read off. -/
theorem simultaneousEventsAreTakenInOrder : Obligations.SimultaneousEventsAreTakenInOrder := by
  refine ⟨fun s g later hscript hne => ?_, fun bytes c f b => by simp [Event.rank]⟩
  rcases step_cases s with ⟨hnil, -⟩ | ⟨_, hempty, -⟩ | ⟨g', later', e, rest, hs, hfirst, hstep⟩
  · cases hscript.symm.trans hnil
  · cases hscript.symm.trans hempty
    exact absurd rfl hne
  · cases hscript.symm.trans hs
    obtain ⟨before, after, hg, rfl, hbefore, hafter⟩ := firstOf_eq_some hfirst
    exact ⟨before, e, after, hg, hbefore, hafter, hstep⟩

/-! ## The records of a turn -/

theorem State.controlCycle_xlog (s : State) : s.controlCycle.xlog = s.xlog ∨
    s.controlCycle.xlog = s.xlog ++ [.positionFault s.controlCycle.ctl.error] := by
  obtain ⟨c, k, hedge, -⟩ := s.edgeCheck_eq
  obtain ⟨c', x, hpid, -, -, -, -, -, hrecord⟩ := (s.edgeCheck.track s.cmdCnt s.fbCnt).pid_eq
  obtain ⟨p, n, w, hmap, -⟩ := (s.edgeCheck.track s.cmdCnt s.fbCnt).pid.map_eq s.ctl.enabled
  unfold State.controlCycle
  rw [hmap, hpid, hedge]
  rcases hrecord with ⟨rfl, -⟩ | ⟨rfl, -⟩
  · exact .inr rfl
  · exact .inl (List.append_nil _)

/-- A tick records at most POSITION_FAULT, of the error it has computed (R302). -/
theorem State.tick_xlog (s : State) :
    s.tick.xlog = s.xlog ∨ s.tick.xlog = s.xlog ++ [.positionFault s.tick.ctl.error] := by
  rcases s.tick_cases with ⟨-, h⟩ | ⟨-, -, -, h⟩ | ⟨-, -, -, h⟩
  · exact .inl (by rw [h])
  · rw [h]
    exact (s.setCycleCount 0).controlCycle_xlog
  · exact .inl (by rw [h]; rfl)

/-- The program outside the commands records only CFG_INTEGRITY, where LOAD has found no valid image (R301). -/
theorem State.supervise_xlog (s : State) : s.supervise.xlog = s.xlog ∨
    (s.fg.phase = .loadMissing ∧ s.supervise.xlog = s.xlog ++ [.cfgIntegrity s.fg.img]) := by
  cases h : s.fg.phase with
  | loadMissing =>
    rw [State.supervise, h]
    exact .inr ⟨rfl, rfl⟩
  | delayTest d =>
    simp only [State.supervise, h]
    split <;> exact .inl rfl
  | jerkTest =>
    simp only [State.supervise, h, State.jerkTest]
    split <;> exact .inl rfl
  | jerkWrite sub =>
    rw [State.supervise, h]
    cases sub <;> exact .inl rfl
  | _ =>
    rw [State.supervise, h]
    exact .inl rfl

theorem epilogue_xlog (i : Instr) : ∀ f ∈ epilogue i, ∀ s, (f s).xlog = s.xlog := by
  unfold epilogue
  split <;> simp

/-- No micro-step of a command's body but HELP's records an exception. -/
theorem body_xlog (n : NumOps) {i : Instr} (h : ∀ first, i ≠ .help first) :
    ∀ f ∈ (Instr.body n i).span ++ (Instr.body n i).rest, ∀ s, (f s).xlog = s.xlog := by
  cases i with
  | help first => exact absurd rfl (h first)
  | stat => simp [Instr.body, statSpan, State.emitStat]
  | zero => simp [Instr.body, zeroSpan]
  | rdfb => simp [Instr.body, State.emitFeedback]
  | list => simp [Instr.body]
  | _ q => cases q <;> simp [Instr.body, setReg, setiBody, setInt, setjBody]

theorem exec_xlog_of_ne_help {i : Instr} {s t : State} (hi : ∀ first, i ≠ .help first) (h : exec i s = .next t) :
    t.xlog = s.xlog := by
  rw [exec_eq] at h
  have hsteps : ∀ f ∈ (Instr.body s.num i).span ++ ((Instr.body s.num i).rest ++ epilogue i),
      ∀ u, (f u).xlog = u.xlog := by
    rw [← List.append_assoc]
    exact List.forall_mem_append.mpr ⟨body_xlog s.num hi, epilogue_xlog i⟩
  obtain ⟨u, hu, ⟨n, k, rfl⟩ | rfl⟩ :=
    runCommand_induct (P := fun u => u.xlog = s.xlog) h (fun f hf u hu => (hsteps f hf u).trans hu) rfl
  · exact hu
  · exact hu

theorem microList_help (c : Config) (first : Option Byte) :
    microList c (.help first) = State.emitHelp first :: epilogue (.help first) := by
  simp [microList, Instr.body, Body.microSteps, fuse]

/-- HELP records MALFORMED_CMD in its first micro-step, and nothing after it (R303, log 10). -/
theorem exec_help_xlog {first : Option Byte} {s t : State} (h : exec (.help first) s = .next t) :
    t.xlog = s.xlog ∨ (s.microIndex = 0 ∧ t.xlog = s.xlog ++ [.malformedCmd first]) := by
  rw [exec_eq] at h
  rcases runCommand_cases (.help first) (Instr.body s.num (.help first)) s with ⟨f, hf, hr⟩ | ⟨-, hr⟩
  · cases hr.symm.trans h
    have hf : (microList s.cfg (.help first))[s.microIndex]? = some f := hf
    rw [microList_help] at hf
    cases hk : s.microIndex with
    | zero =>
      rw [hk] at hf
      cases hf
      exact .inr ⟨rfl, rfl⟩
    | succ k =>
      rw [hk, List.getElem?_cons_succ] at hf
      exact .inl (epilogue_xlog _ f (List.mem_of_getElem? hf) s)
  · cases hr.symm.trans h
    exact .inl rfl

theorem exec_xlog {i : Instr} {s t : State} (h : exec i s = .next t) :
    t.xlog = s.xlog ∨
      (s.microIndex = 0 ∧ ∃ first, i = .help first ∧ t.xlog = s.xlog ++ [.malformedCmd first]) := by
  by_cases hi : ∃ first, i = .help first
  · obtain ⟨first, rfl⟩ := hi
    exact (exec_help_xlog h).imp_right fun ⟨hk, hrecord⟩ => ⟨hk, first, rfl, hrecord⟩
  · exact .inl (exec_xlog_of_ne_help (not_exists.mp hi) h)

/-- A turn of FG records at most CFG_INTEGRITY by LOAD, or MALFORMED_CMD by HELP. -/
theorem State.turn_fg_xlog {s t : State} (h : s.turn .fg = .next t) :
    t.xlog = s.xlog ∨ (s.fg.phase = .loadMissing ∧ t.xlog = s.xlog ++ [.cfgIntegrity s.fg.img]) ∨
      (s.microIndex = 0 ∧ ∃ first, s.fetch = some (.help first) ∧ t.xlog = s.xlog ++ [.malformedCmd first]) := by
  rcases State.turn_fg_cases h with rfl | ⟨-, i, hi, he⟩ | ⟨-, -, rfl⟩
  · exact .inl rfl
  · rcases exec_xlog he with hkept | ⟨hk, first, rfl, hrecord⟩
    · exact .inl hkept
    · exact .inr (.inr ⟨hk, first, hi, hrecord⟩)
  · exact s.supervise_xlog.imp_right .inl

/-- Settles O56, by what each agent records. -/
theorem atMostOneExceptionAStep : Obligations.AtMostOneExceptionAStep := by
  intro s t e h hreset
  cases e with
  | reset => exact absurd rfl hreset
  | envFault =>
    cases h
    split
    · exact .inl rfl
    · exact .inr ⟨.fatalEnv, rfl, .inr (.inl ⟨rfl, rfl⟩)⟩
  | tick =>
    cases h
    exact s.tick_xlog.imp_right fun hrecord => ⟨_, hrecord, .inl ⟨rfl, rfl⟩⟩
  | tick2 =>
    cases h
    exact .inl (by rcases s.tick2_cases with h | ⟨-, h⟩ <;> rw [h])
  | line bytes => exact .inl (by rcases State.deliverLine_next h with rfl | ⟨-, rfl⟩ <;> rfl)
  | fg =>
    rcases State.turn_fg_xlog h with hkept | ⟨hphase, hrecord⟩ | ⟨hk, first, hfetch, hrecord⟩
    · exact .inl hkept
    · exact .inr ⟨_, hrecord, .inr (.inr (.inl ⟨rfl, hphase, rfl⟩))⟩
    · exact .inr ⟨_, hrecord, .inr (.inr (.inr ⟨rfl, hk, first, hfetch, rfl⟩))⟩
  | cmdCnt v | fbCnt v | en v =>
    cases h
    exact .inl rfl

end Sys2Proof.Machine
end

section
/-! Reset (70_reset_and_hazards.md): it is taken first of whatever is presented with it (R330, R313), and the state it
leaves meets the invariants that the steps keep. -/

namespace Sys2Proof.Machine

/-! ## Reset among simultaneous events -/

theorem Event.rank_eq_zero_iff {e : Event} : e.rank = 0 ↔ e = .reset := by
  cases e <;> simp [Event.rank]

/-- Of a group that holds a reset the step takes the reset: no event of another kind ranks as high. -/
theorem step_reset_mem {s : State} {g : List Event} {later : List (List Event)} (hscript : s.script = g :: later)
    (hreset : .reset ∈ g) : ∃ l, step s = .next ({ s with script := l }).doReset := by
  obtain ⟨before, e, after, rfl, hbefore, hafter, hstep⟩ :=
    simultaneousEventsAreTakenInOrder.1 s g later hscript (List.ne_nil_of_mem hreset)
  have hle : e.rank ≤ Event.reset.rank := by
    rcases List.mem_append.mp hreset with hmem | hmem
    · exact (hbefore _ hmem).le
    · rcases List.mem_cons.mp hmem with rfl | hmem
      · exact le_rfl
      · exact hafter _ hmem
  obtain rfl : e = .reset := Event.rank_eq_zero_iff.mp (Nat.le_zero.mp hle)
  exact ⟨_, hstep⟩

/-- Settles O53: the step is the reset, whose writes are read off. -/
theorem resetOverridesEverything : Obligations.ResetOverridesEverything := by
  intro s g later hscript hreset
  obtain ⟨l, hstep⟩ := step_reset_mem hscript hreset
  refine ⟨_, hstep, ?_⟩
  and_intros <;> rfl

/-! ## The invariants after reset -/

theorem dataInv_reset : DataInv State.reset := by
  have hwf : State.reset.cfg.wf = true := by decide
  refine ⟨hwf, Config.defaults_inRange hwf, show (0 : Half).toNat < 100 by decide, rfl, Nat.zero_le _, ?_,
    fun _ => show Num32.isNaN 0 = false by decide⟩
  exact (State.inWidths_iff _).mpr ⟨controlFits_atReset _,
    ⟨fitsS_zero _, fitsS_zero _, fitsU_zero _, fitsU_zero _⟩, ⟨fitsU_zero _, fitsU_zero _⟩, fitsU_zero _, fitsU_zero _⟩

/-- FG stands at `BOOT0`, disabled, with every flag down and interrupts off. -/
theorem standInv_reset : StandInv State.reset :=
  ⟨fun _ => rfl, nofun, nofun, fun _ => .inr rfl, nofun, nofun⟩

/-- Settles O59, by the two halves of the block's invariant and the two duty registers at 0. -/
theorem resetMeetsTheInvariants : Obligations.ResetMeetsTheInvariants :=
  ⟨(inv_iff _).mpr ⟨dataInv_reset, standInv_reset⟩, .of_zero rfl rfl⟩

end Sys2Proof.Machine
end

section
/-! The commands as lists of micro-steps (46_commands.md R240 to R262): the step that runs one, the first micro-step of
each under either value of OPT_ATOMIC_CMD, and each command's whole effect. -/

namespace Sys2Proof.Machine

/-! ## The step and the command -/

theorem State.fetch_eq_some {s : State} {i : Instr}
    (h : (s.fg.phase = .dispatch ∧ decodeLine s.lineBuf = i) ∨ ((∃ k, s.fg.phase = .command k) ∧ s.fg.instr = i)) :
    s.fetch = some i := by
  rcases h with ⟨hp, rfl⟩ | ⟨⟨k, hp⟩, rfl⟩ <;> rw [State.fetch, hp]

/-- FG's turn inside a command, or where one is dispatched, is the command's micro-step. -/
theorem State.turn_fg_exec {s : State} {i : Instr} (hrun : s.halted = false) (hfetch : s.fetch = some i) :
    s.turn .fg = exec i s := by
  rw [State.turn_fg_running hrun, fgStep, hfetch]

/-- Settles O33: the step is FG's turn, and FG fetches the command. -/
theorem stepRunsTheDecodedCommand : Obligations.StepRunsTheDecodedCommand := by
  intro s i hrun hat
  refine ⟨fun hscript => ?_, fun later hscript => ?_⟩
  · rw [State.step_of_alone ⟨hscript, hrun⟩, State.turn_fg_exec hrun (State.fetch_eq_some hat)]
  · have hstep : step s = ({ s with script := later }).turn .fg := by
      rw [step, hscript]
      rfl
    rw [hstep]
    exact State.turn_fg_exec hrun (State.fetch_eq_some hat)

/-! ## Whole commands -/

theorem microList_length (c : Config) (i : Instr) : (microList c i).length = microCount c.optAtomicCmd i := by
  rw [microList, Body.microSteps]
  cases i with
  | rdfb | list | stat | zero | help => cases c.optAtomicCmd <;> rfl
  | _ q => cases q <;> cases c.optAtomicCmd <;> rfl

/-- A command from its start, with nothing between its micro-steps, has its whole effect in its number of them. -/
theorem execRun_microCount (i : Instr) {s : State} (h : s.atCommandStart) :
    execRun i (microCount s.cfg.optAtomicCmd i) s = .next ((commandEffect i s).commandDone i) := by
  rw [← microList_length, execRun_whole i s h, foldl_microList]
  rfl

/-- Settles O34. -/
theorem everyCommandCompletesWithItsEffect : Obligations.EveryCommandCompletesWithItsEffect := fun i s h =>
  ⟨exec_next i s, execRun_microCount i h⟩

/-! ## The first micro-steps -/

theorem exec_start {i : Instr} {s : State} {f g : State → State} {fs : List (State → State)} (h : s.atCommandStart)
    (hlist : microList s.cfg i = f :: g :: fs) : exec i s = .next ((f s).withProgress (.command 1) i) := by
  have hindex : s.microIndex = 0 := h
  have hfirst : (microList s.cfg i)[s.microIndex]? = some f := by rw [hindex, hlist]; rfl
  rw [exec_at i s hfirst, hindex, hlist, if_pos (by simp)]

theorem execRun_two {i : Instr} {s : State} {f g k : State → State} {fs : List (State → State)} (h : s.atCommandStart)
    (hlist : microList s.cfg i = f :: g :: k :: fs) :
    execRun i 2 s = .next ((g (f s)).withProgress (.command 2) i) := by
  have hplain : ∀ e ∈ microList s.cfg i, PlainStep e := plainStep_microList s.cfg i
  rw [hlist] at hplain
  obtain ⟨hf, hg, -⟩ : PlainStep f ∧ PlainStep g ∧ _ := by simpa using hplain
  have hsecond : exec i ((f s).withProgress (.command 1) i) = .next ((g (f s)).withProgress (.command 2) i) := by
    have hcfg : ((f s).withProgress (.command 1) i).cfg = s.cfg := hf.cfg s
    have hindex : ((f s).withProgress (.command 1) i).microIndex = 1 := rfl
    rw [exec_at (f := g) i _ (by rw [hcfg, hindex, hlist]; rfl), hindex, hcfg, hlist, if_pos (by simp), hg.commutes]
    rfl
  rw [execRun, exec_start h hlist]
  simp only [execRun, hsecond]

/-- Without OPT_ATOMIC_CMD the micro-steps stand one by one. -/
theorem microList_of_not_atomic {c : Config} (h : c.optAtomicCmd = false) (i : Instr) :
    microList c i = (Instr.body c.arith i).span ++ (Instr.body c.arith i).rest ++ epilogue i := by
  rw [microList, Body.microSteps, h]
  rfl

theorem microList_of_atomic {c : Config} (h : c.optAtomicCmd = true) (i : Instr) :
    microList c i = fuse (Instr.body c.arith i).span ++ (Instr.body c.arith i).rest ++ epilogue i := by
  rw [microList, Body.microSteps, h]
  rfl

/-- A body whose span is at most one micro-step is the same under either option. -/
theorem microList_of_short_span {c : Config} {i : Instr} (h : (Instr.body c.arith i).span.length ≤ 1) :
    microList c i = (Instr.body c.arith i).span ++ (Instr.body c.arith i).rest ++ epilogue i := by
  have hfuse : ∀ fs : List (State → State), fs.length ≤ 1 → fuse fs = fs
    | [], _ => rfl
    | [_], _ => rfl
  cases hc : c.optAtomicCmd with
  | false => exact microList_of_not_atomic hc i
  | true => rw [microList_of_atomic hc, hfuse _ h]

/-! ## Commands that save -/

theorem State.saved_nvmLoad (s : State) : s.saved.nvmLoad = image s.saved.par :=
  State.nvmLoad_eq rfl (image_length s.saved.par)

/-- A command that saves, done: `u` is the state whose register is written. -/
def State.savedDone (i : Instr) (u : State) : State := u.saved.emitDump.commandDone i

theorem State.savedDone_nvmLoad (i : Instr) (u : State) : (u.savedDone i).nvmLoad = image (u.savedDone i).par :=
  u.saved_nvmLoad

theorem State.savedDone_tx (i : Instr) (u : State) :
    (u.savedDone i).tx = u.tx ++ [.dump (u.savedDone i).par, .prompt] :=
  List.append_assoc u.tx [.dump u.saved.par] [.prompt]

/-! ## SETREG -/

section
variable {i : Instr} {r : FloatReg} {d : Decimal} {s : State} (hs : s.atCommandStart)
  (hbody : Instr.body s.num i = setReg s.num r (some d))
include hs hbody

theorem exec_setReg_first (hatomic : s.cfg.optAtomicCmd = false) :
    exec i s = .next ((s.writeFloat r (s.num.decToNum d)).withProgress (.command 1) i) := by
  refine exec_start (g := State.writeChecksum) (fs := State.saveImage :: epilogue i) hs ?_
  rw [microList_of_not_atomic hatomic]
  exact congrArg (fun b : Body => b.span ++ b.rest ++ epilogue i) hbody

/-- With OPT_ATOMIC_CMD the first micro-step of SETREG writes the register and the checksum (46_commands.md R243). -/
theorem exec_setReg_span (hatomic : s.cfg.optAtomicCmd = true) :
    exec i s = .next ((s.writeFloat r (s.num.decToNum d)).writeChecksum.withProgress (.command 1) i) := by
  refine exec_start (f := fun u => (u.writeFloat r (s.num.decToNum d)).writeChecksum) (g := State.saveImage)
    (fs := epilogue i) hs ?_
  rw [microList_of_atomic hatomic]
  exact congrArg (fun b : Body => fuse b.span ++ b.rest ++ epilogue i) hbody

end

/-- Settles O35, command by command: the first micro-step and the whole effect of SETREG. -/
theorem setRegCommandsComplete : Obligations.SetRegCommandsComplete := by
  intro p hp d s hs hatomic
  have complete {i : Instr} {r : FloatReg} (hbody : Instr.body s.num i = setReg s.num r (some d))
      (hcount : microCount false i = 6)
      (heffect : commandEffect i s = (s.writeFloat r (s.num.decToNum d)).saved.emitDump) :
      exec i s = .next ((s.writeFloat r (s.num.decToNum d)).withProgress (.command 1) i) ∧
        execRun i 6 s = .next ((s.writeFloat r (s.num.decToNum d)).savedDone i) := by
    have hrun := execRun_microCount i hs
    rw [hatomic, hcount, heffect] at hrun
    exact ⟨exec_setReg_first hs hbody hatomic, hrun⟩
  suffices h : exec (p.1 (some d)) s =
        .next ((s.writeFloat p.2 (s.num.decToNum d)).withProgress (.command 1) (p.1 (some d))) ∧
      execRun (p.1 (some d)) 6 s = .next ((s.writeFloat p.2 (s.num.decToNum d)).savedDone (p.1 (some d))) from
    ⟨h.1, _, h.2, rfl, rfl, State.savedDone_nvmLoad _ _, State.savedDone_tx _ _, rfl, rfl, rfl⟩
  simp only [List.mem_cons, List.not_mem_nil, or_false] at hp
  rcases hp with rfl | rfl | rfl | rfl | rfl | rfl | rfl <;> exact complete rfl rfl rfl

/-! ## SETI -/

theorem microList_seti {c : Config} (h : c.optAtomicCmd = false) (d : Decimal) :
    microList c (.seti (some d)) = [State.zeroIntegral, State.writeFloat .igain (c.arith.decToNum d),
      State.writeChecksum, State.saveImage, State.emitDump, State.lineReset, State.emit .prompt] :=
  microList_of_not_atomic h _

/-- Settles O36: the first two micro-steps, and the whole effect. -/
theorem setIntegralGainCompletes : Obligations.SetIntegralGainCompletes := by
  intro d s hs hatomic
  have hlist := microList_seti hatomic d
  have hrun := execRun_microCount (.seti (some d)) hs
  rw [hatomic] at hrun
  exact ⟨exec_start hs hlist, ⟨_, execRun_two hs hlist, rfl, rfl, rfl⟩,
    _, hrun, rfl, rfl, rfl, State.savedDone_nvmLoad _ _,
    State.savedDone_tx _ (s.zeroIntegral.writeFloat .igain (s.num.decToNum d)), rfl, rfl, rfl⟩

/-! ## SETX and SETT -/

/-- The clamped operand as the signed value of its register. -/
theorem clampOperand_bounds (d : Decimal) {lo hi : Int} (hlo : -(2 ^ 15) ≤ lo) (h : lo ≤ hi) (hhi : hi < 2 ^ 15) :
    lo ≤ (clampOperand d lo hi).toInt ∧ (clampOperand d lo hi).toInt ≤ hi := by
  have hbounds := clampInt_bounds (truncIntExact (limitExp d)) h
  have hval : (clampOperand d lo hi).toInt = clampInt (truncIntExact (limitExp d)) lo hi := by
    rw [clampOperand, BitVec.toInt_ofInt_eq_self (by decide)] <;> omega
  rwa [hval]

/-- Settles O37: the first micro-step and the whole effect of each, with the bounds of the clamp. -/
theorem setIntCommandsComplete : Obligations.SetIntCommandsComplete := by
  intro d s hs hatomic
  have hlist {i : Instr} {write : Half → State → State} {lo hi : Int}
      (hbody : Instr.body s.num i = setInt write lo hi (some d)) : microList s.cfg i =
        write (clampOperand d lo hi) :: State.writeChecksum :: State.saveImage :: epilogue i := by
    rw [microList_of_not_atomic hatomic]
    exact congrArg (fun b : Body => b.span ++ b.rest ++ epilogue i) hbody
  have hrun (i : Instr) := execRun_microCount i hs
  rw [hatomic] at hrun
  obtain ⟨hxlo, hxhi⟩ := clampOperand_bounds d (lo := 1) (hi := 22) (by decide) (by decide) (by decide)
  obtain ⟨htlo, hthi⟩ := clampOperand_bounds d (lo := 1) (hi := 100) (by decide) (by decide) (by decide)
  exact ⟨exec_start hs (hlist (i := .setx (some d)) rfl), exec_start hs (hlist (i := .sett (some d)) rfl),
    ⟨_, hrun (.setx (some d)), rfl, hxlo, hxhi, rfl, State.savedDone_nvmLoad _ _,
      State.savedDone_tx _ (s.writeMultiplier (clampOperand d 1 22)), rfl⟩,
    ⟨_, hrun (.sett (some d)), rfl, htlo, hthi, rfl, State.savedDone_nvmLoad _ _,
      State.savedDone_tx _ (s.writeTicks (clampOperand d 1 100)), rfl⟩⟩

/-! ## SETJ, RDFB and LIST -/

theorem microList_setj (c : Config) (d : Decimal) : microList c (.setj (some d)) =
    [State.writeJerk (c.arith.decToNum d), State.lineReset, State.emit .prompt] :=
  microList_of_short_span le_rfl

theorem microList_rdfb (c : Config) : microList c .rdfb =
    [State.sampleFeedback, State.emitFeedback, State.emitDump, State.lineReset, State.emit .prompt] :=
  microList_of_short_span le_rfl

theorem microList_list (c : Config) :
    microList c .list = [State.emitDump, State.lineReset, State.emit .prompt] :=
  microList_of_short_span (Nat.zero_le 1)

/-- Settles O38, by the first micro-step and the whole effect of each. -/
theorem jerkFeedbackAndListComplete : Obligations.JerkFeedbackAndListComplete := by
  intro d s hs
  have hrun (i : Instr) := execRun_microCount i hs
  refine ⟨⟨_, exec_start hs (microList_setj s.cfg d), hrun (.setj (some d)), rfl, rfl, rfl, rfl⟩,
    ⟨_, exec_start hs (microList_rdfb s.cfg), hrun .rdfb, ?_, rfl, rfl⟩,
    ⟨_, exec_start hs (microList_list s.cfg), hrun .list, ?_, rfl, rfl⟩⟩
  · simp [commandEffect, State.commandDone, State.emitFeedback, State.sampleFeedback]
  · simp [commandEffect, State.commandDone]

/-! ## STAT, ZERO and HELP -/

theorem microList_stat {c : Config} (h : c.optAtomicCmd = false) :
    microList c .stat = statSpan ++ [State.emitStat] ++ epilogue .stat :=
  microList_of_not_atomic h .stat

/-- Settles O39. -/
theorem statCompletes : Obligations.StatCompletes := by
  intro s hs hatomic
  have hrun := execRun_microCount .stat hs
  rw [hatomic] at hrun
  refine ⟨exec_start hs (microList_stat hatomic), _, hrun, ?_, rfl, rfl, rfl⟩
  simp [commandEffect, State.commandDone, State.emitStat, State.statSampled, State.num]

theorem microList_zero {c : Config} (h : c.optAtomicCmd = false) : microList c .zero = zeroSpan ++ epilogue .zero :=
  microList_of_not_atomic h .zero

/-- Settles O40. -/
theorem zeroAndHelpComplete : Obligations.ZeroAndHelpComplete := by
  intro first s hs
  have hrun (i : Instr) := execRun_microCount i hs
  refine ⟨fun hatomic => ?_, exec_start hs (microList_help s.cfg first), _, hrun (.help first), ?_, rfl, rfl, rfl⟩
  · rw [hatomic] at hrun
    have hlist := microList_zero hatomic
    refine ⟨exec_start hs hlist, ⟨_, execRun_two hs hlist, rfl⟩, _, hrun .zero, rfl, ?_, rfl, rfl⟩
    simp [commandEffect, State.commandDone, State.zeroed]
  · simp [commandEffect, State.commandDone, State.emitHelp]

/-! ## An absent value -/

/-- Settles O41: without a value nothing but the epilogue is left of a command. -/
theorem absentValueWritesNothing : Obligations.AbsentValueWritesNothing := by
  refine ⟨fun mk hmk s hs => ?_, fun s hs => ?_⟩
  · have hrun {i : Instr} (hbody : Instr.body s.cfg.arith i = ⟨[], []⟩) (hend : epilogueDumps i = true)
        (hcount : ∀ atomic, microCount atomic i = 3) (heffect : commandEffect i s = s.emitDump) :
        exec i s = .next (s.emitDump.withProgress (.command 1) i) ∧
          execRun i 3 s = .next (s.emitDump.commandDone i) := by
      have hlist : microList s.cfg i = [State.emitDump, State.lineReset, State.emit .prompt] := by
        rw [microList_of_short_span (hbody ▸ Nat.zero_le 1), hbody, epilogue, if_pos hend]
        rfl
      have h := execRun_microCount i hs
      rw [hcount, heffect] at h
      exact ⟨exec_start hs hlist, h⟩
    suffices h : exec (mk none) s = .next (s.emitDump.withProgress (.command 1) (mk none)) ∧
        execRun (mk none) 3 s = .next (s.emitDump.commandDone (mk none)) from
      ⟨⟨_, h.1, rfl⟩, _, h.2, List.append_assoc s.tx [.dump s.par] [.prompt], rfl, rfl⟩
    simp only [List.mem_cons, List.not_mem_nil, or_false] at hmk
    rcases hmk with rfl | rfl | rfl | rfl | rfl | rfl | rfl | rfl | rfl | rfl <;>
      exact hrun rfl rfl (fun _ => rfl) rfl
  · have hlist : microList s.cfg (.setj none) = [State.lineReset, State.emit .prompt] :=
      microList_of_short_span (Nat.zero_le 1)
    exact ⟨⟨_, exec_start hs hlist, rfl⟩, _, execRun_microCount (.setj none) hs, rfl, rfl, rfl⟩

/-! ## Atomic spans -/

/-- Settles O42: the first micro-step of each list is the fused span. -/
theorem atomicSpansAreOneMicroStep : Obligations.AtomicSpansAreOneMicroStep := by
  intro d s hs hatomic
  have hlist (i : Instr) := microList_of_atomic hatomic i
  refine ⟨fun p hp => ?setReg, ⟨_, exec_start hs (hlist (.seti (some d))), rfl, rfl, rfl, rfl, rfl⟩,
    ⟨_, exec_start hs (hlist (.setx (some d))), rfl, rfl, rfl, rfl⟩,
    ⟨_, exec_start hs (hlist (.sett (some d))), rfl, rfl, rfl, rfl⟩,
    ⟨_, exec_start hs (microList_setj s.cfg d), rfl, rfl, rfl⟩,
    ⟨_, exec_start hs (microList_rdfb s.cfg), rfl, rfl⟩,
    ⟨_, exec_start hs (hlist .stat), rfl, rfl, rfl, rfl, rfl, rfl, rfl, rfl, rfl, rfl⟩,
    ⟨_, exec_start hs (hlist .zero), rfl, rfl, rfl⟩⟩
  case setReg =>
    have hspan : exec (p.1 (some d)) s =
        .next ((s.writeFloat p.2 (s.num.decToNum d)).writeChecksum.withProgress (.command 1) (p.1 (some d))) := by
      simp only [List.mem_cons, List.not_mem_nil, or_false] at hp
      rcases hp with rfl | rfl | rfl | rfl | rfl | rfl | rfl <;> exact exec_setReg_span hs rfl hatomic
    refine ⟨_, hspan, ?_, rfl, rfl, rfl⟩
    exact (State.saved_getFloat _ p.2).trans ((Params.getFloat_setFloat _ _ _ _).trans (if_pos rfl))

end Sys2Proof.Machine
end

section
/-! The frames of the commands, at any micro-step (46_commands.md R242 to R262, 45_param_store.md R225,
10_state.md R31): what no micro-step of a command writes, a call of the command keeps. -/

namespace Sys2Proof.Machine

/-! ## What a call keeps -/

theorem epilogue_keeps {α : Type} {g : State → α} (i : Instr) (hemit : ∀ u ev, g (u.emit ev) = g u)
    (hreset : ∀ u, g u.lineReset = g u) : ∀ f ∈ epilogue i, ∀ u, g (f u) = g u := by
  have hend : ∀ f ∈ [State.lineReset, State.emit .prompt], ∀ u, g (f u) = g u := by
    simpa using ⟨hreset, fun u => hemit u _⟩
  rw [epilogue]
  split
  · exact List.forall_mem_cons.mpr ⟨fun u => hemit u _, hend⟩
  · exact hend

/-- What neither the micro-steps of the body, nor the text, nor FG's own progress touches, a call of the command
keeps. -/
theorem exec_keeps {α : Type} (g : State → α) {i : Instr} {s t : State} (h : exec i s = .next t)
    (hbody : ∀ f ∈ (Instr.body s.num i).span ++ (Instr.body s.num i).rest, ∀ u, g (f u) = g u)
    (hemit : ∀ u ev, g (u.emit ev) = g u := by intros; rfl) (hreset : ∀ u, g u.lineReset = g u := by intros; rfl)
    (hprogress : ∀ u p j, g (u.withProgress p j) = g u := by intros; rfl) : g t = g s := by
  rw [exec_eq] at h
  have hsteps := List.forall_mem_append.mpr ⟨hbody, epilogue_keeps i hemit hreset⟩
  rw [List.append_assoc] at hsteps
  obtain ⟨u, hu, ⟨n, k, rfl⟩ | rfl⟩ :=
    runCommand_induct (P := fun u => g u = g s) h (fun f hf u hu => (hsteps f hf u).trans hu) rfl
  · exact (hprogress u _ i).trans hu
  · exact (hprogress u _ u.fg.instr).trans hu

/-- A command without a body writes the text, the line flag and FG's progress. -/
theorem exec_keeps_of_empty {α : Type} (g : State → α) {i : Instr} {s t : State} (h : exec i s = .next t)
    (hbody : Instr.body s.num i = ⟨[], []⟩) (hemit : ∀ u ev, g (u.emit ev) = g u := by intros; rfl)
    (hreset : ∀ u, g u.lineReset = g u := by intros; rfl)
    (hprogress : ∀ u p j, g (u.withProgress p j) = g u := by intros; rfl) : g t = g s :=
  exec_keeps g h (by simp [hbody]) hemit hreset hprogress

/-! ## FG's locals -/

/-- FG's registers but for its progress through the program. -/
def Foreground.locals (f : Foreground) : Foreground := { f with phase := .boot0, instr := .help none }

theorem Foreground.eq_of_locals {f g : Foreground} (h : g.locals = f.locals) :
    g = { f with phase := g.phase, instr := g.instr } := by
  cases f
  cases g
  simp only [locals, Foreground.mk.injEq] at h ⊢
  tauto

/-! ## The stored bytes -/

theorem storesNothing_of_nvm {s t : State} (h : t.nvm = s.nvm) : storesNothing s t := fun _ => by rw [h]

/-- A save of the register file stores the whole image, at offsets 0 to 49. -/
theorem storesImageOnly_of_save {s t : State} (h : t.nvm = s.saveImage.nvm) : storesImageOnly s t := by
  rw [State.saveImage_nvm] at h
  have hlen := image_length s.par
  refine ⟨fun a ha => ?_, .inr fun a ha => ?_⟩
  · rw [h, Memory.read_writeBytes_outside _ _ _ _ (by omega)]
  · have hread := Memory.read_writeBytes_inside (image s.par) s.nvm 0 a (by omega)
    rw [Nat.zero_add] at hread
    rw [h, hread, byteAt, List.getD_eq_getElem]

theorem exec_storesImageOnly {i : Instr} {s t : State} (h : exec i s = .next t) : storesImageOnly s t := by
  rcases exec_nvm h with hkept | hsaved
  · exact ⟨fun a _ => storesNothing_of_nvm hkept a, .inl (storesNothing_of_nvm hkept)⟩
  · exact storesImageOnly_of_save hsaved

/-! ## The registers of `S` -/

section
variable {i : Instr} {s t : State}

theorem CommandWrites.ctl_eq (h : CommandWrites i s t) :
    t.ctl = { s.ctl with cmdAcc := t.ctl.cmdAcc, fbAcc := t.ctl.fbAcc, error := t.ctl.error,
                         errorIntegral := t.ctl.errorIntegral, maxObservedError := t.ctl.maxObservedError } := by
  obtain ⟨hframe⟩ := h
  ext1 <;> simp [hframe.prevCommand, hframe.prevError, hframe.errorDerivative, hframe.commandDerivative, hframe.output,
    hframe.enabled, hframe.inLimit, hframe.fault]

theorem CommandWrites.errorIntegral_eq (h : CommandWrites i s t) (hi : ∀ q, i ≠ .seti q) :
    t.ctl.errorIntegral = s.ctl.errorIntegral :=
  h.errorIntegral.resolve_right fun ⟨_, q, hq⟩ => hi q hq

theorem CommandWrites.maxObservedError_eq (h : CommandWrites i s t) (hi : i ≠ .stat) :
    t.ctl.maxObservedError = s.ctl.maxObservedError :=
  h.maxObservedError.resolve_right fun ⟨_, hq⟩ => hi hq

theorem CommandWrites.positions_eq (h : CommandWrites i s t) (hi : i ≠ .zero) :
    t.ctl.cmdAcc = s.ctl.cmdAcc ∧ t.ctl.fbAcc = s.ctl.fbAcc ∧ t.ctl.error = s.ctl.error :=
  ⟨h.cmdAcc.resolve_right fun ⟨_, hq⟩ => hi hq, h.fbAcc.resolve_right fun ⟨_, hq⟩ => hi hq,
    h.error.resolve_right fun ⟨_, hq⟩ => hi hq⟩

theorem exec_zero_ctl (h : exec .zero s = .next t) :
    t.ctl = { s.ctl with cmdAcc := t.ctl.cmdAcc, fbAcc := t.ctl.fbAcc, error := t.ctl.error } := by
  have hw := exec_writes h
  have hctl := hw.ctl_eq
  rwa [hw.errorIntegral_eq nofun, hw.maxObservedError_eq nofun] at hctl

theorem exec_stat_ctl (h : exec .stat s = .next t) :
    t.ctl = { s.ctl with maxObservedError := t.ctl.maxObservedError } := by
  have hw := exec_writes h
  have hctl := hw.ctl_eq
  obtain ⟨hcmd, hfb, herr⟩ := hw.positions_eq nofun
  rwa [hcmd, hfb, herr, hw.errorIntegral_eq nofun] at hctl

/-- Of `S` a command other than ZERO and STAT writes at most the integral. -/
theorem exec_ctl_integral (h : exec i s = .next t) (hstat : i ≠ .stat) (hzero : i ≠ .zero) :
    t.ctl = { s.ctl with errorIntegral := t.ctl.errorIntegral } := by
  have hw := exec_writes h
  have hctl := hw.ctl_eq
  obtain ⟨hcmd, hfb, herr⟩ := hw.positions_eq hzero
  rwa [hcmd, hfb, herr, hw.maxObservedError_eq hstat] at hctl

theorem exec_ctl_kept (h : exec i s = .next t) (hstat : i ≠ .stat) (hzero : i ≠ .zero) (hseti : ∀ q, i ≠ .seti q) :
    t.ctl = s.ctl := by
  have hctl := exec_ctl_integral h hstat hzero
  rwa [(exec_writes h).errorIntegral_eq hseti] at hctl

end

/-! ## The parameter commands -/

section
variable {α : Type} (g : State → α) (hcheck : ∀ u, g u.writeChecksum = g u) (hsave : ∀ u, g u.saveImage = g u)
include hcheck hsave

theorem setReg_keeps {r : FloatReg} (hwrite : ∀ v u, g (u.writeFloat r v) = g u) (n : NumOps) (q : Option Decimal) :
    ∀ f ∈ (setReg n r q).span ++ (setReg n r q).rest, ∀ u, g (f u) = g u := by
  cases q <;> simp [setReg, hwrite, hcheck, hsave]

theorem setInt_keeps {write : Half → State → State} (hwrite : ∀ v u, g (write v u) = g u) (lo hi : Int)
    (q : Option Decimal) : ∀ f ∈ (setInt write lo hi q).span ++ (setInt write lo hi q).rest, ∀ u, g (f u) = g u := by
  cases q <;> simp [setInt, hwrite, hcheck, hsave]

end

/-- SETI is SETREG of the integral gain but for the zeroing of the integral (46_commands.md R246). -/
theorem mem_setiBody {n : NumOps} {q : Option Decimal} {f : State → State}
    (h : f ∈ (setiBody n q).span ++ (setiBody n q).rest) :
    f = State.zeroIntegral ∨ f ∈ (setReg n .igain q).span ++ (setReg n .igain q).rest := by
  cases q with
  | none => exact .inr h
  | some d => simpa [setiBody, setReg] using h

/-- What every command of `P` keeps. -/
structure ParamFrame (s t : State) : Prop where
  frame : CommandFrame s t
  stores : storesImageOnly s t
  fg : t.fg = { s.fg with phase := t.fg.phase, instr := t.fg.instr }
  jerk : t.jerk = s.jerk
  xlog : t.xlog = s.xlog

theorem exec_paramFrame {i : Instr} {s t : State} (h : exec i s = .next t) (hhelp : ∀ first, i ≠ .help first)
    (hkeeps : ∀ f ∈ (Instr.body s.num i).span ++ (Instr.body s.num i).rest, ∀ u,
      ((f u).fg.locals, (f u).jerk) = (u.fg.locals, u.jerk)) : ParamFrame s t := by
  have hkept := exec_keeps (fun u => (u.fg.locals, u.jerk)) h hkeeps
  exact ⟨(exec_writes h).frame, exec_storesImageOnly h, Foreground.eq_of_locals (congrArg Prod.fst hkept),
    congrArg Prod.snd hkept, exec_xlog_of_ne_help hhelp h⟩

/-- Without a value a command of `P` writes neither `P` nor `S` nor the saved image (46_commands.md R244). -/
theorem exec_absent_frame {i : Instr} {s t : State} (h : exec i s = .next t) (hbody : Instr.body s.num i = ⟨[], []⟩) :
    t.par = s.par ∧ t.ctl = s.ctl ∧ storesNothing s t :=
  ⟨exec_keeps_of_empty State.par h hbody, exec_keeps_of_empty State.ctl h hbody,
    storesNothing_of_nvm (exec_keeps_of_empty State.nvm h hbody)⟩

/-- A command of a `Num` register, SETI among them, writes no other register of `P` but the checksum. -/
theorem exec_float_frame {i : Instr} {r : FloatReg} {q : Option Decimal} {s t : State} (h : exec i s = .next t)
    (hhelp : ∀ first, i ≠ .help first)
    (hbody : ∀ f ∈ (Instr.body s.num i).span ++ (Instr.body s.num i).rest,
      f = State.zeroIntegral ∨ f ∈ (setReg s.num r q).span ++ (setReg s.num r q).rest) :
    ParamFrame s t ∧ (∀ k, k ≠ r → t.par.getFloat k = s.par.getFloat k) ∧
      t.par.cmdMultiplier = s.par.cmdMultiplier ∧ t.par.ticksPerServoCycle = s.par.ticksPerServoCycle := by
  have hkeeps {α : Type} (g : State → α) (hzero : ∀ u, g u.zeroIntegral = g u) (hcheck : ∀ u, g u.writeChecksum = g u)
      (hsave : ∀ u, g u.saveImage = g u) (hwrite : ∀ v u, g (u.writeFloat r v) = g u) :
      ∀ f ∈ (Instr.body s.num i).span ++ (Instr.body s.num i).rest, ∀ u, g (f u) = g u := by
    intro f hf
    rcases hbody f hf with rfl | hreg
    · exact hzero
    · exact setReg_keeps g hcheck hsave hwrite s.num q f hreg
  refine ⟨exec_paramFrame h hhelp (hkeeps (fun u => (u.fg.locals, u.jerk)) ?_ ?_ ?_ ?_), fun k hk => ?float, ?mult,
    ?ticks⟩
  case float =>
    refine exec_keeps (fun u => u.par.getFloat k) h (hkeeps (fun u => u.par.getFloat k) (fun _ => rfl) (fun u => ?_)
      (fun _ => rfl) fun v u => ?_)
    · cases k <;> rfl
    · rw [State.writeFloat_par, Params.getFloat_setFloat, if_neg hk]
  case mult =>
    exact exec_keeps (fun u => u.par.cmdMultiplier) h (hkeeps (fun u => u.par.cmdMultiplier) (fun _ => rfl)
      (fun _ => rfl) (fun _ => rfl) fun _ _ => Params.setFloat_cmdMultiplier _ _ _)
  case ticks =>
    exact exec_keeps (fun u => u.par.ticksPerServoCycle) h (hkeeps (fun u => u.par.ticksPerServoCycle) (fun _ => rfl)
      (fun _ => rfl) (fun _ => rfl) fun _ _ => Params.setFloat_ticksPerServoCycle _ _ _)
  all_goals intros; rfl

/-- The frame of SETX and SETT; `other` is the integer register that the command does not write. -/
theorem exec_int_frame {i : Instr} {write : Half → State → State} {lo hi : Int} {q : Option Decimal} {s t : State}
    (h : exec i s = .next t) (hhelp : ∀ first, i ≠ .help first) (hbody : Instr.body s.num i = setInt write lo hi q)
    (other : Params → Half) (hcheck : ∀ u : State, other u.writeChecksum.par = other u.par)
    (hwrite : ∀ v u, (write v u).fg = u.fg ∧ (write v u).jerk = u.jerk ∧
      (∀ k, (write v u).par.getFloat k = u.par.getFloat k) ∧ other (write v u).par = other u.par) :
    ParamFrame s t ∧ (∀ k, t.par.getFloat k = s.par.getFloat k) ∧ other t.par = other s.par := by
  have hkeeps {α : Type} (g : State → α) (hcheck : ∀ u, g u.writeChecksum = g u) (hsave : ∀ u, g u.saveImage = g u)
      (hw : ∀ v u, g (write v u) = g u) :
      ∀ f ∈ (Instr.body s.num i).span ++ (Instr.body s.num i).rest, ∀ u, g (f u) = g u :=
    hbody ▸ setInt_keeps g hcheck hsave hw lo hi q
  refine ⟨exec_paramFrame h hhelp (hkeeps (fun u => (u.fg.locals, u.jerk)) (fun _ => rfl) (fun _ => rfl) fun v u => ?_),
    fun k => exec_keeps (fun u => u.par.getFloat k) h
      (hkeeps (fun u => u.par.getFloat k) (fun u => ?_) (fun _ => rfl) fun v u => ?_),
    exec_keeps (fun u => other u.par) h (hkeeps (fun u => other u.par) hcheck (fun _ => rfl) fun v u => ?_)⟩
  · obtain ⟨hfg, hjerk, -⟩ := hwrite v u
    rw [hfg, hjerk]
  · cases k <;> rfl
  · obtain ⟨-, -, hfloat, -⟩ := hwrite v u
    exact hfloat k
  · obtain ⟨-, -, -, hother⟩ := hwrite v u
    exact hother

/-- Settles O43: the frame of each kind of body, with the registers of `S` that the command may write. -/
theorem parameterCommandFrame : Obligations.ParameterCommandFrame := by
  intro q s t
  refine ⟨fun p hp h => ?float, fun h => ?setx, fun h => ?sett⟩
  case float =>
    have hparts : ParamFrame s t ∧ (∀ k, k ≠ p.2 → t.par.getFloat k = s.par.getFloat k) ∧
        t.par.cmdMultiplier = s.par.cmdMultiplier ∧ t.par.ticksPerServoCycle = s.par.ticksPerServoCycle := by
      simp only [List.mem_cons, List.not_mem_nil, or_false] at hp
      rcases hp with rfl | rfl | rfl | rfl | rfl | rfl | rfl | rfl
      case inr.inr.inr.inr.inr.inr.inr => exact exec_float_frame h nofun fun _ => mem_setiBody
      all_goals exact exec_float_frame h nofun fun _ => .inr
    have hinstr : p.1 q ≠ .stat ∧ p.1 q ≠ .zero ∧ (p.2 ≠ .igain → ∀ k, p.1 q ≠ .seti k) ∧
        (q = none → Instr.body s.num (p.1 q) = ⟨[], []⟩) := by
      simp only [List.mem_cons, List.not_mem_nil, or_false] at hp
      rcases hp with rfl | rfl | rfl | rfl | rfl | rfl | rfl | rfl
      case inr.inr.inr.inr.inr.inr.inr => exact ⟨nofun, nofun, absurd rfl, by rintro rfl; rfl⟩
      all_goals exact ⟨nofun, nofun, fun _ => nofun, by rintro rfl; rfl⟩
    obtain ⟨hframe, hfloat, hmult, hticks⟩ := hparts
    obtain ⟨hstat, hzero, hseti, hempty⟩ := hinstr
    exact ⟨hframe.frame, hframe.stores, hframe.fg, hframe.jerk, hframe.xlog, exec_ctl_integral h hstat hzero,
      fun hr => exec_ctl_kept h hstat hzero (hseti hr), hfloat, hmult, hticks,
      fun hq => exec_absent_frame h (hempty hq)⟩
  case setx =>
    obtain ⟨hframe, hfloat, hticks⟩ := exec_int_frame h nofun rfl (·.ticksPerServoCycle) (fun _ => rfl)
      fun v u => ⟨rfl, rfl, fun k => by cases k <;> rfl, rfl⟩
    refine ⟨hframe.frame, hframe.stores, hframe.fg, hframe.jerk, hframe.xlog, exec_ctl_kept h nofun nofun nofun, hfloat,
      hticks, ?_⟩
    rintro rfl
    obtain ⟨hpar, -, hnothing⟩ := exec_absent_frame h rfl
    exact ⟨hpar, hnothing⟩
  case sett =>
    obtain ⟨hframe, hfloat, hmult⟩ := exec_int_frame h nofun rfl (·.cmdMultiplier) (fun _ => rfl)
      fun v u => ⟨rfl, rfl, fun k => by cases k <;> rfl, rfl⟩
    refine ⟨hframe.frame, hframe.stores, hframe.fg, hframe.jerk, hframe.xlog, exec_ctl_kept h nofun nofun nofun, hfloat,
      hmult, ?_⟩
    rintro rfl
    obtain ⟨hpar, -, hnothing⟩ := exec_absent_frame h rfl
    exact ⟨hpar, hnothing⟩

/-! ## The diagnostic commands -/

/-- What every diagnostic command keeps. -/
structure DiagFrame (s t : State) : Prop where
  frame : CommandFrame s t
  stores : storesNothing s t
  par : t.par = s.par

theorem exec_diagFrame {i : Instr} {s t : State} (h : exec i s = .next t)
    (hkeeps : ∀ f ∈ (Instr.body s.num i).span ++ (Instr.body s.num i).rest, ∀ u,
      ((f u).nvm, (f u).par) = (u.nvm, u.par)) : DiagFrame s t := by
  have hkept := exec_keeps (fun u => (u.nvm, u.par)) h hkeeps
  exact ⟨(exec_writes h).frame, storesNothing_of_nvm (congrArg Prod.fst hkept), congrArg Prod.snd hkept⟩

theorem exec_fg_of_locals {i : Instr} {s t : State} (h : exec i s = .next t)
    (hkeeps : ∀ f ∈ (Instr.body s.num i).span ++ (Instr.body s.num i).rest, ∀ u, (f u).fg.locals = u.fg.locals) :
    t.fg = { s.fg with phase := t.fg.phase, instr := t.fg.instr } :=
  Foreground.eq_of_locals (exec_keeps (fun u => u.fg.locals) h hkeeps)

/-- RDFB writes of FG's locals only its sample. -/
theorem exec_rdfb_fg {s t : State} (h : exec .rdfb s = .next t) :
    t.fg = { s.fg with phase := t.fg.phase, instr := t.fg.instr, fbSample := t.fg.fbSample } := by
  have hkept := exec_keeps (fun u => { u.fg.locals with fbSample := 0 }) h
    (by simp [Instr.body, Foreground.locals, State.emitFeedback])
  have hlocals : { t.fg with fbSample := 0 }.locals = { s.fg with fbSample := 0 }.locals := hkept
  exact congrArg (fun f : Foreground => { f with fbSample := t.fg.fbSample }) (Foreground.eq_of_locals hlocals)

/-- Settles O44: what the micro-steps of each command keep, with the registers of `S` that it may write. -/
theorem diagnosticCommandFrame : Obligations.DiagnosticCommandFrame := by
  intro q first s t
  refine ⟨fun h => ?setj, fun h => ?rdfb, fun h => ?list, fun h => ?stat, fun h => ?zero, fun h => ?help⟩
  case setj =>
    have hd := exec_diagFrame h (by cases q <;> simp [Instr.body, setjBody, State.writeJerk])
    refine ⟨hd.frame, hd.stores, hd.par, exec_ctl_kept h nofun nofun nofun,
      exec_xlog_of_ne_help (i := .setj q) nofun h,
      exec_fg_of_locals h (by cases q <;> simp [Instr.body, setjBody, State.writeJerk]), ?_⟩
    rintro rfl
    exact exec_keeps_of_empty State.jerk h rfl
  case rdfb =>
    have hd := exec_diagFrame h (by simp [Instr.body, State.emitFeedback])
    exact ⟨hd.frame, hd.stores, hd.par, exec_ctl_kept h nofun nofun nofun,
      exec_xlog_of_ne_help (i := .rdfb) nofun h, exec_keeps State.jerk h (by simp [Instr.body, State.emitFeedback]),
      exec_rdfb_fg h⟩
  case list =>
    have hd := exec_diagFrame h (by simp [Instr.body])
    exact ⟨hd.frame, hd.stores, hd.par, exec_ctl_kept h nofun nofun nofun,
      exec_xlog_of_ne_help (i := .list) nofun h, exec_keeps State.jerk h (by simp [Instr.body]),
      exec_fg_of_locals h (by simp [Instr.body])⟩
  case stat =>
    have hd := exec_diagFrame h (by simp [Instr.body, statSpan, State.emitStat])
    exact ⟨hd.frame, hd.stores, hd.par, exec_xlog_of_ne_help (i := .stat) nofun h,
      exec_keeps State.jerk h (by simp [Instr.body, statSpan, State.emitStat]),
      exec_keeps (fun u => u.fg.fbSample) h (by simp [Instr.body, statSpan, State.emitStat]), exec_stat_ctl h⟩
  case zero =>
    have hd := exec_diagFrame h (by simp [Instr.body, zeroSpan])
    exact ⟨hd.frame, hd.stores, hd.par, exec_xlog_of_ne_help (i := .zero) nofun h,
      exec_keeps State.jerk h (by simp [Instr.body, zeroSpan]),
      exec_fg_of_locals h (by simp [Instr.body, zeroSpan]), exec_zero_ctl h⟩
  case help =>
    have hd := exec_diagFrame h (by simp [Instr.body, State.emitHelp])
    exact ⟨hd.frame, hd.stores, hd.par, exec_ctl_kept h nofun nofun nofun,
      exec_keeps State.jerk h (by simp [Instr.body, State.emitHelp]),
      exec_fg_of_locals h (by simp [Instr.body, State.emitHelp])⟩

end Sys2Proof.Machine
end

section
/-! The text events of a dispatched line (46_commands.md R263, R269, R270): each command's micro-steps with the kinds of
text they emit, and a run of them with the turns of other agents between. -/

namespace Sys2Proof.Machine

/-! ## The text of a list of micro-steps -/

/-- The kinds of the text events up to now. -/
def State.txKinds (s : State) : List TxKind := s.tx.map TxEvent.kind

/-- The micro-steps `fs` emit the kinds `ks` in order; the flag says that the line reset is still among them, and no
other of them writes `L.ready`. -/
inductive Responds : Bool → List (State → State) → List TxKind → Prop where
  | done : Responds false [] []
  | work {reset : Bool} {f : State → State} {fs : List (State → State)} {ks ls : List TxKind}
      (hready : ∀ u, (f u).lineReady = u.lineReady) (htext : ∀ u, (f u).txKinds = u.txKinds ++ ks)
      (hrest : Responds reset fs ls) : Responds reset (f :: fs) (ks ++ ls)
  | reset {fs : List (State → State)} {ls : List TxKind} (hrest : Responds false fs ls) :
      Responds true (State.lineReset :: fs) ls

/-- A micro-step that emits nothing and leaves `L.ready` alone. -/
def Silent (f : State → State) : Prop := ∀ u : State, (f u).lineReady = u.lineReady ∧ (f u).tx = u.tx

theorem Responds.silent {reset : Bool} {f : State → State} {fs : List (State → State)} {ls : List TxKind}
    (hf : Silent f) (hrest : Responds reset fs ls) : Responds reset (f :: fs) ls :=
  .work (ks := []) (fun u => (hf u).1) (fun u => by rw [State.txKinds, (hf u).2, List.append_nil]; rfl) hrest

theorem Responds.silent_append {reset : Bool} {fs gs : List (State → State)} {ls : List TxKind}
    (hfs : ∀ f ∈ fs, Silent f) (hrest : Responds reset gs ls) : Responds reset (fs ++ gs) ls := by
  induction fs with
  | nil => exact hrest
  | cons f fs ih =>
    obtain ⟨hf, hfs⟩ := List.forall_mem_cons.mp hfs
    exact .silent hf (ih hfs)

theorem Responds.emit {reset : Bool} {ev : State → TxEvent} {k : TxKind} {fs : List (State → State)}
    {ls : List TxKind} (hkind : ∀ u, (ev u).kind = k) (hrest : Responds reset fs ls) :
    Responds reset ((fun u => u.emit (ev u)) :: fs) (k :: ls) :=
  .work (ks := [k]) (fun _ => rfl) (fun u => by simp [State.txKinds, hkind]) hrest

theorem silent_fuse {fs : List (State → State)} (h : ∀ f ∈ fs, Silent f) : ∀ f ∈ fuse fs, Silent f := by
  intro f hf u
  exact fuse_induct (P := fun v => v.lineReady = u.lineReady ∧ v.tx = u.tx) fs
    (fun g hg v hv => ⟨(h g hg v).1.trans hv.1, (h g hg v).2.trans hv.2⟩) f hf u ⟨rfl, rfl⟩

/-! ## The text of each command -/

/-- The end of a command: the dump of those that have one, the line reset, the prompt (46_commands.md R241). -/
theorem responds_epilogue (i : Instr) :
    Responds true (epilogue i) ((if epilogueDumps i then [.dump] else []) ++ [.prompt]) := by
  have hend : Responds true [State.lineReset, State.emit .prompt] [.prompt] :=
    .reset (.emit (ev := fun _ => .prompt) (fun _ => rfl) .done)
  rw [epilogue]
  split
  · exact .emit (ev := fun u => .dump u.par) (fun _ => rfl) hend
  · exact hend

/-- The kinds of text in a command's own body: what its row of R263 has before the epilogue. -/
def bodyText : Instr → List TxKind
  | .rdfb => [.feedback]
  | .list => [.dump]
  | .stat => [.stat]
  | .help _ => [.help]
  | _ => []

theorem response_eq (i : Instr) :
    response i = bodyText i ++ ((if epilogueDumps i then [.dump] else []) ++ [.prompt]) := by
  cases i <;> rfl

/-- No span of a command emits, nor writes `L.ready` (46_commands.md R243). -/
theorem silent_span (n : NumOps) (i : Instr) : ∀ f ∈ (Instr.body n i).span, Silent f := by
  cases i with
  | stat => simp [Instr.body, statSpan, Silent]
  | zero => simp [Instr.body, zeroSpan, Silent]
  | rdfb | list | help first => simp [Instr.body, Silent]
  | _ q => cases q <;> simp [Instr.body, setReg, setiBody, setInt, setjBody, Silent, State.writeJerk]

theorem responds_rest (n : NumOps) (i : Instr) {fs : List (State → State)} {ls : List TxKind}
    (h : Responds true fs ls) : Responds true ((Instr.body n i).rest ++ fs) (bodyText i ++ ls) := by
  have hsave : Silent State.saveImage := fun u => ⟨u.saveImage_lineReady, u.saveImage_tx⟩
  cases i with
  | rdfb => exact .emit (ev := fun u => .feedback u.fg.fbSample) (fun _ => rfl) h
  | list => exact .emit (ev := fun u => .dump u.par) (fun _ => rfl) h
  | stat => exact .emit (ev := fun _ => .stat _ _ _ _ _ _ _) (fun _ => rfl) h
  | zero => exact h
  | help first =>
    exact .work (ks := [.help]) (fun _ => rfl) (fun u => by simp [State.txKinds, State.emitHelp, TxEvent.kind]) h
  | setj q => cases q <;> exact h
  | _ q =>
    cases q with
    | none => exact h
    | some d => exact .silent hsave h

/-- The micro-steps of a command emit its row of R263, under either option. -/
theorem responds_microList (c : Config) (i : Instr) : Responds true (microList c i) (response i) := by
  rw [microList, Body.microSteps, List.append_assoc, response_eq]
  refine .silent_append ?_ (responds_rest c.arith i (responds_epilogue i))
  split
  · exact silent_fuse (silent_span c.arith i)
  · exact silent_span c.arith i

/-! ## Turns between the micro-steps -/

/-- A turn of another agent that may fall inside a command, but for a line, leaves what the command's progress and text
rest on. -/
theorem State.turn_interleaves {e : Event} (he : e.interleaves = true) (hfg : e ≠ .fg) (s : State) :
    ∃ t, s.turn e = .next t ∧ t.cfg = s.cfg ∧ t.fg = s.fg ∧ t.halted = s.halted ∧ t.lineReady = s.lineReady ∧
      t.lineBuf = s.lineBuf ∧ t.tx = s.tx := by
  cases e with
  | fg => exact absurd rfl hfg
  | tick =>
    refine ⟨s.tick, rfl, ?_⟩
    rw [s.tick_frame.1]
    exact ⟨rfl, rfl, rfl, rfl, rfl, rfl⟩
  | tick2 =>
    refine ⟨s.tick2, rfl, ?_⟩
    rcases s.tick2_cases with h | ⟨-, h⟩ <;> rw [h] <;> exact ⟨rfl, rfl, rfl, rfl, rfl, rfl⟩
  | cmdCnt v | fbCnt v | en v => exact ⟨_, rfl, rfl, rfl, rfl, rfl, rfl, rfl⟩
  | reset | envFault | line bytes => cases he

/-- A running block takes a line only where none is pending. -/
theorem State.turn_line_next {s t : State} {bytes : List Byte} (hrun : s.halted = false)
    (h : s.turn (.line bytes) = .next t) :
    s.lineReady = false ∧ t = { s with lineBuf := bytes, lineReady := true } := by
  obtain ⟨-, hpending, hlong, hfits⟩ := onlyLinesAreRefused.2 s bytes
  cases hready : s.lineReady with
  | true => cases h.symm.trans (hpending hrun hready)
  | false =>
    rcases Nat.lt_or_ge s.cfg.lineMax bytes.length with hlen | hlen
    · cases h.symm.trans (hlong hrun hready hlen)
    · exact ⟨rfl, Host.Outcome.next.inj (h.symm.trans (hfits hrun hready hlen))⟩

/-- FG is in the command `i` with the micro-steps `fs` still to run. A line may be delivered only behind the line reset,
where FG no longer reads `L.buf`. -/
structure InCommand (i : Instr) (reset : Bool) (fs : List (State → State)) (s : State) : Prop where
  running : s.halted = false
  fetched : (reset = true ∧ s.fg.phase = .dispatch ∧ decodeLine s.lineBuf = i) ∨
    ((∃ k, s.fg.phase = .command k) ∧ s.fg.instr = i)
  left : (microList s.cfg i).drop s.microIndex = fs

theorem InCommand.microList_eq {i : Instr} {reset : Bool} {f : State → State} {fs : List (State → State)} {s : State}
    (h : InCommand i reset (f :: fs) s) : (microList s.cfg i)[s.microIndex]? = some f ∧
      (microList s.cfg i).drop (s.microIndex + 1) = fs := by
  have hleft := h.left
  exact ⟨by rw [← List.head?_drop, hleft]; rfl, by rw [← List.tail_drop, hleft]; rfl⟩

/-- FG's turn runs the first of the micro-steps that are left. -/
theorem InCommand.turn_fg {i : Instr} {reset : Bool} {f : State → State} {fs : List (State → State)} {s : State}
    (h : InCommand i reset (f :: fs) s) : ∃ t, s.turn .fg = .next t ∧ t.tx = (f s).tx ∧
      t.lineReady = (f s).lineReady ∧ (fs = [] → t.fg.phase = .jerkTest) ∧
      (fs ≠ [] → ∀ reset', InCommand i reset' fs t) := by
  have hfetch : s.fetch = some i := State.fetch_eq_some (h.fetched.imp_left And.right)
  obtain ⟨hat, hdrop⟩ := h.microList_eq
  have hexec := exec_at i s hat
  have hframe := (exec_writes hexec).frame
  have hmore : s.microIndex + 1 < (microList s.cfg i).length ↔ fs ≠ [] := by
    rw [← hdrop, Ne, List.drop_eq_nil_iff, Nat.not_le]
  refine ⟨_, (State.turn_fg_exec h.running hfetch).trans hexec, rfl, rfl, fun hnil => ?_, fun hne reset' => ?_⟩
  · exact if_neg fun hlt => hmore.mp hlt hnil
  · rw [if_pos (hmore.mpr hne)] at hframe ⊢
    exact ⟨hframe.halted.trans h.running, .inr ⟨⟨_, rfl⟩, rfl⟩, by rw [hframe.cfg]; exact hdrop⟩

theorem InCommand.of_eq {i : Instr} {reset : Bool} {fs : List (State → State)} {s t : State}
    (h : InCommand i reset fs s) (hcfg : t.cfg = s.cfg) (hfg : t.fg = s.fg) (hhalted : t.halted = s.halted)
    (hbuf : reset = true → t.lineBuf = s.lineBuf) : InCommand i reset fs t where
  running := hhalted.trans h.running
  fetched := by
    rw [hfg]
    exact h.fetched.imp_left fun ⟨hr, hp, hi⟩ => ⟨hr, hp, by rw [hbuf hr, hi]⟩
  left := by
    rw [hcfg, State.microIndex, hfg]
    exact h.left

theorem Responds.cons_inv {reset : Bool} {f : State → State} {fs : List (State → State)} {ks : List TxKind}
    (h : Responds reset (f :: fs) ks) : ∃ reset' ks' ls, ks = ks' ++ ls ∧ Responds reset' fs ls ∧
      (∀ u, (f u).txKinds = u.txKinds ++ ks') ∧
      ((reset' = reset ∧ ∀ u, (f u).lineReady = u.lineReady) ∨
        (reset' = false ∧ reset = true ∧ ∀ u, (f u).lineReady = false)) := by
  cases h with
  | work hready htext hrest => exact ⟨reset, _, _, rfl, hrest, htext, .inl ⟨rfl, hready⟩⟩
  | reset hrest =>
    exact ⟨false, [], ks, rfl, hrest, fun u => (List.append_nil _).symm, .inr ⟨rfl, rfl, fun _ => rfl⟩⟩

theorem Responds.nil_inv {reset : Bool} {ks : List TxKind} (h : Responds reset [] ks) : reset = false ∧ ks = [] := by
  cases h
  exact ⟨rfl, rfl⟩

/-- A list that ends in FG's turn goes on after another agent's turn, and ends with FG's last. -/
theorem getLast?_fg_of_ne {e : Event} {es : List Event} (h : (e :: es).getLast? = some .fg) (he : e ≠ .fg) :
    es.getLast? = some .fg := by
  rw [List.getLast?_cons, Option.some.injEq] at h
  cases hl : es.getLast? with
  | none => rw [hl] at h; exact absurd h he
  | some f => rw [hl] at h; exact congrArg some h

theorem eq_nil_of_count_fg {es : List Event} (h : (Event.fg :: es).getLast? = some .fg) (hc : es.count .fg = 0) :
    es = [] := by
  by_contra hne
  have hlast : es.getLast? = some .fg := by
    rw [List.getLast?_cons, List.getLast?_eq_some_getLast hne] at h
    rw [List.getLast?_eq_some_getLast hne]
    exact h
  exact List.count_eq_zero.mp hc (List.mem_of_getLast? hlast)

/-- FG's turn and the text of its micro-step together. -/
theorem InCommand.turn_fg_responds {i : Instr} {reset : Bool} {f : State → State} {fs : List (State → State)}
    {ks : List TxKind} {s : State} (hin : InCommand i reset (f :: fs) s) (hr : Responds reset (f :: fs) ks) :
    ∃ u reset' ks' ls, s.turn .fg = .next u ∧ ks = ks' ++ ls ∧ Responds reset' fs ls ∧
      u.txKinds = s.txKinds ++ ks' ∧ (reset' = true → reset = true ∧ u.lineReady = s.lineReady) ∧
      ((reset' = false ∧ u.lineReady = true) ↔ (reset = false ∧ s.lineReady = true)) ∧
      (fs = [] → u.fg.phase = .jerkTest) ∧ (fs ≠ [] → InCommand i reset' fs u) := by
  obtain ⟨reset', ks', ls, hks, hrest, htext, hflag⟩ := hr.cons_inv
  obtain ⟨u, hturn, htx, hup, hend, hnext⟩ := hin.turn_fg
  have hkinds : u.txKinds = s.txKinds ++ ks' := by rw [← htext, State.txKinds, htx]; rfl
  refine ⟨u, reset', ks', ls, hturn, hks, hrest, hkinds, ?_, ?_, hend, fun hne => hnext hne reset'⟩
  · rintro rfl
    rcases hflag with ⟨rfl, hkept⟩ | ⟨hfalse, -⟩
    · exact ⟨rfl, hup.trans (hkept s)⟩
    · cases hfalse
  · rcases hflag with ⟨rfl, hkept⟩ | ⟨rfl, rfl, hdown⟩
    · rw [hup, hkept]
    · simp [hup, hdown]

/-- The micro-steps that are left of a command, with the turns of other agents between: their text in order, FG at the
jerk test, and `L.ready` up exactly where a line came behind the line reset. -/
theorem runTurns_responds {i : Instr} {es : List Event} {reset : Bool} {fs : List (State → State)} {ks : List TxKind}
    {s t : State} (hr : Responds reset fs ks) (hin : InCommand i reset fs s) (hcount : es.count .fg = fs.length)
    (hlast : es.getLast? = some .fg) (hes : ∀ e ∈ es, e.interleaves = true ∨ ∃ bytes, e = .line bytes)
    (hready : reset = true → s.lineReady = true ∨ ∀ bytes, .line bytes ∉ es) (hrun : runTurns es s = .next t) :
    t.fg.phase = .jerkTest ∧ t.txKinds = s.txKinds ++ ks ∧
      (t.lineReady = true ↔ (reset = false ∧ s.lineReady = true) ∨ ∃ bytes, .line bytes ∈ es) := by
  induction es generalizing reset fs ks s with
  | nil => cases hlast
  | cons e es ih =>
    obtain ⟨he, htail⟩ := List.forall_mem_cons.mp hes
    have hreadyTail : reset = true → s.lineReady = true ∨ ∀ bytes, .line bytes ∉ es := fun htrue =>
      (hready htrue).imp_right fun hno bytes hmem => hno bytes (List.mem_cons_of_mem e hmem)
    by_cases hfg : e = .fg
    · subst hfg
      rw [List.count_cons_self] at hcount
      cases fs with
      | nil => cases hcount
      | cons f fs =>
        obtain ⟨u, reset', ks', ls, hturn, rfl, hrest, hkinds, hsame, hbehind, hend, hnext⟩ := hin.turn_fg_responds hr
        rw [runTurns_cons hturn] at hrun
        have hleft : es.count .fg = fs.length := by simpa using hcount
        cases fs with
        | nil =>
          obtain rfl := eq_nil_of_count_fg hlast hleft
          obtain ⟨rfl, rfl⟩ := hrest.nil_inv
          cases hrun
          rw [← hbehind]
          exact ⟨hend rfl, by rw [hkinds, List.append_nil], by simp⟩
        | cons g fs =>
          have hne : es ≠ [] := fun hnil => by simp [hnil] at hleft
          rw [List.getLast?_cons_of_ne_nil hne] at hlast
          have hreadyNext : reset' = true → u.lineReady = true ∨ ∀ bytes, .line bytes ∉ es := fun htrue => by
            obtain ⟨hreset, heq⟩ := hsame htrue
            rw [heq]
            exact hreadyTail hreset
          obtain ⟨hphase, htext, hiff⟩ := ih hrest (hnext (List.cons_ne_nil g fs)) hleft hlast htail hreadyNext hrun
          exact ⟨hphase, by rw [htext, hkinds, List.append_assoc], by rw [hiff, hbehind]; simp⟩
    · have hlastTail := getLast?_fg_of_ne hlast hfg
      rw [List.count_cons_of_ne hfg] at hcount
      rcases he with he | ⟨bytes, rfl⟩
      · obtain ⟨u, hturn, hcfg, hufg, hhalted, hup, hbuf, htx⟩ := State.turn_interleaves he hfg s
        rw [runTurns_cons hturn] at hrun
        have hnoline (bytes : List Byte) : Event.line bytes ≠ e := by
          rintro rfl
          cases he
        obtain ⟨hphase, htext, hiff⟩ := ih hr (hin.of_eq hcfg hufg hhalted fun _ => hbuf) hcount hlastTail htail
          (hup ▸ hreadyTail) hrun
        refine ⟨hphase, by rw [htext, State.txKinds, htx]; rfl, ?_⟩
        simp only [hiff, hup, List.mem_cons, hnoline, false_or]
      · cases hturn : s.turn (.line bytes) with
        | fault r => rw [runTurns, hturn] at hrun; cases hrun
        | refused r => rw [runTurns, hturn] at hrun; cases hrun
        | next u =>
          rw [runTurns_cons hturn] at hrun
          obtain ⟨hdown, rfl⟩ := State.turn_line_next hin.running hturn
          have hreset : reset = false := by
            by_contra htrue
            rcases hready (by simpa using htrue) with hup | hno
            · cases hdown.symm.trans hup
            · exact hno bytes List.mem_cons_self
          subst hreset
          have hin' : InCommand i false fs { s with lineBuf := bytes, lineReady := true } :=
            hin.of_eq rfl rfl rfl nofun
          obtain ⟨hphase, htext, hiff⟩ := ih hr hin' hcount hlastTail htail nofun hrun
          exact ⟨hphase, htext, iff_of_true (hiff.mpr (.inl ⟨rfl, rfl⟩)) (.inr ⟨bytes, List.mem_cons_self⟩)⟩

/-- No turn but a line's is refused. -/
theorem runTurns_next {es : List Event} (h : ∀ bytes, Event.line bytes ∉ es) (s : State) :
    ∃ t, runTurns es s = .next t := by
  induction es generalizing s with
  | nil => exact ⟨s, rfl⟩
  | cons e es ih =>
    obtain ⟨u, hturn⟩ := onlyLinesAreRefused.1 s e fun bytes he => h bytes (he ▸ List.mem_cons_self)
    rw [runTurns_cons hturn]
    exact ih (fun bytes hmem => h bytes (List.mem_cons_of_mem _ hmem)) u

/-- Settles O45: the run of the dispatched command's micro-steps from the first on. -/
theorem everyLineGetsItsResponse : Obligations.EveryLineGetsItsResponse := by
  intro es s hrun hphase hes hcount hlast
  have hin : InCommand (decodeLine s.lineBuf) true (microList s.cfg (decodeLine s.lineBuf)) s :=
    ⟨hrun, .inl ⟨rfl, hphase, rfl⟩, by rw [State.microIndex, hphase, List.drop_zero]⟩
  have hall (hready : s.lineReady = true ∨ ∀ bytes, Event.line bytes ∉ es) {t : State} (ht : runTurns es s = .next t) :=
    runTurns_responds (responds_microList s.cfg _) hin (hcount.trans (microList_length s.cfg _).symm) hlast hes
      (fun _ => hready) ht
  refine ⟨fun hquiet => ?_, fun t hready ht => ?_⟩
  · have hno (bytes : List Byte) : Event.line bytes ∉ es := fun hmem => by cases hquiet _ hmem
    obtain ⟨t, ht⟩ := runTurns_next hno s
    obtain ⟨hp, htext, hiff⟩ := hall (.inr hno) ht
    refine ⟨t, ht, hp, ?_, htext⟩
    simpa [hno] using hiff
  · obtain ⟨hp, htext, hiff⟩ := hall (.inl hready) ht
    exact ⟨hp, htext, by simpa using hiff⟩

end Sys2Proof.Machine
end

section
/-! The rendering of the text output (46_commands.md R271, R272): the lines of each event, and the conversions of
numbers. -/

namespace Sys2Proof
open Sys2Proof.Machine

/-! ## ASCII strings -/

theorem asc_append (a b : String) : asc (a ++ b) = asc a ++ asc b := by simp [asc]

/-- A line of the text: label, value and line end (46_commands.md R271). -/
theorem textLine_eq (label : String) (value : List Byte) :
    textLine label value = asc (label ++ " = ") ++ (value ++ [0x0D, 0x0A]) := by
  rw [textLine, nl, asc_append, List.append_assoc]

theorem fmtBool_eq (b : Bool) : fmtBool b = if b then asc "1" else asc "0" := by
  cases b <;> decide

/-! ## Decimal digits -/

/-- The first digit of a number that is not 0 is not 0. -/
theorem digitsOnto_head_ne_zero {fuel n : Nat} (hn : n ≠ 0) (hfuel : n < 10 ^ fuel) (acc : List Nat) :
    (digitsOnto fuel n acc).head? ≠ some 0 := by
  induction fuel generalizing n acc with
  | zero => omega
  | succ fuel ih =>
    rw [digitsOnto]
    split
    · simpa using hn
    · next hge =>
      rw [pow_succ] at hfuel
      exact ih (by omega) (by omega) _

theorem natDigits_head {n : Nat} (h : (natDigits n).head? = some 0) : natDigits n = [0] := by
  by_cases hn : n = 0
  · subst hn
    rfl
  · exact absurd h (digitsOnto_head_ne_zero hn (lt_ten_pow_log2 n) [])

/-- A decimal has at least one digit, and only 0 begins with the digit 0. -/
theorem natBytes_digits (n : Nat) : ∃ ds : List Nat, natBytes n = ds.map (fun d => BitVec.ofNat 8 (0x30 + d)) ∧
    (∀ d ∈ ds, d < 10) ∧ digitsVal ds = n ∧ ds ≠ [] ∧ (ds.head? = some 0 → ds = [0]) := by
  obtain ⟨hne, hlt, hval⟩ := natDigits_isDigitsOf n
  exact ⟨natDigits n, rfl, hlt, hval, hne, natDigits_head⟩

theorem fmtInt_eq (x : Int) : fmtInt x = if x < 0 then 0x2D :: natBytes x.natAbs else natBytes x.natAbs := by
  rw [fmtInt]
  split <;> rfl

/-! ## Hex digits -/

theorem hexByte_eq (d : Nat) : hexByte d = BitVec.ofNat 8 (if d < 10 then 0x30 + d else 0x41 + (d - 10)) := by
  rw [hexByte]
  split
  · rfl
  · rw [show 0x37 + d = 0x41 + (d - 10) by omega]

/-- The four digits of a 16-bit value to the base 16. -/
def hexDigits (w : Half) : List Nat := [w.toNat / 4096 % 16, w.toNat / 256 % 16, w.toNat / 16 % 16, w.toNat % 16]

theorem hexDigits_lt (w : Half) : ∀ d ∈ hexDigits w, d < 16 := by
  simp only [hexDigits, List.forall_mem_cons]
  exact ⟨by omega, by omega, by omega, by omega, by simp⟩

theorem hexDigits_val (w : Half) : (hexDigits w).foldl (fun a d => 16 * a + d) 0 = w.toNat := by
  have hlt := w.isLt
  simp only [hexDigits, List.foldl_cons, List.foldl_nil]
  omega

theorem fmtHex_eq (w : Half) :
    fmtHex w = (hexDigits w).map fun d => BitVec.ofNat 8 (if d < 10 then 0x30 + d else 0x41 + (d - 10)) :=
  List.map_congr_left fun d _ => hexByte_eq d

/-! ## `%f` -/

/-- A finite number in millionths, to nearest and ties to even. -/
theorem millionths_spec (r : Num32) : |(millionths r : ℚ) - |numValue r| * 10 ^ 6| ≤ 1 / 2 ∧
    (|(millionths r : ℚ) - |numValue r| * 10 ^ 6| = 1 / 2 → millionths r % 2 = 0) := by
  have hvalue : |numValue r| * 10 ^ 6 =
      ((r.mant * 2 ^ r.qexp.toNat * 10 ^ 6 : Nat) : ℚ) / (2 ^ (-r.qexp).toNat : Nat) := by
    rw [abs_numValue_eq_mant, two_zpow_eq_div]
    push_cast
    ring
  rw [hvalue]
  exact roundDiv_spec _ (Nat.two_pow_pos _)

/-- The six decimal digits of a number of millionths below one. -/
def sixDigitVals (n : Nat) : List Nat :=
  [n / 100000 % 10, n / 10000 % 10, n / 1000 % 10, n / 100 % 10, n / 10 % 10, n % 10]

theorem sixDigitVals_lt (n : Nat) : ∀ d ∈ sixDigitVals n, d < 10 := by
  simp only [sixDigitVals, List.forall_mem_cons]
  exact ⟨by omega, by omega, by omega, by omega, by omega, by omega, by simp⟩

theorem sixDigitVals_val {n : Nat} (h : n < 10 ^ 6) : digitsVal (sixDigitVals n) = n := by
  simp only [digitsVal, sixDigitVals, List.foldl_cons, List.foldl_nil]
  omega

theorem fmtFloat_of_isFinite {r : Num32} (h : isFinite r = true) : fmtFloat r =
    (if r.sign then [0x2D] else []) ++ natBytes (millionths r / 10 ^ 6) ++ [0x2E] ++
      (sixDigitVals (millionths r % 10 ^ 6)).map (fun d => BitVec.ofNat 8 (0x30 + d)) := by
  rw [fmtFloat, Num32.isNaN_of_isFinite h, Num32.isInf_of_isFinite h, List.append_assoc, List.append_assoc]
  simp only [Bool.false_eq_true, if_false, List.append_assoc]
  rfl

theorem fmtFloat_of_isInf {r : Num32} (h : r.isInf = true) :
    fmtFloat r = if r.sign then asc "-inf" else asc "inf" := by
  rw [fmtFloat, Num32.isNaN_of_isInf h, h]
  cases r.sign <;> rfl

theorem fmtFloat_of_isNaN {r : Num32} (h : r.isNaN = true) :
    fmtFloat r = if r.sign then asc "-nan" else asc "nan" := by
  rw [fmtFloat, h]
  cases r.sign <;> rfl

/-! ## The events -/

/-- The lines of the dump, in layout order of the registers. -/
def dumpLines (c : Config) (p : Params) : List (List Byte) := [
  asc "(p) = " ++ c.arith.render p.pgain, asc "(i) = " ++ c.arith.render p.igain,
  asc "(d) = " ++ c.arith.render p.dgain, asc "(0) = " ++ c.arith.render p.ff0gain,
  asc "(1) = " ++ c.arith.render p.ff1gain, asc "(b) = " ++ c.arith.render p.deadband,
  asc "(m) = " ++ c.arith.render p.maxOutput, asc "(f) = " ++ c.arith.render p.maxError,
  asc "(mi) = " ++ c.arith.render p.maxIntegralError, asc "(md) = " ++ c.arith.render p.maxDerivError,
  asc "(mc) = " ++ c.arith.render p.maxCmdDeriv, asc "(x) = " ++ fmtInt p.cmdMultiplier.toInt,
  asc "(t) = " ++ fmtInt p.ticksPerServoCycle.toInt, asc "(cs) = 0x" ++ fmtHex p.checksum]

theorem renderEvent_dump (c : Config) (p : Params) :
    renderEvent c (.dump p) = (dumpLines c p).flatMap (· ++ [0x0D, 0x0A]) := by
  have hsum : asc "(cs) = 0x" = asc "(cs) = " ++ asc "0x" := asc_append "(cs) = " "0x"
  simp only [renderEvent, textLine_eq, String.reduceAppend, dumpLines, hsum, List.flatMap_cons, List.flatMap_nil,
    List.append_assoc, List.append_nil]

/-- The first line of the dump after `p2.5` (R271, R272). -/
theorem renderEvent_dump_take {c : Config} {p : Params} (hnum : c.num = .binary32) (hp : p.pgain = 0x40200000) :
    (renderEvent c (.dump p)).take 16 = asc "(p) = 2.500000" ++ [0x0D, 0x0A] := by
  have hrender : c.arith.render p.pgain = asc "2.500000" := by
    rw [Config.arith_binary32 hnum, hp]
    decide
  have hfirst : asc "(p) = " ++ c.arith.render p.pgain = asc "(p) = 2.500000" := by
    rw [hrender]
    exact (asc_append "(p) = " "2.500000").symm
  rw [renderEvent_dump, dumpLines, hfirst, List.flatMap_cons]
  exact List.take_left' (by decide)

theorem renderEvent_stat (c : Config) (e : Accum) (iterm dterm out : Num32) (lim flt : Bool) (mx : Count) :
    renderEvent c (.stat e iterm dterm out lim flt mx) = ([
      asc "err = " ++ fmtInt e, asc "iterm = " ++ c.arith.render iterm, asc "dterm = " ++ c.arith.render dterm,
      asc "out = " ++ c.arith.render out, asc "limit = " ++ (if lim then asc "1" else asc "0"),
      asc "fault = " ++ (if flt then asc "1" else asc "0"), asc "maxerr = " ++ natBytes mx] :
      List (List Byte)).flatMap (· ++ [0x0D, 0x0A]) := by
  simp only [renderEvent, textLine_eq, String.reduceAppend, fmtNat, fmtBool_eq, List.flatMap_cons, List.flatMap_nil,
    List.append_assoc, List.append_nil]

theorem renderEvent_feedback (c : Config) (v : Count) :
    renderEvent c (.feedback v) = asc "fb = " ++ natBytes v ++ [0x0D, 0x0A] := by
  simp only [renderEvent, textLine_eq, String.reduceAppend, fmtNat, List.append_assoc]

/-- Settles O60: the lines of each event, the digits of each conversion, and the examples by evaluation. -/
theorem renderingIsAsTheRuleSays : Obligations.RenderingIsAsTheRuleSays := by
  refine ⟨fun c p => ⟨renderEvent_dump c p, renderEvent_dump_take⟩,
    fun c v e iterm dterm out lim flt mx => ⟨renderEvent_feedback c v, renderEvent_stat c e iterm dterm out lim flt mx,
      rfl, rfl, rfl, rfl⟩,
    natBytes_digits, fmtInt_eq, fun w => ⟨hexDigits w, fmtHex_eq w, rfl, hexDigits_lt w, hexDigits_val w⟩,
    fun c r hnum => ?_, by decide⟩
  obtain ⟨hnear, heven⟩ := millionths_spec r
  rw [Config.arith_binary32 hnum, Num32.ops_render]
  exact ⟨fun hfin => ⟨millionths r, sixDigitVals (millionths r % 10 ^ 6), hnear, heven, rfl, sixDigitVals_lt _,
    sixDigitVals_val (Nat.mod_lt _ (by decide)), fmtFloat_of_isFinite hfin⟩, fmtFloat_of_isInf, fmtFloat_of_isNaN⟩

end Sys2Proof
end
